-- ==== Sys2Proof/Word.lean ====
section
/-! DEFINITION. The words of the block: bytes, slot values, times (00_scope.md R9, R11, R13). -/

namespace Sys2Proof

/-- A byte, 8 bits, bit 0 least significant (R13). -/
abbrev Byte := BitVec 8

/-- A slot value or a checksum: a 16-bit pattern the block never interprets (R17, R36, R64). -/
abbrev Value := BitVec 16

/-- A time: an unsigned `TIME_W`-bit number with `TIME_W` = 32 (R9, R11, D2; log 11). -/
abbrev Time := BitVec 32

/-- `elapsed(now, then) = (now - then) mod 2^TIME_W` (R11). -/
def elapsed (now since : Time) : Time := now - since

end Sys2Proof
end

