-- ==== Sys2Proof/Config.lean ====
section
/-! DEFINITION. The parameters and configuration registers of 00_scope.md R9 and 10_state.md R29, their
defaults, and the one free value of the model. -/

namespace Sys2Proof

/-- `CRC_INIT`: "`0xFFFF`, fixed" (R9, R64). -/
def Config.crcInit : Value := 0xFFFF

/-- `RESEND_ALL_CMD`: `0xFEED`, "fixed, not in the configure list" (R9, R29). -/
def Config.resendAllCmd : Value := 0xFEED

/-- `MIN_PKT` = 5: header, address, terminator, two checksum bytes (R9, R47). -/
def Config.minPkt : Nat := 5

/-- The default capacity of each slot table (R9, R154). -/
def Config.defaultCapacity : Nat := 20

/-- The byte of a buffer at an offset at or beyond its length: "unspecified, no rule reads them" (R23, R26, U5).
A free value: nothing fixes it. No state that meets the invariant of R31 reads it (log 8). -/
opaque Config.unspecifiedByte (offset : Nat) : Byte

/-- The CRC table's rows 0 to 7 of the candidate of R67 (log 10). -/
def Config.candidateRows0 : List Value :=
  [0x0000, 0x8005, 0x800F, 0x000A, 0x801B, 0x001E, 0x0014, 0x8011] ++
  [0x8033, 0x0036, 0x003C, 0x8039, 0x0028, 0x802D, 0x8027, 0x0022] ++
  [0x8063, 0x0066, 0x006C, 0x8069, 0x0078, 0x807D, 0x8077, 0x0072] ++
  [0x0050, 0x8055, 0x805F, 0x005A, 0x804B, 0x004E, 0x0044, 0x8041] ++
  [0x80C3, 0x00C6, 0x00CC, 0x80C9, 0x00D8, 0x80DD, 0x80D7, 0x00D2] ++
  [0x00F0, 0x80F5, 0x80FF, 0x00FA, 0x80EB, 0x00EE, 0x00E4, 0x80E1] ++
  [0x00A0, 0x80A5, 0x80AF, 0x00AA, 0x80BB, 0x00BE, 0x00B4, 0x80B1] ++
  [0x8093, 0x0096, 0x009C, 0x8099, 0x0088, 0x808D, 0x8087, 0x0082]

/-- Rows 8 to 15 of the candidate. -/
def Config.candidateRows1 : List Value :=
  [0x8183, 0x0186, 0x018C, 0x8189, 0x0198, 0x819D, 0x8197, 0x0192] ++
  [0x01B0, 0x81B5, 0x81BF, 0x01BA, 0x81AB, 0x01AE, 0x01A4, 0x81A1] ++
  [0x01E0, 0x81E5, 0x81EF, 0x01EA, 0x81FB, 0x01FE, 0x01F4, 0x81F1] ++
  [0x81D3, 0x01D6, 0x01DC, 0x81D9, 0x01C8, 0x81CD, 0x81C7, 0x01C2] ++
  [0x0140, 0x8145, 0x814F, 0x014A, 0x815B, 0x015E, 0x0154, 0x8151] ++
  [0x8173, 0x0176, 0x017C, 0x8179, 0x0168, 0x816D, 0x8167, 0x0162] ++
  [0x8123, 0x0126, 0x012C, 0x8129, 0x0138, 0x813D, 0x8137, 0x0132] ++
  [0x0110, 0x8115, 0x811F, 0x011A, 0x810B, 0x010E, 0x0104, 0x8101]

/-- Rows 16 to 23 of the candidate. -/
def Config.candidateRows2 : List Value :=
  [0x8303, 0x0306, 0x030C, 0x8309, 0x0318, 0x831D, 0x8317, 0x0312] ++
  [0x0330, 0x8335, 0x833F, 0x033A, 0x832B, 0x032E, 0x0324, 0x8321] ++
  [0x0360, 0x8365, 0x836F, 0x036A, 0x837B, 0x037E, 0x0374, 0x8371] ++
  [0x8353, 0x0356, 0x035C, 0x8359, 0x0348, 0x834D, 0x8347, 0x0342] ++
  [0x03C0, 0x83C5, 0x83CF, 0x03CA, 0x83DB, 0x03DE, 0x03D4, 0x83D1] ++
  [0x83F3, 0x03F6, 0x03FC, 0x83F9, 0x03E8, 0x83ED, 0x83E7, 0x03E2] ++
  [0x83A3, 0x03A6, 0x03AC, 0x83A9, 0x03B8, 0x83BD, 0x83B7, 0x03B2] ++
  [0x0390, 0x8395, 0x839F, 0x039A, 0x838B, 0x038E, 0x0384, 0x8381]

/-- Rows 24 to 31 of the candidate. -/
def Config.candidateRows3 : List Value :=
  [0x0280, 0x8285, 0x828F, 0x028A, 0x829B, 0x029E, 0x0294, 0x8291] ++
  [0x82B3, 0x02B6, 0x02BC, 0x82B9, 0x02A8, 0x82AD, 0x82A7, 0x02A2] ++
  [0x82E3, 0x02E6, 0x02EC, 0x82E9, 0x02F8, 0x82FD, 0x82F7, 0x02F2] ++
  [0x02D0, 0x82D5, 0x82DF, 0x02DA, 0x82CB, 0x02CE, 0x02C4, 0x82C1] ++
  [0x8243, 0x0246, 0x024C, 0x8249, 0x0258, 0x825D, 0x8257, 0x0252] ++
  [0x0270, 0x8275, 0x827F, 0x027A, 0x826B, 0x026E, 0x0264, 0x8261] ++
  [0x0220, 0x8225, 0x822F, 0x022A, 0x823B, 0x023E, 0x0234, 0x8231] ++
  [0x8213, 0x0216, 0x021C, 0x8219, 0x0208, 0x820D, 0x8207, 0x0202]

theorem Config.candidateRows0_length : Config.candidateRows0.length = 64 := rfl

theorem Config.candidateRows1_length : Config.candidateRows1.length = 64 := rfl

theorem Config.candidateRows2_length : Config.candidateRows2.length = 64 := rfl

theorem Config.candidateRows3_length : Config.candidateRows3.length = 64 := rfl

/-- The candidate `CRC_TABLE` of R67. PRESUMED: the spec takes it from general knowledge and leaves the table
OPEN (D4, U14); it is only the value `State.reset` holds, and no statement rests on it (log 10). -/
def Config.candidateTable : Vector Value 256 :=
  ⟨⟨Config.candidateRows0 ++ Config.candidateRows1 ++ Config.candidateRows2 ++ Config.candidateRows3⟩, by
    rw [List.size_toArray, List.length_append, List.length_append, List.length_append, Config.candidateRows0_length,
      Config.candidateRows1_length, Config.candidateRows2_length, Config.candidateRows3_length]⟩

/-- The link configuration: the registers of R29, less `CAP_TX` and `CAP_RX`, which are the lengths of the slot
tables (log 24), and the two fixed constants `Config.crcInit` and `Config.resendAllCmd`. -/
structure LinkConfig where
  /-- `HEADER`, written by CONFIGURE. -/
  header : Byte
  /-- `TERMINATOR`, written by CONFIGURE. -/
  terminator : Byte
  /-- `ACK_CHAR`, written by CONFIGURE. -/
  ackChar : Byte
  /-- `HEARTBEAT`, written by CONFIGURE. -/
  heartbeat : Time
  /-- `ACK_TIMEOUT`, written by CONFIGURE. -/
  ackTimeout : Time
  /-- `PACKET_TIMEOUT`, written by CONFIGURE. -/
  packetTimeout : Time
  /-- `RETRANSMIT`, written by CONFIGURE and RESET. -/
  retransmit : Bool
  /-- `PEER_ADDR`, written by RESET only. -/
  peerAddr : Byte
  /-- `LOCAL_ADDR`, written by RESET only. -/
  localAddr : Byte
  /-- `TX_BUF_CAP`, hardwired: no operation changes it (log 15). -/
  txBufCap : Nat
  /-- `RX_BUF_CAP`, hardwired (log 15). -/
  rxBufCap : Nat
  /-- `CRC_TABLE`, hardwired: 256 entries of 16 bits, any values (R67, U14). -/
  crcTable : Vector Value 256
  /-- `PUBLISH_MARKS_UNCHANGED`, an implementation parameter (R9, R123; log 15). -/
  publishMarksUnchanged : Bool
  deriving DecidableEq, Repr

/-- The defaults of R9 and R155; the OPEN parameters have the values of log 9 and log 10. -/
def LinkConfig.default : LinkConfig where
  header := 0x3C
  terminator := 0x3E
  ackChar := 0x06
  heartbeat := 500
  ackTimeout := 100
  packetTimeout := 100
  retransmit := false
  peerAddr := 0x00
  localAddr := 0x00
  txBufCap := 128
  rxBufCap := 128
  crcTable := Config.candidateTable
  publishMarksUnchanged := false

/-- `MAX_ENTRIES = floor((TX_BUF_CAP - 5) / 3)` (R9). -/
def LinkConfig.maxEntries (c : LinkConfig) : Nat := (c.txBufCap - 5) / 3

end Sys2Proof
end

