-- ==== Sys2Proof/Syntax.lean ====
section
/-! DEFINITION. The instructions: one constructor for each of the 13 rows of spec/opcode_table.json, and the
frames in which they are presented to the machine. -/

namespace Sys2Proof

/-- An entry: one `(index, value)` pair, three bytes on the wire (R15, R45). -/
structure Entry where
  index : Byte
  value : Value
  deriving DecidableEq, Repr

/-- The three status flags TAKE names; there is no fourth (R28, R59, U7). -/
inductive StatusFlag where
  | transmissionError
  | readError
  | newDataAvailable
  deriving DecidableEq, Repr

/-- The instructions. WIRE rows: a message that arrives at the block. HOST rows: an operation the host issues.
FUNC rows: an internal function, called directly. -/
inductive Instr where
  /-- DATA (R45): the packet after its header byte: the address byte and everything up to the packet's end (log 19). -/
  | data (addr : Byte) (body : List Byte)
  /-- ACK (R48, R116): the one byte `ACK_CHAR`. -/
  | ack
  /-- RESEND_ALL (R49, R118): the two bytes `CMD_HI`, `CMD_LO`. -/
  | resendAll
  /-- PUBLISH (R123), operation 0. -/
  | publish (index : Byte) (value : Value)
  /-- SERVICE (R80), operation 1. -/
  | service (now : Time)
  /-- POLL (R95), operation 2. -/
  | poll (now : Time)
  /-- READ (R125), operation 3. -/
  | read (index : Byte)
  /-- TAKE (R127), operation 4. -/
  | take (flag : StatusFlag) (clear : Bool)
  /-- CONFIGURE (R129), operation 5. -/
  | configure (header terminator ackChar : Byte) (heartbeat ackTimeout packetTimeout : Time) (retransmit : Bool)
  /-- RESET (R154), operation 6. -/
  | reset (peer localA : Byte) (capTx capRx : Nat) (retransmit : Bool)
  /-- CRC16 (R64). -/
  | crc16 (bytes : List Byte)
  /-- ENCODE (R71). -/
  | encode (addr : Byte) (entries : List Entry)
  /-- DECODE (R74). -/
  | decode (bytes : List Byte)
  deriving DecidableEq, Repr

/-- The internal functions, which have a name and no number (R60). -/
inductive FuncUnit where
  | crc16
  | encode
  | decode
  deriving DecidableEq, Repr

/-- An encoded instruction as it is presented to the machine, by the row's format. -/
inductive Frame where
  /-- Bytes arriving from the transport; an instruction is a message at their front (R45, R48, R49). -/
  | wire (bytes : List Byte)
  /-- One host operation: its number, then its operands (R59; the byte layout is log 2). -/
  | host (bytes : List Byte)
  /-- A direct call of an internal function with its argument bytes (R60; log 3). -/
  | func (unit : FuncUnit) (bytes : List Byte)
  deriving DecidableEq, Repr

/-- What may be pending for the machine: a frame, or a move of the transport agent (R7 b). -/
inductive Input where
  /-- An instruction to fetch. -/
  | frame (f : Frame)
  /-- The transport appends bytes to `rxq` (R7 b; the script line `RX`, R61). -/
  | arrive (bytes : List Byte)
  /-- The transport takes bytes from the front of `wire` (R7 b). -/
  | depart (count : Nat)
  deriving DecidableEq, Repr

end Sys2Proof
end

