-- ==== Sys2Proof/Machine/Bytes.lean ====
section
/-! DEFINITION. Byte order, byte assembly and the positional end-of-packet test, shared by the decoder, the
codec and the receive machine. -/

namespace Sys2Proof.Machine

/-- `v[15:8]` (R13, R50). -/
def hiByte (v : Value) : Byte := v.extractLsb' 8 8

/-- `v[7:0]` (R13, R50). -/
def loByte (v : Value) : Byte := v.extractLsb' 0 8

/-- `{h, l} = h * 256 + l` (R13, R50). -/
def joinBytes (h l : Byte) : Value := h ++ l

/-- A 16-bit quantity on the wire, high byte first (R35). -/
def valueBytes (v : Value) : List Byte := [hiByte v, loByte v]

/-- The four bytes of a time, most significant first: the host port's layout (log 2). -/
def timeBytes (t : Time) : List Byte :=
  [t.extractLsb' 24 8, t.extractLsb' 16 8, t.extractLsb' 8 8, t.extractLsb' 0 8]

/-- The time that four bytes, most significant first, stand for (log 2). -/
def joinTime (b3 b2 b1 b0 : Byte) : Time := b3 ++ b2 ++ b1 ++ b0

/-- `CMD_HI = RESEND_ALL_CMD[15:8]` (R9). -/
def cmdHi : Byte := hiByte Config.resendAllCmd

/-- `CMD_LO = RESEND_ALL_CMD[7:0]` (R9). -/
def cmdLo : Byte := loByte Config.resendAllCmd

/-- The three wire bytes of an entry: INDEX, VALUE_HIGH, VALUE_LOW (R45). -/
def entryBytes (e : Entry) : List Byte := e.index :: valueBytes e.value

/-- The payload bytes of a list of entries, in order (R45, R71). -/
def payloadBytes (es : List Entry) : List Byte := es.flatMap entryBytes

/-- Whole entries of a payload, three bytes each; one or two bytes left over are ignored (R77, U11). -/
def entriesOf : List Byte → List Entry
  | i :: h :: l :: rest => ⟨i, joinBytes h l⟩ :: entriesOf rest
  | _ => []

/-- `buf[len - 3]`, the byte before the last two (R102). With fewer than three bytes there is no such byte and the
value is free (log 8); no state of R31 asks for it. -/
def threeBack (buf : List Byte) : Byte :=
  match buf.reverse with
  | _ :: _ :: t :: _ => t
  | _ => Config.unspecifiedByte buf.length

/-- The completion test of R102, made on the buffer after an append. -/
def completes (c : LinkConfig) (buf : List Byte) : Bool := threeBack buf = c.terminator

/-- Whether the byte just appended is the packet's last one: it completes the packet or fills the buffer (R101 to R103). -/
def endsPacket (c : LinkConfig) (buf : List Byte) : Bool := completes c buf || buf.length = c.rxBufCap

/-- The bytes the receive machine takes into a packet of which it holds `buf`, and the bytes after the packet's end;
none if the bytes run out first (R54, R101). -/
def takeBody (c : LinkConfig) (buf : List Byte) : List Byte → Option (List Byte × List Byte)
  | [] => none
  | b :: rest =>
    if endsPacket c (buf ++ [b]) then some ([b], rest)
    else (takeBody c (buf ++ [b]) rest).map fun r => (b :: r.1, r.2)

end Sys2Proof.Machine
end

