-- ==== Sys2Proof/Machine/Crc.lean ====
section
/-! DEFINITION. The CRC16 engine (40_crc16.md). -/

namespace Sys2Proof.Machine

/-- One byte through the engine: `crc_step(reg, b) = ((reg << 8) mod 2^16) XOR CRC_TABLE[reg[15:8] XOR b]` (R65). -/
def crcStep (table : Vector Value 256) (reg : Value) (b : Byte) : Value :=
  (reg <<< 8) ^^^ table[(hiByte reg ^^^ b).toNat]

/-- `CRC16(bytes)`: the fold of `crcStep` from `CRC_INIT` (R64, R65). No state, no flag, no fault (R70). -/
def crc16 (table : Vector Value 256) (bytes : List Byte) : Value :=
  bytes.foldl (crcStep table) Config.crcInit

end Sys2Proof.Machine
end

