-- ==== Sys2Proof/WellFormed.lean ====
section
/-! DEFINITION. Which instructions are well formed, and which configurations are (00_scope.md R12). -/

namespace Sys2Proof

open Machine

/-- A legal capacity: 1 to 256 (R9, R29). -/
def capacityOk (n : Nat) : Bool := 1 ≤ n && n ≤ 256

/-- A DATA message is as long as the smallest packet (R47) and ends exactly where the receive machine ends it (R54). -/
def dataOk (c : LinkConfig) (addr : Byte) (body : List Byte) : Bool :=
  decide (Config.minPkt ≤ body.length + 2) && decide (takeBody c [c.header, addr] body = some (body, []))

/-- Well-formedness of an instruction under a configuration. The types already bound the other operands: an index is
a byte, a flag is one of three (R59, U7), an interval has `TIME_W` bits. -/
def Instr.wf (c : LinkConfig) : Instr → Bool
  | .data addr body => dataOk c addr body
  | .ack => true
  | .resendAll => true
  | .publish _ _ => true
  | .service _ => true
  | .poll _ => true
  | .read _ => true
  | .take _ _ => true
  | .configure _ _ _ _ _ _ _ => true
  | .reset _ _ capTx capRx _ => capacityOk capTx && capacityOk capRx
  | .crc16 _ => true
  | .encode _ _ => true
  | .decode _ => true

/-- The part of R12 that keeps the three messages apart at their first byte. -/
abbrev FramingDistinct (c : LinkConfig) : Prop :=
  c.header ≠ c.terminator ∧ c.header ≠ c.ackChar ∧ c.terminator ≠ c.ackChar ∧
  cmdHi ≠ c.header ∧ cmdHi ≠ c.ackChar

/-- The part of R12 about addresses. -/
abbrev AddressesDistinct (c : LinkConfig) : Prop :=
  c.localAddr ≠ c.header ∧ c.localAddr ≠ c.terminator ∧ c.localAddr ≠ c.ackChar ∧
  c.peerAddr ≠ c.header ∧ c.peerAddr ≠ c.terminator ∧ c.peerAddr ≠ c.ackChar ∧
  cmdHi ≠ c.localAddr

/-- `ConfigOK` of R12, the whole conjunction. A predicate to check a configuration with: no operation checks it
(R129, D38, U1; log 14). -/
abbrev ConfigOK (c : LinkConfig) (capTx capRx : Nat) : Prop :=
  FramingDistinct c ∧ AddressesDistinct c ∧
  (1 ≤ capTx ∧ capTx ≤ 256) ∧ (1 ≤ capRx ∧ capRx ≤ 256) ∧ 8 ≤ c.txBufCap ∧ 5 ≤ c.rxBufCap

end Sys2Proof
end

