-- ==== Sys2Proof/Decode.lean ====
section
/-! DEFINITION. The decoder, total on any frame and rejecting by name, and after it the encoder. WIRE rows: 30_encoding.md
R45 to R54. HOST rows: R59, with the model's byte layout (log 2). FUNC rows: R60 (log 3). -/

namespace Sys2Proof

open Machine

/-- Why a frame is not an instruction. -/
inductive DecodeError where
  /-- No byte in the frame. -/
  | emptyFrame
  /-- The first byte starts none of the three messages (R55). -/
  | notAMessage (b : Byte)
  /-- A header with no end of packet in the bytes present (R54). -/
  | incompletePacket
  /-- A packet that ends before `MIN_PKT` bytes (R47, R75). -/
  | shortPacket
  /-- An operation number outside 0 to 6 (R59). -/
  | unknownOperation (op : Byte)
  /-- Operand bytes that are not those of the operation (R59). -/
  | badOperands (op : Byte)
  /-- A flag label outside 0 to 2: "not an operation" (R59, U7). -/
  | notAFlag (label : Byte)
  /-- A one-bit operand that is neither 0 nor 1. -/
  | notABit (b : Byte)
  /-- A capacity outside 1 to 256 (R29). -/
  | badCapacity (n : Nat)
  /-- Argument bytes of ENCODE that are not an address and whole entries (R71). -/
  | badArguments
  deriving DecidableEq, Repr

/-- The message at the front of bytes from the wire, and the bytes after it (R53): the ACK byte first, then the
command pair, then a packet by its header; the values compared are the configured registers (R63). -/
def decodeWire (c : LinkConfig) : List Byte → Except DecodeError (Instr × List Byte)
  | [] => .error .emptyFrame
  | b :: rest =>
    if b = c.ackChar then .ok (.ack, rest)
    else if b = cmdHi ∧ rest.head? = some cmdLo then .ok (.resendAll, rest.tail)
    else if b = c.header then
      match rest with
      | [] => .error .incompletePacket
      | addr :: bytes =>
        match takeBody c [c.header, addr] bytes with
        | none => .error .incompletePacket
        | some (body, after) =>
          if Config.minPkt ≤ body.length + 2 then .ok (.data addr body, after) else .error .shortPacket
    else .error (.notAMessage b)

/-- The three labels of TAKE's flag operand (R59). -/
def decodeFlag (b : Byte) : Except DecodeError StatusFlag :=
  if b = 0 then .ok .transmissionError
  else if b = 1 then .ok .readError
  else if b = 2 then .ok .newDataAvailable
  else .error (.notAFlag b)

/-- A one-bit operand in a byte of its own (log 2). -/
def decodeBit (b : Byte) : Except DecodeError Bool :=
  if b = 0 then .ok false else if b = 1 then .ok true else .error (.notABit b)

/-- A capacity operand, two bytes (log 2), legal from 1 to 256 (R29). -/
def decodeCapacity (h l : Byte) : Except DecodeError Nat :=
  let n := (joinBytes h l).toNat
  if capacityOk n then .ok n else .error (.badCapacity n)

/-- TAKE's operands. -/
def decodeTake (f k : Byte) : Except DecodeError Instr :=
  match decodeFlag f, decodeBit k with
  | .ok flag, .ok clear => .ok (.take flag clear)
  | .error e, _ => .error e
  | .ok _, .error e => .error e

/-- CONFIGURE's last operand decides whether its operands are legal. -/
def decodeConfigure (header terminator ackChar : Byte) (hb ackT pktT : Time) (r : Byte) : Except DecodeError Instr :=
  match decodeBit r with
  | .ok bit => .ok (.configure header terminator ackChar hb ackT pktT bit)
  | .error e => .error e

/-- RESET's operands. -/
def decodeReset (peer localA th tl rh rl r : Byte) : Except DecodeError Instr :=
  match decodeCapacity th tl, decodeCapacity rh rl, decodeBit r with
  | .ok capTx, .ok capRx, .ok bit => .ok (.reset peer localA capTx capRx bit)
  | .error e, _, _ => .error e
  | .ok _, .error e, _ => .error e
  | .ok _, .ok _, .error e => .error e

/-- A host operation: its number of R59 in the first byte, then its operands in R59's order (log 2). -/
def decodeHost : List Byte → Except DecodeError Instr
  | [] => .error .emptyFrame
  | op :: args =>
    match op.toNat, args with
    | 0, [i, h, l] => .ok (.publish i (joinBytes h l))
    | 1, [a, b, c, d] => .ok (.service (joinTime a b c d))
    | 2, [a, b, c, d] => .ok (.poll (joinTime a b c d))
    | 3, [i] => .ok (.read i)
    | 4, [f, k] => decodeTake f k
    | 5, [h, t, a, h3, h2, h1, h0, a3, a2, a1, a0, p3, p2, p1, p0, r] =>
        decodeConfigure h t a (joinTime h3 h2 h1 h0) (joinTime a3 a2 a1 a0) (joinTime p3 p2 p1 p0) r
    | 6, [p, q, th, tl, rh, rl, r] => decodeReset p q th tl rh rl r
    | n, _ => if n ≤ 6 then .error (.badOperands op) else .error (.unknownOperation op)

/-- A direct call of an internal function (log 3). -/
def decodeFunc (unit : FuncUnit) (bytes : List Byte) : Except DecodeError Instr :=
  match unit with
  | .crc16 => .ok (.crc16 bytes)
  | .decode => .ok (.decode bytes)
  | .encode =>
    match bytes with
    | [] => .error .badArguments
    | addr :: payload =>
      if payload.length % 3 = 0 then .ok (.encode addr (entriesOf payload)) else .error .badArguments

/-- The instruction a frame holds, and the bytes of the frame after it (always none but for WIRE frames). -/
def decode (c : LinkConfig) : Frame → Except DecodeError (Instr × List Byte)
  | .wire bytes => decodeWire c bytes
  | .host bytes => (decodeHost bytes).map fun i => (i, [])
  | .func unit bytes => (decodeFunc unit bytes).map fun i => (i, [])

/-- The label of a flag (R59). -/
def flagLabel : StatusFlag → Byte
  | .transmissionError => 0
  | .readError => 1
  | .newDataAvailable => 2

/-- A one-bit operand as a byte (log 2). -/
def bitByte (b : Bool) : Byte := if b then 1 else 0

/-- A capacity operand as two bytes, high first (log 2). -/
def capacityBytes (n : Nat) : List Byte := valueBytes (BitVec.ofNat 16 n)

/-- The encoder: the frame of an instruction, from the encodings of R45, R48, R49, R59 and R60. -/
def encode (c : LinkConfig) : Instr → Frame
  | .data addr body => .wire (c.header :: addr :: body)
  | .ack => .wire [c.ackChar]
  | .resendAll => .wire [cmdHi, cmdLo]
  | .publish index value => .host (0 :: index :: valueBytes value)
  | .service now => .host (1 :: timeBytes now)
  | .poll now => .host (2 :: timeBytes now)
  | .read index => .host [3, index]
  | .take flag clear => .host [4, flagLabel flag, bitByte clear]
  | .configure header terminator ackChar hb ackT pktT r =>
      .host ([5, header, terminator, ackChar] ++ timeBytes hb ++ timeBytes ackT ++ timeBytes pktT ++ [bitByte r])
  | .reset peer localA capTx capRx r =>
      .host ([6, peer, localA] ++ capacityBytes capTx ++ capacityBytes capRx ++ [bitByte r])
  | .crc16 bytes => .func .crc16 bytes
  | .encode addr entries => .func .encode (addr :: payloadBytes entries)
  | .decode bytes => .func .decode bytes

/-- The bytes of a word of `nbits` bits as the opcode table reads a message: one big-endian number (R63), byte 0 the
most significant. -/
def wordBytes (nbits w : Nat) : List Byte :=
  let n := nbits / 8
  (List.range n).map fun k => BitVec.ofNat 8 (w / 256 ^ (n - 1 - k))

/-- The bytes of a table word as they stand on the wire, filled with zero bytes up to the longest message: a packet
of `RX_BUF_CAP` bytes (R47). -/
def tableBytes (rxBufCap nbits w : Nat) : List Byte :=
  let bytes := wordBytes nbits w
  bytes ++ List.replicate (rxBufCap - bytes.length) 0

/-- The instruction the decoder reads from a table word, at the default configuration: the match values of the table
"are defaults, not constants of the hardware" (R63). Only WIRE rows have words. -/
def decodeTableWord (nbits w : Nat) : Option Instr :=
  match decode LinkConfig.default (.wire (tableBytes LinkConfig.default.rxBufCap nbits w)) with
  | .ok (i, _) => some i
  | .error _ => none

end Sys2Proof
end

