-- ==== Sys2Proof/Machine/State.lean ====
section
/-! DEFINITION. The state of the machine (10_state.md R16 to R33), why it can refuse, and the state after reset
(70_reset_and_hazards.md R155). -/

namespace Sys2Proof.Machine

/-- One transmit slot (R17). -/
structure TxSlot where
  /-- `TXV[i]`. -/
  value : Value
  /-- `TXD[i]`. -/
  dirty : Bool
  /-- `TXT[i]`. -/
  lastSend : Time
  deriving DecidableEq, Repr

/-- A slot after reset: value 0, not dirty, time 0 (R155). -/
def TxSlot.zero : TxSlot := ⟨0, false, 0⟩

/-- `tx_state` (R21). -/
inductive TxState where
  | idle
  | building
  | sending
  | awaitingAck
  deriving DecidableEq, Repr

/-- `rx_state` (R24). -/
inductive RxState where
  | seekingHeader
  | seekingAddress
  | accumulating
  deriving DecidableEq, Repr

/-- The fault kinds of R132 and R133. They never stop the machine: each is an action of the block. -/
inductive FaultKind where
  | checksumMismatch
  | unknownIndex
  | bufferOverflow
  | stalePartialPacket
  | acknowledgmentTimeout
  | tooShort
  deriving DecidableEq, Repr

/-- The events of R152. -/
inductive Event where
  | built (entries : List Entry)
  | fault (kind : FaultKind)
  | applied (entries : List Entry)
  | ackSent
  | ackReceived
  | resendAllSent
  | resendAllReceived
  | rejected
  deriving DecidableEq, Repr

/-- The results of DECODE (R74). -/
inductive DecodeResult where
  | tooShort
  | checksumMismatch
  | ok (entries : List Entry)
  deriving DecidableEq, Repr

/-- What the last operation returned (R59; log 6). -/
inductive Result where
  /-- Nothing but the event list. -/
  | nothing
  /-- READ: the value with `ok = 1`, or no value with `ok = 0` (R126, U3; log 16). -/
  | read (value : Option Value)
  /-- TAKE: the flag before the clear (R127). -/
  | bit (b : Bool)
  /-- CRC16 (R64). -/
  | checksum (c : Value)
  /-- ENCODE (R71). -/
  | packet (bytes : List Byte)
  /-- DECODE (R74). -/
  | decoded (r : DecodeResult)
  deriving DecidableEq, Repr

/-- Why the machine stops with a fault: never. "There is no fatal error" (R132): every fault of the block is an action
with a next state, so this type has no constructor (log 25). -/
inductive Fault where
  deriving DecidableEq, Repr

/-- Why the machine refuses. -/
inductive Refusal where
  /-- Raised by an arm of `exec` whose instruction has no meaning yet (none is left). Safe. -/
  | notModelled (mnemonic : String)
  /-- Raised by `step` for a pending host or function frame that is no operation: for instance TAKE with flag 3 (R59,
  U7). Safe: the spec gives such a frame no effect. -/
  | notAnOperation (e : DecodeError)
  deriving DecidableEq, Repr

/-- The state of one endpoint. -/
structure State where
  /-- The transmit slot table; `CAP_TX` is its length (R17; log 24). -/
  txTable : List TxSlot
  /-- The receive slot table; `CAP_RX` is its length (R19; log 24). -/
  rxTable : List Value
  /-- `tx_state` (R21). -/
  txState : TxState
  /-- `txbuf`, the `tx_len` valid bytes (R22, R23, U5; log 7). -/
  txbuf : List Byte
  /-- `tx_pos` (R22). -/
  txPos : Nat
  /-- `tx_start_time` (R22). -/
  txStartTime : Time
  /-- `rx_state` (R24). -/
  rxState : RxState
  /-- `rxbuf`, the `rx_len` valid bytes (R25, R26, U5; log 7). -/
  rxbuf : List Byte
  /-- `rx_hdr_time` (R25). -/
  rxHdrTime : Time
  /-- `transmissionError` (R28). -/
  transmissionError : Bool
  /-- `readError` (R28). -/
  readError : Bool
  /-- `newDataAvailable` (R28). -/
  newDataAvailable : Bool
  /-- The configuration lock (R30). -/
  started : Bool
  /-- The configuration registers (R29). -/
  cfg : LinkConfig
  /-- Bytes arrived and not yet read, oldest first (R27). -/
  rxq : List Byte
  /-- Bytes written and not yet taken by the transport, oldest first (R27, R7 b). -/
  wire : List Byte
  /-- The model's own: the `now` last passed to SERVICE or POLL (log 5). -/
  clock : Time
  /-- The model's own: the event list of the last operation (R152; log 6). -/
  events : List Event
  /-- The model's own: what the last operation returned (log 6). -/
  result : Result
  /-- The model's own: the inputs still to come, first one first (log 1). -/
  agenda : List Input
  deriving DecidableEq, Repr

/-- `CAP_TX` (R9, R17). -/
def State.capTx (s : State) : Nat := s.txTable.length

/-- `CAP_RX` (R9, R19). -/
def State.capRx (s : State) : Nat := s.rxTable.length

/-- `tx_len` (R22). -/
def State.txLen (s : State) : Nat := s.txbuf.length

/-- `rx_len` (R25). -/
def State.rxLen (s : State) : Nat := s.rxbuf.length

/-- The machine right after reset (R155), at the default capacities; the OPEN parameters of the configuration have the
values of log 9 and log 10, the transport is empty (log 23), and no input is pending (log 1). -/
def State.reset : State where
  txTable := List.replicate Config.defaultCapacity TxSlot.zero
  rxTable := List.replicate Config.defaultCapacity 0
  txState := .idle
  txbuf := []
  txPos := 0
  txStartTime := 0
  rxState := .seekingHeader
  rxbuf := []
  rxHdrTime := 0
  transmissionError := false
  readError := false
  newDataAvailable := false
  started := false
  cfg := LinkConfig.default
  rxq := []
  wire := []
  clock := 0
  events := []
  result := .nothing
  agenda := []

end Sys2Proof.Machine
end

