-- ==== Sys2Proof/Machine/Codec.lean ====
section
/-! DEFINITION. The packet codec: ENCODE and DECODE (41_codec.md). Both are pure functions of their arguments and the
configuration. -/

namespace Sys2Proof.Machine

/-- The bytes the checksum of a packet covers: header, address, payload, terminator (R51, R71). -/
def packetBody (c : LinkConfig) (addr : Byte) (entries : List Entry) : List Byte :=
  c.header :: addr :: (payloadBytes entries ++ [c.terminator])

/-- `ENCODE(addr, entries)` (R71). On the empty list, which no rule of the block reaches, it is the 5-byte packet (R72;
log 18). -/
def encodePacket (c : LinkConfig) (addr : Byte) (entries : List Entry) : List Byte :=
  packetBody c addr entries ++ valueBytes (crc16 c.crcTable (packetBody c addr entries))

/-- The checksum two trailing bytes stand for, against the checksum of what precedes them (R76). -/
def checksumMatches (c : LinkConfig) (bytes : List Byte) : Bool :=
  bytes.drop (bytes.length - 2) = valueBytes (crc16 c.crcTable (bytes.take (bytes.length - 2)))

/-- The payload of a received packet: from just after the address byte up to the terminator (R54, R77). -/
def payloadOf (bytes : List Byte) : List Byte := (bytes.drop 2).take (bytes.length - 5)

/-- `DECODE(bytes)` (R74): length check, checksum check, payload walk, stopping at the first that fails. -/
def decodePacket (c : LinkConfig) (bytes : List Byte) : DecodeResult :=
  if bytes.length < Config.minPkt then .tooShort
  else if checksumMatches c bytes then .ok (entriesOf (payloadOf bytes))
  else .checksumMismatch

end Sys2Proof.Machine
end

