-- ==== Sys2Proof/Machine/Flags.lean ====
section
/-! DEFINITION. The three latched status flags (10_state.md R28): reading and writing one by its name. Who sets one:
the fault actions of Machine/Ops.lean and `success` of Machine/Receive.lean; who clears one: TAKE and RESET only. -/

namespace Sys2Proof.Machine

/-- The flag register a TAKE names (R127). -/
def readFlag (f : StatusFlag) (s : State) : Bool :=
  match f with
  | .transmissionError => s.transmissionError
  | .readError => s.readError
  | .newDataAvailable => s.newDataAvailable

/-- Writes one flag register and no other (R127). -/
def writeFlag (f : StatusFlag) (b : Bool) (s : State) : State :=
  match f with
  | .transmissionError => { s with transmissionError := b }
  | .readError => { s with readError := b }
  | .newDataAvailable => { s with newDataAvailable := b }

end Sys2Proof.Machine
end

