-- ==== Sys2Proof/Machine/Ops.lean ====
section
/-! DEFINITION. The named operations the meanings share: the pseudocode primitives of 00_scope.md R14, and the fault
actions of 60_exceptions.md. -/

namespace Sys2Proof.Machine

/-- `emit E` (R14, R152). -/
def emit (e : Event) (s : State) : State := { s with events := s.events ++ [e] }

/-- `wire_write(b)`: appends to `wire`, always accepted (R14, R149; log 13). -/
def wireWrite (b : Byte) (s : State) : State := { s with wire := s.wire ++ [b] }

/-- `rx_avail()` (R14, R149). -/
def rxAvail (s : State) : Nat := s.rxq.length

/-- `rx_peek(k)`, defined only for `k < rx_avail()` (R14). -/
def rxPeek (k : Nat) (s : State) : Option Byte := s.rxq[k]?

/-- `rx_pop()`: removes the oldest byte (R14). -/
def rxPop (s : State) : State := { s with rxq := s.rxq.tail }

/-- Bytes arrive: the transport appends them to `rxq` (R7 b, R27). -/
def rxArrive (bytes : List Byte) (s : State) : State := { s with rxq := s.rxq ++ bytes }

/-- The transport takes bytes from the front of `wire` (R7 b). -/
def wireDepart (count : Nat) (s : State) : State := { s with wire := s.wire.drop count }

/-- A new operation starts with an empty event list and nothing returned (R152; log 6). -/
def clearOutputs (s : State) : State := { s with events := [], result := .nothing }

/-- `started <- 1`, the first line of PUBLISH, SERVICE, POLL, READ and TAKE (R30). -/
def beginOp (s : State) : State := { clearOutputs s with started := true }

/-- What the operation returns (log 6). -/
def answer (r : Result) (s : State) : State := { s with result := r }

/-- The `now` input of SERVICE and POLL is the host's clock at that call (R11; log 5). -/
def sampleClock (now : Time) (s : State) : State := { s with clock := now }

/-- `rx_len <- 0; rx_state <- SeekingHeader` (R104, R135). -/
def dropPartial (s : State) : State := { s with rxbuf := [], rxState := .seekingHeader }

/-- RESEND_ALL emission (R117): both bytes adjacent on `wire`, high byte first. -/
def sendResendAll (s : State) : State := emit .resendAllSent (wireWrite cmdLo (wireWrite cmdHi s))

/-- The common action of the five receive faults (R135). -/
def receiveFault (k : FaultKind) (s : State) : State :=
  sendResendAll (emit (.fault k) (dropPartial { s with readError := true }))

/-- The action of AcknowledgmentTimeout (R90 to R92). -/
def acknowledgmentTimeout (s : State) : State :=
  let t := emit (.fault .acknowledgmentTimeout) { s with transmissionError := true }
  if s.cfg.retransmit then { t with txPos := 0, txState := .sending } else { t with txState := .idle }

/-- `raise <Fault>` (R14, R133): the one operation that takes a fault. It saves nothing and transfers control nowhere
(R144), and there is no return from it (R145): the host clears the flag with TAKE. -/
def raise (k : FaultKind) (s : State) : State :=
  match k with
  | .checksumMismatch => receiveFault .checksumMismatch s
  | .unknownIndex => receiveFault .unknownIndex s
  | .bufferOverflow => receiveFault .bufferOverflow s
  | .stalePartialPacket => receiveFault .stalePartialPacket s
  | .tooShort => receiveFault .tooShort s
  | .acknowledgmentTimeout => acknowledgmentTimeout s

/-- The trace label of a fault kind; stored nowhere in the block (R133). -/
def faultCode (k : FaultKind) : Nat :=
  match k with
  | .checksumMismatch => 1
  | .unknownIndex => 2
  | .bufferOverflow => 3
  | .stalePartialPacket => 4
  | .acknowledgmentTimeout => 5
  | .tooShort => 6

end Sys2Proof.Machine
end

