-- ==== Sys2Proof/Machine/Func.lean ====
section
/-! DEFINITION. The meanings of the FUNC rows, called directly: each returns its value and changes nothing of the block
(R64, R70, R71, R74; log 3). -/

namespace Sys2Proof.Machine

/-- CRC16 (R64). -/
def execCrc16 (bytes : List Byte) (s : State) : Host.Outcome State Fault Refusal :=
  .next (answer (.checksum (crc16 s.cfg.crcTable bytes)) (clearOutputs s))

/-- ENCODE (R71). -/
def execEncode (addr : Byte) (entries : List Entry) (s : State) : Host.Outcome State Fault Refusal :=
  .next (answer (.packet (encodePacket s.cfg addr entries)) (clearOutputs s))

/-- DECODE (R74). It raises nothing: its caller does (R74, R104). -/
def execDecode (bytes : List Byte) (s : State) : Host.Outcome State Fault Refusal :=
  .next (answer (.decoded (decodePacket s.cfg bytes)) (clearOutputs s))

end Sys2Proof.Machine
end

