-- ==== Sys2Proof/Machine/Receive.lean ====
section
/-! DEFINITION. The receive path: POLL (43_receive.md), and the events of the control channel it raises
(44_control_channel.md). -/

namespace Sys2Proof.Machine

/-- `ack_event()` (R116): AwaitingAck goes to Idle; in the other states the byte is consumed and nothing changes. -/
def ackEvent (s : State) : State :=
  let t := emit .ackReceived s
  match s.txState with
  | .awaitingAck => { t with txState := .idle }
  | .idle => t
  | .building => t
  | .sending => t

/-- `resend_all_event()` (R118): every `TXD[i] <- 1`. -/
def resendAllEvent (s : State) : State :=
  emit .resendAllReceived { s with txTable := s.txTable.map fun slot => { slot with dirty := true } }

/-- `success()` (R106), with ACK emission (R115). -/
def success (entries : List Entry) (s : State) : State :=
  emit .ackSent (emit (.applied entries) (wireWrite s.cfg.ackChar { s with newDataAvailable := true }))

/-- `apply(entries)` (R105): entry by entry in wire order, stopping at the first index out of range; `all` is the whole
list, which `success` reports. -/
def applyEntries (all : List Entry) : List Entry → State → State
  | [], s => success all s
  | e :: rest, s =>
    if e.index.toNat < s.capRx then
      applyEntries all rest { s with rxTable := s.rxTable.set e.index.toNat e.value }
    else raise .unknownIndex s

/-- What DECODE's result leads to (R104). -/
def finishPacket (r : DecodeResult) (s : State) : State :=
  match r with
  | .tooShort => raise .tooShort s
  | .checksumMismatch => raise .checksumMismatch s
  | .ok entries => applyEntries entries entries s

/-- `complete()` (R104): decode, act, and in every case back to SeekingHeader with an empty buffer. -/
def complete (s : State) : State := dropPartial (finishPacket (decodePacket s.cfg s.rxbuf) s)

/-- `rx_byte` in SeekingHeader (R99). -/
def seekHeader (b : Byte) (now : Time) (s : State) : State :=
  if b = s.cfg.header then { s with rxbuf := [b], rxHdrTime := now, rxState := .seekingAddress } else s

/-- `rx_byte` in SeekingAddress (R100). The buffer holds the header at offset 0; were it empty, that byte would be free
(log 8). -/
def seekAddress (b : Byte) (s : State) : State :=
  if b = s.cfg.localAddr then
    { s with rxbuf := [s.rxbuf.getD 0 (Config.unspecifiedByte 0), b], rxState := .accumulating }
  else dropPartial s

/-- `rx_byte` in Accumulating (R101): append, then completion before overflow (R102, R103). -/
def accumulate (b : Byte) (s : State) : State :=
  let t := { s with rxbuf := s.rxbuf ++ [b] }
  if completes s.cfg t.rxbuf then complete t
  else if t.rxLen = s.cfg.rxBufCap then raise .bufferOverflow t
  else t

/-- `rx_byte(b, now)` (R99 to R101). -/
def rxByte (b : Byte) (now : Time) (s : State) : State :=
  match s.rxState with
  | .seekingHeader => seekHeader b now s
  | .seekingAddress => seekAddress b s
  | .accumulating => accumulate b s

/-- Whether the classifier's tests run: in the two states that match a header or an address (R97). -/
def classifies (s : State) : Bool :=
  match s.rxState with
  | .seekingHeader => true
  | .seekingAddress => true
  | .accumulating => false

/-- Whether the next two available bytes are the command (R97, R98). -/
def commandAtHead (s : State) : Bool :=
  2 ≤ rxAvail s && rxPeek 0 s = some cmdHi && rxPeek 1 s = some cmdLo

/-- `classify_and_consume(now)` (R97); with no byte available nothing happens. -/
def classifyAndConsume (now : Time) (s : State) : State :=
  match rxPeek 0 s with
  | none => s
  | some b =>
    if classifies s && b = s.cfg.ackChar then ackEvent (rxPop s)
    else if classifies s && commandAtHead s then resendAllEvent (rxPop (rxPop s))
    else rxByte b now (rxPop s)

/-- The drain loop of R95, `fuel` turns at most; every turn consumes a byte, so as many turns as there are bytes are
enough. -/
def drain (now : Time) : Nat → State → State
  | 0, s => s
  | fuel + 1, s => if rxAvail s = 0 then s else drain now fuel (classifyAndConsume now s)

/-- Whether the packet being received is stale (R96, R147): not in SeekingHeader, and older than PACKET_TIMEOUT,
strictly. -/
def stale (now : Time) (s : State) : Bool :=
  s.rxState ≠ .seekingHeader && s.cfg.packetTimeout < elapsed now s.rxHdrTime

/-- `stale_check(now)` (R96). -/
def staleCheck (now : Time) (s : State) : State :=
  if stale now s then raise .stalePartialPacket s else s

/-- `POLL(now)` (R95). -/
def poll (now : Time) (s : State) : State :=
  let t := staleCheck now (sampleClock now (beginOp s))
  drain now (rxAvail t) t

end Sys2Proof.Machine
end

