-- ==== Sys2Proof/Machine/Transmit.lean ====
section
/-! DEFINITION. The transmit state machine: SERVICE (42_transmit.md). -/

namespace Sys2Proof.Machine

/-- A due slot: dirty, or older than HEARTBEAT, strictly (R81). -/
def slotDue (heartbeat now : Time) (slot : TxSlot) : Bool :=
  slot.dirty || heartbeat < elapsed now slot.lastSend

/-- A selected slot after Building: `TXD <- 0`, `TXT <- now` (R83). -/
def stampSlot (now : Time) (slot : TxSlot) : TxSlot := { slot with dirty := false, lastSend := now }

/-- The scan of R83 over the slots from index `i` on, with `room` entries still free in the packet (R82): the selected
entries in ascending index order, and the slots afterwards. -/
def scanSlots (heartbeat now : Time) : Nat → Nat → List TxSlot → List Entry × List TxSlot
  | _, _, [] => ([], [])
  | room, i, slot :: rest =>
    if slotDue heartbeat now slot && 0 < room then
      let r := scanSlots heartbeat now (room - 1) (i + 1) rest
      (⟨BitVec.ofNat 8 i, slot.value⟩ :: r.1, stampSlot now slot :: r.2)
    else
      let r := scanSlots heartbeat now room (i + 1) rest
      (r.1, slot :: r.2)

/-- The scan of the whole table, at most `MAX_ENTRIES` entries (R82, R83). -/
def selectSlots (now : Time) (s : State) : List Entry × List TxSlot :=
  scanSlots s.cfg.heartbeat now s.cfg.maxEntries 0 s.txTable

/-- Building (R83): the selected slots are cleared and stamped and the packet stands in `txbuf`; no byte is written (R84). -/
def buildPacket (sel : List Entry) (table : List TxSlot) (s : State) : State :=
  emit (.built sel)
    { s with
      txTable := table
      txbuf := encodePacket s.cfg s.cfg.peerAddr sel
      txPos := 0
      txState := .sending }

/-- `idle_tick(now)` (R83). -/
def idleTick (now : Time) (s : State) : State :=
  let r := selectSlots now s
  if r.1 = [] then s else buildPacket r.1 r.2 s

/-- The byte of `txbuf` at `tx_pos`; at or beyond `tx_len` it is free (R23; log 8). -/
def nextTxByte (s : State) : Byte := s.txbuf.getD s.txPos (Config.unspecifiedByte s.txPos)

/-- `sending_tick(now)` (R85): one byte; the first stamps `tx_start_time` (R86), the last goes to AwaitingAck (R87). -/
def sendingTick (now : Time) (s : State) : State :=
  let stamped := if s.txPos = 0 then { s with txStartTime := now } else s
  let sent := wireWrite (nextTxByte s) stamped
  let moved := { sent with txPos := s.txPos + 1 }
  if s.txPos + 1 = s.txLen then { moved with txState := .awaitingAck } else moved

/-- `awaiting_tick(now)` (R88): the deadline, strictly, from the packet's first byte. -/
def awaitingTick (now : Time) (s : State) : State :=
  if s.cfg.ackTimeout < elapsed now s.txStartTime then raise .acknowledgmentTimeout s else s

/-- One action chosen by `tx_state` (R80). Building never holds between operations (R21); there a SERVICE does nothing
more, as R94 says of every transition not listed (log 12). -/
def serviceAction (now : Time) (s : State) : State :=
  match s.txState with
  | .idle => idleTick now s
  | .building => s
  | .sending => sendingTick now s
  | .awaitingAck => awaitingTick now s

/-- `SERVICE(now)` (R80). -/
def service (now : Time) (s : State) : State := serviceAction now (sampleClock now (beginOp s))

end Sys2Proof.Machine
end

