-- ==== Sys2Proof/Machine/HostOps.lean ====
section
/-! DEFINITION. The meanings of the HOST rows: PUBLISH, SERVICE, POLL, READ, TAKE, CONFIGURE, RESET (45_host_ops.md,
42_transmit.md, 43_receive.md, 70_reset_and_hazards.md). -/

namespace Sys2Proof.Machine

/-- A transmit slot after PUBLISH writes it: the value, and the dirty flag set if the value changed or the parameter says
every write sets it; the time is not written (R123). -/
def publishSlot (marksUnchanged : Bool) (value : Value) (slot : TxSlot) : TxSlot :=
  { slot with value := value, dirty := slot.dirty || slot.value != value || marksUnchanged }

/-- PUBLISH (R123); an index out of range changes no table and emits Rejected (R124). -/
def execPublish (index : Byte) (value : Value) (s : State) : Host.Outcome State Fault Refusal :=
  let t := beginOp s
  match s.txTable[index.toNat]? with
  | some slot =>
    .next { t with txTable := s.txTable.set index.toNat (publishSlot s.cfg.publishMarksUnchanged value slot) }
  | none => .next (emit .rejected t)

/-- SERVICE (R80). -/
def execService (now : Time) (s : State) : Host.Outcome State Fault Refusal := .next (service now s)

/-- POLL (R95). -/
def execPoll (now : Time) (s : State) : Host.Outcome State Fault Refusal := .next (poll now s)

/-- READ (R125): the value of the slot, or `ok = 0` and no value when the index is out of range (R126; log 16). -/
def execRead (index : Byte) (s : State) : Host.Outcome State Fault Refusal :=
  .next (answer (.read s.rxTable[index.toNat]?) (beginOp s))

/-- TAKE (R127): the flag before the clear; with `clear` the flag becomes 0. -/
def execTake (flag : StatusFlag) (clear : Bool) (s : State) : Host.Outcome State Fault Refusal :=
  let t := answer (.bit (readFlag flag s)) (beginOp s)
  .next (if clear then writeFlag flag false t else t)

/-- CONFIGURE (R129): the seven registers, while `started = 0`; afterwards nothing changes and Rejected is emitted
(R130, U2). It does not set `started`. -/
def execConfigure (header terminator ackChar : Byte) (heartbeat ackTimeout packetTimeout : Time) (retransmit : Bool)
    (s : State) : Host.Outcome State Fault Refusal :=
  let t := clearOutputs s
  if s.started then .next (emit .rejected t)
  else
    .next { t with
      cfg := { s.cfg with
        header := header, terminator := terminator, ackChar := ackChar, heartbeat := heartbeat,
        ackTimeout := ackTimeout, packetTimeout := packetTimeout, retransmit := retransmit } }

/-- The configuration after RESET: the operands, the defaults, and the hardwired parameters as they are (R154, R155;
log 15). -/
def resetConfig (peer localA : Byte) (retransmit : Bool) (c : LinkConfig) : LinkConfig :=
  { LinkConfig.default with
    retransmit := retransmit, peerAddr := peer, localAddr := localA
    txBufCap := c.txBufCap, rxBufCap := c.rxBufCap, crcTable := c.crcTable
    publishMarksUnchanged := c.publishMarksUnchanged }

/-- RESET (R154): every state element as R155; the transport, the host's clock and the pending inputs are not the
block's and stay (R156, R148). A capacity outside 1 to 256 is no operand of RESET (log 17). -/
def execReset (peer localA : Byte) (capTx capRx : Nat) (retransmit : Bool) (s : State) :
    Host.Outcome State Fault Refusal :=
  .next { State.reset with
    txTable := List.replicate capTx TxSlot.zero
    rxTable := List.replicate capRx 0
    cfg := resetConfig peer localA retransmit s.cfg
    rxq := s.rxq
    wire := s.wire
    clock := s.clock
    agenda := s.agenda }

end Sys2Proof.Machine
end

