-- ==== Sys2Proof/Machine/Wire.lean ====
section
/-! DEFINITION. The meanings of the WIRE rows: DATA, ACK and RESEND_ALL. A message acts when it arrives at the block and
the host polls it (R7, R42, R97): its bytes are appended to `rxq` and a POLL at the host's clock drains the queue
(log 4). -/

namespace Sys2Proof.Machine

/-- Bytes arrive and are polled (log 4). -/
def receiveBytes (bytes : List Byte) (s : State) : State := poll s.clock (rxArrive bytes s)

/-- DATA (R45, R99 to R106): the header register's value, the address, the rest of the packet. -/
def execData (addr : Byte) (body : List Byte) (s : State) : Host.Outcome State Fault Refusal :=
  .next (receiveBytes (s.cfg.header :: addr :: body) s)

/-- ACK (R48, R116, R89). -/
def execAck (s : State) : Host.Outcome State Fault Refusal :=
  .next (receiveBytes [s.cfg.ackChar] s)

/-- RESEND_ALL (R49, R52, R118). -/
def execResendAll (s : State) : Host.Outcome State Fault Refusal :=
  .next (receiveBytes [cmdHi, cmdLo] s)

end Sys2Proof.Machine
end

