-- ==== Sys2Proof/Machine/Dispatch.lean ====
section
/-! DEFINITION. One arm per instruction. -/

namespace Sys2Proof.Machine

def exec (i : Instr) (s : State) : Host.Outcome State Fault Refusal :=
  match i with
  | .data addr body => Sys2Proof.Machine.execData addr body s
  | .ack => Sys2Proof.Machine.execAck s
  | .resendAll => Sys2Proof.Machine.execResendAll s
  | .publish index value => Sys2Proof.Machine.execPublish index value s
  | .service now => Sys2Proof.Machine.execService now s
  | .poll now => Sys2Proof.Machine.execPoll now s
  | .read index => Sys2Proof.Machine.execRead index s
  | .take flag clear => Sys2Proof.Machine.execTake flag clear s
  | .configure h t a hb ackT pktT r => Sys2Proof.Machine.execConfigure h t a hb ackT pktT r s
  | .reset peer localA capTx capRx r => Sys2Proof.Machine.execReset peer localA capTx capRx r s
  | .crc16 bytes => Sys2Proof.Machine.execCrc16 bytes s
  | .encode addr entries => Sys2Proof.Machine.execEncode addr entries s
  | .decode bytes => Sys2Proof.Machine.execDecode bytes s

end Sys2Proof.Machine
end

