-- ==== Sys2Proof/Machine/Fetch.lean ====
section
/-! DEFINITION. What stands next in the agenda, and the instruction a frame presents (log 1, log 21, log 22). -/

namespace Sys2Proof.Machine

/-- What the machine finds when it looks at its next input. -/
inductive Fetched where
  /-- No input is pending. -/
  | nothing
  /-- The input is not an instruction and has this effect: a move of the transport agent, or a byte from the wire that
  starts no message. -/
  | moved (s : State)
  /-- The input is this instruction, to run in this state. -/
  | instr (i : Instr) (s : State)
  /-- The input is a host or function frame that is no operation. -/
  | unreadable (e : DecodeError)
  deriving DecidableEq, Repr

/-- The agenda after a frame gave its instruction: the bytes of a wire frame that are left stay first (log 21). -/
def leave (f : Frame) (left : List Byte) (rest : List Input) : List Input :=
  match f, left with
  | .wire _, b :: bs => .frame (.wire (b :: bs)) :: rest
  | .wire _, [] => rest
  | .host _, _ => rest
  | .func _ _, _ => rest

/-- A frame that holds no instruction: on the wire there is no illegal encoding (R55), so its oldest byte arrives and is
polled like any other (log 21); a host or function frame is unreadable. -/
def fetchStray (f : Frame) (e : DecodeError) (rest : List Input) (s : State) : Fetched :=
  match f with
  | .wire [] => .moved { s with agenda := rest }
  | .wire (b :: bs) => .moved (receiveBytes [b] { s with agenda := leave f bs rest })
  | .host _ => .unreadable e
  | .func _ _ => .unreadable e

/-- The next input, oldest first. -/
def fetch (s : State) : Fetched :=
  match s.agenda with
  | [] => .nothing
  | .arrive bytes :: rest => .moved (rxArrive bytes { s with agenda := rest })
  | .depart count :: rest => .moved (wireDepart count { s with agenda := rest })
  | .frame f :: rest =>
    match decode s.cfg f with
    | .ok (i, left) => .instr i { s with agenda := leave f left rest }
    | .error e => fetchStray f e rest s

/-- A state with a table word's bytes standing as the next input (log 1). -/
def placeWord (s : State) (nbits w : Nat) : State :=
  { s with agenda := .frame (.wire (tableBytes s.cfg.rxBufCap nbits w)) :: s.agenda }

end Sys2Proof.Machine
end

