-- ==== Sys2Proof/Machine/Step.lean ====
section
/-! DEFINITION. One step: the next input takes effect. With none pending nothing happens: "the block itself has no step
of its own" (R7 c; log 22). -/

namespace Sys2Proof.Machine

/-- One step of the endpoint and its environment. -/
def step (s : State) : Host.Outcome State Fault Refusal :=
  match fetch s with
  | .nothing => .next s
  | .moved t => .next t
  | .instr i t => exec i t
  | .unreadable e => .refused (.notAnOperation e)

/-- The state with an opcode-table word as its next instruction (log 1). -/
def State.withFetchWord (s : State) (nbits w : Nat) : State := placeWord s nbits w

end Sys2Proof.Machine
end

