-- ==== Sys2Proof/Machine/Link.lean ====
section
/-! DEFINITION. The two-endpoint system and its channel (60_exceptions.md R150, R151; 30_encoding.md R62;
70_reset_and_hazards.md R159). `step` is one endpoint; a link is two States and the channel's moves (log 20). -/

namespace Sys2Proof.Machine

/-- Two instances of the block; they share nothing but the channel (R150). -/
structure Link where
  a : State
  b : State
  deriving DecidableEq, Repr

/-- A move of a link: an operation at one end, or the channel taking bytes from the front of one end's `wire` and
appending any bytes at all to the other's `rxq` (R151: delay, drop, alter, insert, duplicate). -/
inductive LinkMove where
  | atA (i : Instr)
  | atB (i : Instr)
  | channelAB (taken : Nat) (given : List Byte)
  | channelBA (taken : Nat) (given : List Byte)
  deriving DecidableEq, Repr

/-- One move of a link. -/
def Link.move (m : LinkMove) (l : Link) : Host.Outcome Link Fault Refusal :=
  match m with
  | .atA i =>
    match exec i l.a with
    | .next s => .next { l with a := s }
    | .fault f => .fault f
    | .refused r => .refused r
  | .atB i =>
    match exec i l.b with
    | .next s => .next { l with b := s }
    | .fault f => .fault f
    | .refused r => .refused r
  | .channelAB taken given => .next { a := wireDepart taken l.a, b := rxArrive given l.b }
  | .channelBA taken given => .next { a := rxArrive given l.a, b := wireDepart taken l.b }

/-- `LINK A -> B`, the perfect channel (R62). -/
def Link.linkAB (l : Link) : LinkMove := .channelAB l.a.wire.length l.a.wire

/-- `LINK B -> A`. -/
def Link.linkBA (l : Link) : LinkMove := .channelBA l.b.wire.length l.b.wire

/-- `LINK A -> B corrupt k, m`: byte `k` of the delivered run is XORed with the mask (R62). -/
def Link.corruptAB (k : Nat) (mask : Byte) (l : Link) : LinkMove :=
  .channelAB l.a.wire.length (l.a.wire.modify k fun b => b ^^^ mask)

/-- `DROP A` (R62). -/
def Link.dropA (l : Link) : LinkMove := .channelAB l.a.wire.length []

/-- What a conforming pair agrees on (R150, R158). `RESEND_ALL_CMD` and `CRC_INIT` are constants here. -/
abbrev ConformingPair (a b : State) : Prop :=
  a.cfg.peerAddr = b.cfg.localAddr ∧ b.cfg.peerAddr = a.cfg.localAddr ∧
  a.cfg.header = b.cfg.header ∧ a.cfg.terminator = b.cfg.terminator ∧ a.cfg.ackChar = b.cfg.ackChar ∧
  a.cfg.crcTable = b.cfg.crcTable ∧
  a.capTx ≤ b.capRx ∧ b.capTx ≤ a.capRx ∧
  5 + 3 * min a.capTx a.cfg.maxEntries ≤ b.cfg.rxBufCap ∧
  5 + 3 * min b.capTx b.cfg.maxEntries ≤ a.cfg.rxBufCap

/-- An endpoint is quiescent (R159): nothing in flight, nothing dirty, nothing half received, and the transport holds
none of its bytes. -/
abbrev Quiescent (s : State) : Prop :=
  s.txState = .idle ∧ (∀ slot ∈ s.txTable, slot.dirty = false) ∧ s.rxState = .seekingHeader ∧ s.rxq = [] ∧ s.wire = []

/-- One direction mirrors: `RXV[i]` of the receiver equals `TXV[i]` of the sender for `i < min(CAP_TX, CAP_RX)` (R159). -/
abbrev Mirrors (sender receiver : State) : Prop :=
  ∀ i < min sender.capTx receiver.capRx, (sender.txTable[i]?).map TxSlot.value = receiver.rxTable[i]?

/-- A converged link (R159). -/
abbrev Converged (l : Link) : Prop :=
  Quiescent l.a ∧ Quiescent l.b ∧ Mirrors l.a l.b ∧ Mirrors l.b l.a

end Sys2Proof.Machine
end

