-- ==== Sys2Proof/Safety.lean ====
section
/-! DEFINITION. The terms claims use: the invariant between operations (10_state.md R31), and the condition on a CRC
table under which every single-bit error is detected (40_crc16.md R68). -/

namespace Sys2Proof.Machine

/-- `tx_len` as R31 gives it for Sending and AwaitingAck: `8 <= tx_len <= TX_BUF_CAP` and `tx_len = 5 + 3k` for some
`1 <= k <= MAX_ENTRIES`. -/
def TxLengthOk (s : State) : Prop :=
  8 ≤ s.txLen ∧ s.txLen ≤ s.cfg.txBufCap ∧ ∃ k, 1 ≤ k ∧ k ≤ s.cfg.maxEntries ∧ s.txLen = 5 + 3 * k

/-- The transmit rows of R31. -/
def TxInv (s : State) : Prop :=
  match s.txState with
  | .idle => True
  | .building => False
  | .sending => TxLengthOk s ∧ s.txPos < s.txLen
  | .awaitingAck => TxLengthOk s ∧ s.txPos = s.txLen

/-- The receive rows of R31. -/
def RxInv (s : State) : Prop :=
  match s.rxState with
  | .seekingHeader => s.rxLen = 0
  | .seekingAddress => s.rxbuf = [s.cfg.header]
  | .accumulating =>
    2 ≤ s.rxLen ∧ s.rxLen < s.cfg.rxBufCap ∧
    s.rxbuf[0]? = some s.cfg.header ∧ s.rxbuf[1]? = some s.cfg.localAddr ∧
    ∀ n, 3 ≤ n → n ≤ s.rxLen → s.rxbuf[n - 3]? ≠ some s.cfg.terminator

/-- What the rules imply of the configuration and its lock: legal capacities (R9, R29), buffers no shorter than their
minimum (R9), and nothing in flight in either direction before the first operation (R30, R155). -/
def ConfigInv (s : State) : Prop :=
  1 ≤ s.capTx ∧ s.capTx ≤ 256 ∧ 1 ≤ s.capRx ∧ s.capRx ≤ 256 ∧
  8 ≤ s.cfg.txBufCap ∧ 5 ≤ s.cfg.rxBufCap ∧
  (s.started = false → s.txState = .idle ∧ s.rxState = .seekingHeader)

/-- The invariant between operations: R31, and what it needs of the configuration. -/
def State.Inv (s : State) : Prop := TxInv s ∧ RxInv s ∧ ConfigInv s

/-- The due slots of R81, in ascending index order. -/
def dueIndices (now : Time) (s : State) : List Nat :=
  (List.range s.capTx).filter fun i =>
    match s.txTable[i]? with
    | some slot => slot.dirty || decide (s.cfg.heartbeat < elapsed now slot.lastSend)
    | none => false

/-- The slots Building takes: the first `MAX_ENTRIES` due slots (R82). -/
def chosenIndices (now : Time) (s : State) : List Nat := (dueIndices now s).take s.cfg.maxEntries

/-- The entries of some slots at this moment, in the order of the indices (R82, R83). -/
def entriesAt (s : State) (indices : List Nat) : List Entry :=
  indices.filterMap fun i => (s.txTable[i]?).map fun slot => ⟨BitVec.ofNat 8 i, slot.value⟩

/-- No packet is being received, or the one being received is not stale at `now` (R96). -/
def NotStale (now : Time) (s : State) : Prop :=
  s.rxState = .seekingHeader ∨ elapsed now s.rxHdrTime ≤ s.cfg.packetTimeout

/-- The receive table after entries are applied in wire order: a repeated index leaves the later value (R105). -/
def applyAll (table : List Value) (es : List Entry) : List Value :=
  es.foldl (fun t e => t.set e.index.toNat e.value) table

/-- A run of operations at one endpoint, one after the other (R42). -/
def runAll : List Instr → State → Host.Outcome State Fault Refusal
  | [], s => .next s
  | i :: rest, s =>
    match exec i s with
    | .next t => runAll rest t
    | .fault f => .fault f
    | .refused r => .refused r

/-- A state whose event list begins with events emitted earlier in the same operation (R152). -/
def withEarlier (earlier : List Event) (s : State) : State := { s with events := earlier ++ s.events }

/-- What an operation answers when it goes on after these events: its own answer, the earlier events first. -/
def continuing (earlier : List Event) : Host.Outcome State Fault Refusal → Host.Outcome State Fault Refusal
  | .next t => .next (withEarlier earlier t)
  | .fault f => .fault f
  | .refused r => .refused r

/-- A table that is linear over GF(2), whose single-bit entries are not zero, and whose zero-byte step loses nothing:
what R68 asks of a table for the tamper property (its reason there is general knowledge, G2). -/
def DetectsSingleBits (table : Vector Value 256) : Prop :=
  (∀ a b : Byte, table[(a ^^^ b).toNat] = table[a.toNat] ^^^ table[b.toNat]) ∧
  (∀ k < 8, table[((1 : Byte) <<< k).toNat] ≠ 0) ∧
  (∀ r : Value, crcStep table r 0 = 0 → r = 0)

end Sys2Proof.Machine
end

