-- ==== Sys2Proof/Certificates/Slice0/Obligations.lean ====
section
/-! DEFINITION. The statements for the provers. Where a next state is written out, `events` is the list of R152, and `clock`,
`result` and `agenda` are the model's own fields, no rule of the spec (log 1, log 5, log 6). -/

open Sys2Proof Sys2Proof.Machine

/-! ## The machine: fetching, environment moves, decoding -/

/-- When the oldest pending input is a frame that decodes to an instruction, a step is exactly that instruction's `exec`,
in the state whose agenda has lost the frame (a wire frame's bytes after the message stay first). R7, R53; the agenda is
the model's (log 1, log 21). -/
def Obligations.StepRunsDecodedInstruction : Prop :=
  ∀ (s : State) (f : Frame) (rest : List Input) (i : Instr) (left : List Byte),
    s.agenda = .frame f :: rest → decode s.cfg f = .ok (i, left) →
    step s = exec i { s with agenda :=
      (match f, left with
        | .wire _, b :: bs => .frame (.wire (b :: bs)) :: rest
        | _, _ => rest) }

/-- The transport agent's moves change `rxq` or `wire` and nothing of the block, and with no input pending nothing happens
(R7 b, R7 c). -/
def Obligations.EnvironmentMovesTouchOnlyTransport : Prop :=
  ∀ (s : State) (rest : List Input),
    (∀ bytes, s.agenda = .arrive bytes :: rest → step s = .next { s with agenda := rest, rxq := s.rxq ++ bytes }) ∧
    (∀ n, s.agenda = .depart n :: rest → step s = .next { s with agenda := rest, wire := s.wire.drop n }) ∧
    (s.agenda = [] → step s = .next s)

/-- TAKE with flag label 3 is not an operation: a host frame that says so is refused by name (R59, U7; the byte layout is
the model's, log 2). -/
def Obligations.TakeWithFlagThreeIsRefused : Prop :=
  ∀ (s : State) (rest : List Input) (clear : Byte), s.agenda = .frame (.host [4, 3, clear]) :: rest →
    step s = .refused (.notAnOperation (.notAFlag 3))

/-- A lone byte from the wire that starts no message is not an illegal encoding: in SeekingHeader with nothing queued, the
step that presents it discards it, with no fault, no flag and no event (R55; one byte per step is the model's, log 21). -/
def Obligations.StrayWireByteIsDiscarded : Prop :=
  ∀ (s : State) (b : Byte) (rest : List Input),
    s.agenda = .frame (.wire [b]) :: rest → s.rxState = .seekingHeader → s.rxq = [] →
    b ≠ s.cfg.ackChar → b ≠ s.cfg.header →
    step s = .next { s with agenda := rest, started := true, events := [], result := .nothing }

/-- Decoding the encoding of a well-formed instruction gives it back, every operand at every value, under the part of
ConfigOK that keeps the messages apart (R45, R48, R49, R53, R59, R60; the host and function layouts are log 2, log 3). -/
def Obligations.DecodeInvertsEncode : Prop :=
  ∀ (c : LinkConfig) (i : Instr), FramingDistinct c → i.wf c = true → decode c (encode c i) = .ok (i, [])

/-- Whatever decodes is well formed: the decoder lets no ill-formed instruction through (R9, R29, R47, R54). -/
def Obligations.DecodedInstructionsAreWellFormed : Prop :=
  ∀ (c : LinkConfig) (f : Frame) (i : Instr) (left : List Byte), decode c f = .ok (i, left) → i.wf c = true

/-- Words written out by hand decode to their instructions at the default configuration: the three wire messages from the
encodings of R45, R48 and R49; the four host frames from the byte layout that is the model's choice (log 2), since R59 numbers
the operations and fixes their operands but gives no bus encoding. -/
def Obligations.SampleWordsDecode : Prop :=
  decode LinkConfig.default (.wire [0x3C, 0x02, 0x03, 0x00, 0x2A, 0x3E, 0xE0, 0x93]) =
    .ok (.data 0x02 [0x03, 0x00, 0x2A, 0x3E, 0xE0, 0x93], []) ∧
  decode LinkConfig.default (.wire [0x06]) = .ok (.ack, []) ∧
  decode LinkConfig.default (.wire [0xFE, 0xED]) = .ok (.resendAll, []) ∧
  decode LinkConfig.default (.host [0, 3, 0xFF, 0xFE]) = .ok (.publish 3 0xFFFE, []) ∧
  decode LinkConfig.default (.host [2, 0, 0, 1, 0xF4]) = .ok (.poll 500, []) ∧
  decode LinkConfig.default (.host [4, 1, 1]) = .ok (.take .readError true, []) ∧
  decode LinkConfig.default (.host [6, 2, 1, 0, 20, 1, 0, 1]) = .ok (.reset 2 1 20 256 true, [])

/-! ## Whole-machine rules -/

/-- Every operation completes: none blocks, faults the machine or is refused, in any state and for any operands (R122,
R132). -/
def Obligations.EveryOperationCompletes : Prop :=
  ∀ (i : Instr) (s : State), ∃ t, exec i s = .next t

/-- The reset state meets the invariant (R31, R155). -/
def Obligations.InvariantHoldsAtReset : Prop := State.reset.Inv

/-- Every step keeps the invariant of R31, from every state that has it: any operation, any message, any bytes. -/
def Obligations.StepKeepsInvariant : Prop :=
  ∀ s t : State, s.Inv → step s = .next t → t.Inv

/-- No block action clears a status flag: only TAKE with `clear` of that very flag, and RESET, do (R28). -/
def Obligations.OnlyTakeAndResetClearFlags : Prop :=
  ∀ (i : Instr) (s t : State) (f : StatusFlag), exec i s = .next t → readFlag f s = true → readFlag f t = false →
    i = .take f true ∨ ∃ p q m n r, i = .reset p q m n r

/-- What sets a status flag: `transmissionError`, only a SERVICE past the deadline in AwaitingAck; `readError`, only a receive
fault, and `newDataAvailable`, only an applied packet, both while bytes are polled. Each such event is in the operation's event
list, and an event list that holds one leaves its flag set (R28, R90, R106, R135). -/
def Obligations.StatusFlagsAreSetOnlyByTheirCauses : Prop :=
  ∀ (i : Instr) (s t : State), exec i s = .next t →
    (s.transmissionError = false → t.transmissionError = true →
      s.txState = .awaitingAck ∧ (∃ now, i = .service now ∧ s.cfg.ackTimeout < elapsed now s.txStartTime) ∧
      .fault .acknowledgmentTimeout ∈ t.events) ∧
    (s.readError = false → t.readError = true →
      ((∃ now, i = .poll now) ∨ (∃ a b, i = .data a b) ∨ i = .ack ∨ i = .resendAll) ∧
      ∃ k, k ≠ .acknowledgmentTimeout ∧ .fault k ∈ t.events) ∧
    (s.newDataAvailable = false → t.newDataAvailable = true →
      ((∃ now, i = .poll now) ∨ (∃ a b, i = .data a b) ∨ i = .ack ∨ i = .resendAll) ∧
      ∃ es, .applied es ∈ t.events) ∧
    (.fault .acknowledgmentTimeout ∈ t.events → t.transmissionError = true) ∧
    (∀ k, k ≠ .acknowledgmentTimeout → .fault k ∈ t.events → t.readError = true) ∧
    (∀ es, .applied es ∈ t.events → t.newDataAvailable = true)

/-- The two slot tables are disjoint: what changes a transmit value is PUBLISH or RESET; what changes the receive table is
a POLL, a received message or RESET (R18, R19, R20). -/
def Obligations.SlotTablesAreDisjoint : Prop :=
  ∀ (i : Instr) (s t : State), exec i s = .next t →
    (t.txTable.map TxSlot.value ≠ s.txTable.map TxSlot.value →
      (∃ n v, i = .publish n v) ∨ ∃ p q m n r, i = .reset p q m n r) ∧
    (t.rxTable ≠ s.rxTable →
      (∃ now, i = .poll now) ∨ (∃ a b, i = .data a b) ∨ i = .ack ∨ i = .resendAll ∨ ∃ p q m n r, i = .reset p q m n r)

/-- The transitions of `tx_state` are those of R94 and RESET's: every other operation in every other state leaves it
unchanged. -/
def Obligations.TransmitStateChangesAsTabulated : Prop :=
  ∀ (i : Instr) (s t : State), exec i s = .next t → t.txState ≠ s.txState →
    (s.txState = .idle ∧ (∃ now, i = .service now ∧ dueIndices now s ≠ []) ∧ t.txState = .sending) ∨
    (s.txState = .sending ∧ (∃ now, i = .service now) ∧ s.txPos + 1 = s.txLen ∧ t.txState = .awaitingAck) ∨
    (s.txState = .awaitingAck ∧ (∃ now, i = .service now ∧ s.cfg.ackTimeout < elapsed now s.txStartTime) ∧
      t.txState = if s.cfg.retransmit then .sending else .idle) ∨
    (s.txState = .awaitingAck ∧ ((∃ now, i = .poll now) ∨ (∃ a b, i = .data a b) ∨ i = .ack ∨ i = .resendAll) ∧
      .ackReceived ∈ t.events ∧ t.txState = .idle) ∨
    ((∃ p q m n r, i = .reset p q m n r) ∧ t.txState = .idle)

/-- The configuration lock: set by PUBLISH, SERVICE, POLL, READ and TAKE, cleared by nothing but RESET, and left alone by
CONFIGURE (R30, R129). -/
def Obligations.ConfigurationLock : Prop :=
  ∀ (i : Instr) (s t : State), exec i s = .next t →
    (((∃ n v, i = .publish n v) ∨ (∃ now, i = .service now) ∨ (∃ now, i = .poll now) ∨ (∃ n, i = .read n) ∨
      (∃ f k, i = .take f k)) → t.started = true) ∧
    (s.started = true → t.started = false → ∃ p q m n r, i = .reset p q m n r) ∧
    ((∃ h m a hb at1 pt r, i = .configure h m a hb at1 pt r) → t.started = s.started)

/-- While `started = 1` no operation but RESET changes a configuration register; CAP_TX and CAP_RX, which the model holds as
the lengths of the slot tables (log 24), no operation but RESET changes at all (R29, R30, R130). -/
def Obligations.ConfigurationFixedOnceStarted : Prop :=
  ∀ (i : Instr) (s t : State), exec i s = .next t →
    (s.started = true → t.cfg ≠ s.cfg → ∃ p q m n r, i = .reset p q m n r) ∧
    (t.capTx ≠ s.capTx ∨ t.capRx ≠ s.capRx → ∃ p q m n r, i = .reset p q m n r)

/-! ## Reset -/

/-- The reset state: the values of R155 that do not depend on RESET's operands (those are the model's choice in
`State.reset`, log 9, log 10). -/
def Obligations.ResetStateValues : Prop :=
  State.reset.txTable = List.replicate 20 ⟨0, false, 0⟩ ∧ State.reset.rxTable = List.replicate 20 0 ∧
  State.reset.txState = .idle ∧ State.reset.txLen = 0 ∧ State.reset.txPos = 0 ∧ State.reset.txStartTime = 0 ∧
  State.reset.rxState = .seekingHeader ∧ State.reset.rxLen = 0 ∧ State.reset.rxHdrTime = 0 ∧
  State.reset.transmissionError = false ∧ State.reset.readError = false ∧ State.reset.newDataAvailable = false ∧
  State.reset.started = false ∧
  State.reset.cfg.header = 0x3C ∧ State.reset.cfg.terminator = 0x3E ∧ State.reset.cfg.ackChar = 0x06 ∧
  State.reset.cfg.heartbeat = 500 ∧ State.reset.cfg.ackTimeout = 100 ∧ State.reset.cfg.packetTimeout = 100 ∧
  State.reset.cfg.txBufCap = 128 ∧ State.reset.cfg.rxBufCap = 128 ∧
  Config.resendAllCmd = 0xFEED ∧ Config.crcInit = 0xFFFF

/-- RESET from any state: every state element at its reset value, the operands stored, the other configuration registers
at their defaults; `wire` and `rxq` untouched (R154, R155, R156). That RESET keeps the instance's buffer capacities, checksum
table and PUBLISH_MARKS_UNCHANGED is the model's choice (log 15), and so is its effect at a capacity outside 1 to 256 (log 17). -/
def Obligations.ResetOperation : Prop :=
  ∀ (s : State) (peer localA : Byte) (m n : Nat) (r : Bool), ∃ t, exec (.reset peer localA m n r) s = .next t ∧
    t.txTable = List.replicate m ⟨0, false, 0⟩ ∧ t.rxTable = List.replicate n 0 ∧
    t.txState = .idle ∧ t.txLen = 0 ∧ t.txPos = 0 ∧ t.txStartTime = 0 ∧
    t.rxState = .seekingHeader ∧ t.rxLen = 0 ∧ t.rxHdrTime = 0 ∧
    t.transmissionError = false ∧ t.readError = false ∧ t.newDataAvailable = false ∧ t.started = false ∧
    t.cfg = { header := 0x3C, terminator := 0x3E, ackChar := 0x06, heartbeat := 500, ackTimeout := 100,
              packetTimeout := 100, retransmit := r, peerAddr := peer, localAddr := localA,
              txBufCap := s.cfg.txBufCap, rxBufCap := s.cfg.rxBufCap, crcTable := s.cfg.crcTable,
              publishMarksUnchanged := s.cfg.publishMarksUnchanged } ∧
    t.rxq = s.rxq ∧ t.wire = s.wire ∧ t.clock = s.clock ∧ t.agenda = s.agenda ∧ t.events = []

/-! ## Host operations -/

/-- PUBLISH in range: the value is written, the dirty flag is set when the value changed or the parameter says so and is
never cleared, the time is not written; every other slot and everything else but `started` and the outputs is unchanged
(R123). -/
def Obligations.PublishWritesSlot : Prop :=
  ∀ (s : State) (index : Byte) (value : Value) (slot : TxSlot), s.txTable[index.toNat]? = some slot →
    ∃ t, exec (.publish index value) s = .next t ∧
      t.txTable[index.toNat]? = some
        { value := value,
          dirty := if slot.value ≠ value ∨ s.cfg.publishMarksUnchanged = true then true else slot.dirty,
          lastSend := slot.lastSend } ∧
      (∀ j, j ≠ index.toNat → t.txTable[j]? = s.txTable[j]?) ∧ t.capTx = s.capTx ∧
      t = { s with started := true, events := [], result := .nothing, txTable := t.txTable }

/-- PUBLISH with an index at or beyond CAP_TX changes nothing but `started`, and its event list is Rejected (R124). -/
def Obligations.PublishOutOfRangeIsRejected : Prop :=
  ∀ (s : State) (index : Byte) (value : Value), s.capTx ≤ index.toNat →
    exec (.publish index value) s = .next { s with started := true, events := [.rejected], result := .nothing }

/-- Publishing the same value twice in a row is publishing it once: the second PUBLISH changes nothing, when unchanged
values are not marked (R123, D9). -/
def Obligations.PublishingTwiceIsPublishingOnce : Prop :=
  ∀ (s t : State) (index : Byte) (value : Value), s.cfg.publishMarksUnchanged = false →
    exec (.publish index value) s = .next t → exec (.publish index value) t = .next t

/-- READ: the slot's value with `ok = 1`, or `ok = 0` with no value when the index is out of range; nothing else changes
but `started` (R125, R126). -/
def Obligations.ReadReturnsSlotOrRejects : Prop :=
  ∀ (s : State) (index : Byte),
    (∀ v, s.rxTable[index.toNat]? = some v →
      exec (.read index) s = .next { s with started := true, events := [], result := .read (some v) }) ∧
    (s.capRx ≤ index.toNat →
      exec (.read index) s = .next { s with started := true, events := [], result := .read none })

/-- TAKE returns the named flag, and clears it when asked; the other two flags and everything else are untouched (R127). -/
def Obligations.TakeReadsAndClears : Prop :=
  ∀ (s : State) (clear : Bool),
    exec (.take .transmissionError clear) s = .next { s with
      started := true, events := [], result := .bit s.transmissionError,
      transmissionError := if clear then false else s.transmissionError } ∧
    exec (.take .readError clear) s = .next { s with
      started := true, events := [], result := .bit s.readError,
      readError := if clear then false else s.readError } ∧
    exec (.take .newDataAvailable clear) s = .next { s with
      started := true, events := [], result := .bit s.newDataAvailable,
      newDataAvailable := if clear then false else s.newDataAvailable }

/-- CONFIGURE before the first operation writes the seven registers and nothing else, and does not set `started` (R129). -/
def Obligations.ConfigureBeforeStart : Prop :=
  ∀ (s : State) (h m a : Byte) (hb at1 pt : Time) (r : Bool), s.started = false →
    exec (.configure h m a hb at1 pt r) s = .next { s with
      events := [], result := .nothing,
      cfg := { s.cfg with header := h, terminator := m, ackChar := a, heartbeat := hb, ackTimeout := at1,
                          packetTimeout := pt, retransmit := r } }

/-- CONFIGURE after operation has begun changes nothing and emits Rejected (R130). -/
def Obligations.ConfigureAfterStartIsRejected : Prop :=
  ∀ (s : State) (h m a : Byte) (hb at1 pt : Time) (r : Bool), s.started = true →
    exec (.configure h m a hb at1 pt r) s = .next { s with events := [.rejected], result := .nothing }

/-! ## The CRC engine and the codec -/

/-- CRC16 returns a register that starts at 0xFFFF and, per byte, shifts left by 8 and XORs the table entry indexed by its
high byte XOR the byte, for every table (R64). Calling it as an instruction, which changes nothing of the block, sets no
`started` and starts a fresh event list, is the model's choice (log 3). -/
def Obligations.Crc16FollowsTheTable : Prop :=
  ∃ crc : Vector Value 256 → List Byte → Value,
    (∀ s bytes, exec (.crc16 bytes) s = .next { s with events := [], result := .checksum (crc s.cfg.crcTable bytes) }) ∧
    (∀ table, crc table [] = 0xFFFF) ∧
    (∀ (table : Vector Value 256) (bytes : List Byte) (b : Byte), crc table (bytes ++ [b]) =
      (crc table bytes <<< (8 : Nat)) ^^^ table[((crc table bytes >>> (8 : Nat)).setWidth 8 ^^^ b).toNat])

/-- ENCODE returns header, address, the entries' index, high and low value bytes, terminator, and the big-endian checksum
of all before it: 5 + 3n bytes (R71). The empty list, which R71 does not take, gives the 5-byte packet by the model's choice
(log 18, R72); the direct call that changes nothing of the block is the model's (log 3). -/
def Obligations.EncodeLaysOutThePacket : Prop :=
  ∀ (s : State) (addr : Byte) (es : List Entry), ∃ c1 c2 : Byte,
    let body := [s.cfg.header, addr] ++
      es.flatMap (fun e : Entry => ([e.index, (e.value >>> (8 : Nat)).setWidth 8, e.value.setWidth 8] : List Byte)) ++ [s.cfg.terminator]
    exec (.encode addr es) s = .next { s with events := [], result := .packet (body ++ [c1, c2]) } ∧
    c1.toNat * 256 + c2.toNat = (crc16 s.cfg.crcTable body).toNat ∧
    (body ++ [c1, c2]).length = 5 + 3 * es.length

/-- DECODE of fewer than five bytes is TooShort (R75). The direct call, which changes nothing of the block and sets no
`started`, is the model's choice (log 3). -/
def Obligations.DecodeOfShortBytesIsTooShort : Prop :=
  ∀ (s : State) (bytes : List Byte), bytes.length < 5 →
    exec (.decode bytes) s = .next { s with events := [], result := .decoded .tooShort }

/-- DECODE of five bytes or more is ChecksumMismatch exactly when the checksum of all but the last two bytes is not the
big-endian number of the last two (R76). The direct call, which changes nothing of the block and sets no `started`, is the
model's choice (log 3). -/
def Obligations.DecodeChecksTheChecksum : Prop :=
  ∀ (s : State) (covered : List Byte) (c1 c2 : Byte), 3 ≤ covered.length →
    (exec (.decode (covered ++ [c1, c2])) s =
        .next { s with events := [], result := .decoded .checksumMismatch } ↔
      (crc16 s.cfg.crcTable covered).toNat ≠ c1.toNat * 256 + c2.toNat)

/-- DECODE of what ENCODE returns is the entries, for every table, address and list of entries (R78 for the lists that are not
empty; the empty list is the model's choice, log 18). The direct calls, which change nothing of the block, are the model's
(log 3). -/
def Obligations.DecodeInvertsEncodePacket : Prop :=
  ∀ (s : State) (addr : Byte) (es : List Entry), ∃ packet,
    exec (.encode addr es) s = .next { s with events := [], result := .packet packet } ∧
    exec (.decode packet) s = .next { s with events := [], result := .decoded (.ok es) }

/-- On a checksum match DECODE walks whole entries and ignores one or two bytes left before the terminator (R77). The direct
call, which changes nothing of the block and sets no `started`, is the model's choice (log 3). -/
def Obligations.DecodeIgnoresPayloadRemainder : Prop :=
  ∀ (s : State) (h a m c1 c2 : Byte) (es : List Entry) (stray : List Byte), stray.length < 3 →
    (crc16 s.cfg.crcTable ([h, a] ++ payloadBytes es ++ stray ++ [m])).toNat = c1.toNat * 256 + c2.toNat →
    exec (.decode ([h, a] ++ payloadBytes es ++ stray ++ [m] ++ [c1, c2])) s =
      .next { s with events := [], result := .decoded (.ok es) }

/-- Changing the checksum bytes of an encoded packet in any way gives ChecksumMismatch, for every table (R76, R79). The
direct call of DECODE is the model's choice (log 3). -/
def Obligations.ChangedChecksumBytesAreDetected : Prop :=
  ∀ (s : State) (addr : Byte) (es : List Entry) (covered : List Byte) (c1 c2 d1 d2 : Byte),
    encodePacket s.cfg addr es = covered ++ [c1, c2] → (d1, d2) ≠ (c1, c2) →
    exec (.decode (covered ++ [d1, d2])) s = .next { s with events := [], result := .decoded .checksumMismatch }

/-- Flipping any single bit of an encoded packet's covered bytes gives ChecksumMismatch, for every table that meets the
condition of R68 (a hypothesis on the table: the spec's table is open, U14, G2; the candidate of R67 meets it). The direct call
of DECODE is the model's choice (log 3). -/
def Obligations.SingleBitFlipIsDetected : Prop :=
  ∀ (s : State) (addr : Byte) (es : List Entry) (k bit : Nat), DetectsSingleBits s.cfg.crcTable →
    k + 2 < (encodePacket s.cfg addr es).length → bit < 8 →
    exec (.decode ((encodePacket s.cfg addr es).modify k fun b => b ^^^ ((1 : Byte) <<< bit))) s =
      .next { s with events := [], result := .decoded .checksumMismatch }

/-! ## SERVICE -/

/-- SERVICE in Idle with no slot due changes nothing but `started` (the model's clock aside) (R83). -/
def Obligations.ServiceIdleWithNothingDue : Prop :=
  ∀ (s : State) (now : Time), s.txState = .idle → dueIndices now s = [] →
    exec (.service now) s = .next { s with started := true, events := [], result := .nothing, clock := now }

/-- SERVICE in Idle with a slot due builds one packet of the first MAX_ENTRIES due slots in ascending order: each is
cleared and stamped, the others untouched; the packet stands in `txbuf`, Sending at byte 0, no byte written (R81 to R84).
The premise that a packet can hold an entry is `TX_BUF_CAP >= 8` (R9). -/
def Obligations.ServiceBuildsTheDueSlots : Prop :=
  ∀ (s : State) (now : Time), s.txState = .idle → dueIndices now s ≠ [] → 8 ≤ s.cfg.txBufCap →
    ∃ t, exec (.service now) s = .next t ∧
      (∀ i ∈ chosenIndices now s, t.txTable[i]? =
        (s.txTable[i]?).map fun slot => { slot with dirty := false, lastSend := now }) ∧
      (∀ i, i ∉ chosenIndices now s → t.txTable[i]? = s.txTable[i]?) ∧ t.capTx = s.capTx ∧
      t = { s with
        started := true, result := .nothing, clock := now, txTable := t.txTable,
        events := [.built (entriesAt s (chosenIndices now s))],
        txbuf := encodePacket s.cfg s.cfg.peerAddr (entriesAt s (chosenIndices now s)),
        txPos := 0, txState := .sending }

/-- SERVICE in Sending writes exactly one byte, the one at `tx_pos`; byte 0 stamps `tx_start_time`; the last byte goes to
AwaitingAck in the same SERVICE; nothing else changes (R85, R86, R87). -/
def Obligations.ServiceSendsOneByte : Prop :=
  ∀ (s : State) (now : Time) (b : Byte), s.txState = .sending → s.txbuf[s.txPos]? = some b →
    exec (.service now) s = .next { s with
      started := true, events := [], result := .nothing, clock := now,
      wire := s.wire ++ [b], txPos := s.txPos + 1,
      txStartTime := if s.txPos = 0 then now else s.txStartTime,
      txState := if s.txPos + 1 = s.txLen then .awaitingAck else .sending }

/-- As many SERVICEs as a packet has bytes, at any times, write exactly the packet's bytes in order and end in AwaitingAck;
the deadline runs from the first of them, and no slot and nothing received changes (R84 to R87, R175). -/
def Obligations.SendingTakesOneServicePerByte : Prop :=
  ∀ (s : State) (first : Time) (later : List Time), s.txState = .sending → s.txPos = 0 →
    s.txLen = later.length + 1 →
    ∃ t, runAll ((first :: later).map .service) s = .next t ∧ t.wire = s.wire ++ s.txbuf ∧
      t.txState = .awaitingAck ∧ t.txPos = s.txLen ∧ t.txStartTime = first ∧
      t.txbuf = s.txbuf ∧ t.txTable = s.txTable ∧ t.transmissionError = s.transmissionError ∧ t.cfg = s.cfg ∧
      t.rxTable = s.rxTable ∧ t.rxState = s.rxState ∧ t.rxbuf = s.rxbuf ∧ t.rxHdrTime = s.rxHdrTime ∧
      t.readError = s.readError ∧ t.newDataAvailable = s.newDataAvailable ∧ t.rxq = s.rxq

/-- SERVICE in AwaitingAck within the deadline (elapsed at most ACK_TIMEOUT) changes nothing but `started` (R88). -/
def Obligations.ServiceWaitsWithinTheDeadline : Prop :=
  ∀ (s : State) (now : Time), s.txState = .awaitingAck → elapsed now s.txStartTime ≤ s.cfg.ackTimeout →
    exec (.service now) s = .next { s with started := true, events := [], result := .nothing, clock := now }

/-- SERVICE in AwaitingAck past the deadline raises AcknowledgmentTimeout: `transmissionError` is set; with RETRANSMIT the
same buffer is sent again from byte 0, without it the packet is dropped; no byte is written, no dirty flag or time changes
(R90, R91, R92, R136). -/
def Obligations.AcknowledgmentTimeoutRetriesOrDrops : Prop :=
  ∀ (s : State) (now : Time), s.txState = .awaitingAck → s.cfg.ackTimeout < elapsed now s.txStartTime →
    exec (.service now) s = .next { s with
      started := true, events := [.fault .acknowledgmentTimeout], result := .nothing, clock := now,
      transmissionError := true,
      txPos := if s.cfg.retransmit then 0 else s.txPos,
      txState := if s.cfg.retransmit then .sending else .idle }

/-- SERVICE from any state never touches the receive side, the queue, the configuration or the values, and writes at most
one byte (R80). -/
def Obligations.ServiceTouchesOnlyTheTransmitSide : Prop :=
  ∀ (s : State) (now : Time), ∃ t, exec (.service now) s = .next t ∧
    t.rxTable = s.rxTable ∧ t.rxState = s.rxState ∧ t.rxbuf = s.rxbuf ∧ t.rxHdrTime = s.rxHdrTime ∧
    t.readError = s.readError ∧ t.newDataAvailable = s.newDataAvailable ∧ t.rxq = s.rxq ∧ t.cfg = s.cfg ∧
    t.txTable.map TxSlot.value = s.txTable.map TxSlot.value ∧
    (t.wire = s.wire ∨ ∃ b, t.wire = s.wire ++ [b])

/-! ## POLL -/

/-- POLL from any state consumes every byte, and never touches `txbuf`, `tx_pos`, `tx_start_time`, any TXV or TXT,
`transmissionError` or the configuration; it never clears a TXD and sets one only with ResendAllReceived, which sets them all;
it only appends to `wire` (R95, R107, R118). -/
def Obligations.PollDrainsAndSparesTheTransmitSide : Prop :=
  ∀ (s : State) (now : Time), ∃ t, exec (.poll now) s = .next t ∧ t.rxq = [] ∧
    t.txbuf = s.txbuf ∧ t.txPos = s.txPos ∧ t.txStartTime = s.txStartTime ∧
    t.transmissionError = s.transmissionError ∧ t.cfg = s.cfg ∧ t.started = true ∧
    t.txTable.map TxSlot.value = s.txTable.map TxSlot.value ∧
    t.txTable.map TxSlot.lastSend = s.txTable.map TxSlot.lastSend ∧
    t.txTable.map TxSlot.dirty = s.txTable.map (fun slot => slot.dirty || decide (Event.resendAllReceived ∈ t.events)) ∧
    t.capRx = s.capRx ∧ ∃ written, t.wire = s.wire ++ written

/-- The stale check: a POLL outside SeekingHeader and past PACKET_TIMEOUT raises StalePartialPacket with the common action
of the receive faults: readError set, buffer emptied, SeekingHeader, FE ED written. With nothing queued that is all; with bytes
queued the fault comes first, and the POLL then goes on with those bytes from SeekingHeader (R96, R135, R141, R143). -/
def Obligations.StalePacketIsDropped : Prop :=
  ∀ (s : State) (now : Time), s.rxState ≠ .seekingHeader → s.cfg.packetTimeout < elapsed now s.rxHdrTime →
    (s.rxq = [] → exec (.poll now) s = .next { s with
      started := true, events := [.fault .stalePartialPacket, .resendAllSent], result := .nothing, clock := now,
      readError := true, rxbuf := [], rxState := .seekingHeader, wire := s.wire ++ [0xFE, 0xED] }) ∧
    exec (.poll now) s = continuing [.fault .stalePartialPacket, .resendAllSent] (exec (.poll now) { s with
      readError := true, rxbuf := [], rxState := .seekingHeader, wire := s.wire ++ [0xFE, 0xED] })

/-- A POLL with nothing queued and no stale packet (the comparison is strict: an age equal to PACKET_TIMEOUT is not stale)
changes nothing but `started` (R95, R96). -/
def Obligations.PollWithNothingToDo : Prop :=
  ∀ (s : State) (now : Time), NotStale now s → s.rxq = [] →
    exec (.poll now) s = .next { s with started := true, events := [], result := .nothing, clock := now }

/-- In SeekingHeader, for a byte that is no ACK and does not begin the command pair: the header starts a packet and records the
time of this POLL; any other byte is discarded; the POLL goes on with the bytes after it, and is over when there are none. A run
of bytes with no header, no ACK and no command in it is discarded whole, whatever its length (R99, R107). -/
def Obligations.SeekingHeaderTakesOnlyTheHeader : Prop :=
  ∀ (s : State) (now : Time), s.rxState = .seekingHeader →
    (∀ (b : Byte) (more : List Byte), b ≠ s.cfg.ackChar → ¬ (b = cmdHi ∧ more.head? = some cmdLo) → s.rxq = b :: more →
      (more = [] → exec (.poll now) s = .next (if b = s.cfg.header then
        { s with started := true, events := [], result := .nothing, clock := now, rxq := [],
                 rxbuf := [b], rxHdrTime := now, rxState := .seekingAddress }
      else { s with started := true, events := [], result := .nothing, clock := now, rxq := [] })) ∧
      exec (.poll now) s = exec (.poll now) (if b = s.cfg.header then
        { s with rxq := more, rxbuf := [b], rxHdrTime := now, rxState := .seekingAddress }
      else { s with rxq := more })) ∧
    ∀ (noise more : List Byte), s.cfg.ackChar ∉ noise → s.cfg.header ∉ noise → ¬ [cmdHi, cmdLo] <:+: noise →
      (noise.getLast? = some cmdHi → more.head? ≠ some cmdLo) → s.rxq = noise ++ more →
      exec (.poll now) s = exec (.poll now) { s with rxq := more }

/-- In SeekingAddress with the header held, for a byte that is no ACK and does not begin the command pair: LOCAL_ADDR begins
accumulation; any other byte, the header included, drops the partial packet with no fault and no flag; the POLL goes on with the
bytes after it, and is over when there are none (R100, R107). -/
def Obligations.SeekingAddressMatchesOrDrops : Prop :=
  ∀ (s : State) (now : Time) (b : Byte) (more : List Byte), s.rxState = .seekingAddress → s.rxbuf = [s.cfg.header] →
    NotStale now s → b ≠ s.cfg.ackChar → ¬ (b = cmdHi ∧ more.head? = some cmdLo) → s.rxq = b :: more →
    (more = [] → exec (.poll now) s = .next (if b = s.cfg.localAddr then
      { s with started := true, events := [], result := .nothing, clock := now, rxq := [],
               rxbuf := [s.cfg.header, b], rxState := .accumulating }
    else { s with started := true, events := [], result := .nothing, clock := now, rxq := [],
                  rxbuf := [], rxState := .seekingHeader })) ∧
    exec (.poll now) s = exec (.poll now) (if b = s.cfg.localAddr then
      { s with rxq := more, rxbuf := [s.cfg.header, b], rxState := .accumulating }
    else { s with rxq := more, rxbuf := [], rxState := .seekingHeader })

/-- In Accumulating, since this POLL or an earlier one, every byte is content, whatever its value, ACK_CHAR and HEADER
included, and the POLL goes on with the bytes after it. (1) A byte that neither completes the packet nor fills the buffer is
appended, and that is all. (2) A byte that fills the buffer without completing raises BufferOverflow. A byte that stands two
after a terminator completes the packet, full buffer or not, and what DECODE says of the bytes held (DecodeOfShortBytesIsTooShort,
DecodeChecksTheChecksum, DecodeIgnoresPayloadRemainder) decides: (3) TooShort or ChecksumMismatch is raised and nothing is
applied; (4) entries with every index in range are applied in wire order and acknowledged; (5) at the first index out of range
UnknownIndex is raised, the entries before it applied (R24, R97, R101 to R107, R135). -/
def Obligations.AccumulatingTakesAnyByte : Prop :=
  ∀ (s : State) (now : Time) (b : Byte) (more : List Byte), s.rxState = .accumulating → 2 ≤ s.rxLen → NotStale now s →
    s.rxq = b :: more →
    (s.rxbuf[s.rxLen - 2]? ≠ some s.cfg.terminator → s.rxLen + 1 ≠ s.cfg.rxBufCap →
      (more = [] → exec (.poll now) s = .next { s with
        started := true, events := [], result := .nothing, clock := now, rxq := [], rxbuf := s.rxbuf ++ [b] }) ∧
      exec (.poll now) s = exec (.poll now) { s with rxq := more, rxbuf := s.rxbuf ++ [b] }) ∧
    (s.rxbuf[s.rxLen - 2]? ≠ some s.cfg.terminator → s.rxLen + 1 = s.cfg.rxBufCap →
      exec (.poll now) s = continuing [.fault .bufferOverflow, .resendAllSent] (exec (.poll now) { s with
        rxq := more, rxbuf := [], rxState := .seekingHeader, readError := true, wire := s.wire ++ [0xFE, 0xED] })) ∧
    (s.rxbuf[s.rxLen - 2]? = some s.cfg.terminator →
      (∀ k, (k = .tooShort ∧ decodePacket s.cfg (s.rxbuf ++ [b]) = .tooShort) ∨
          (k = .checksumMismatch ∧ decodePacket s.cfg (s.rxbuf ++ [b]) = .checksumMismatch) →
        exec (.poll now) s = continuing [.fault k, .resendAllSent] (exec (.poll now) { s with
          rxq := more, rxbuf := [], rxState := .seekingHeader, readError := true, wire := s.wire ++ [0xFE, 0xED] })) ∧
      (∀ es, decodePacket s.cfg (s.rxbuf ++ [b]) = .ok es → (∀ e ∈ es, e.index.toNat < s.capRx) →
        exec (.poll now) s = continuing [.applied es, .ackSent] (exec (.poll now) { s with
          rxq := more, rxbuf := [], rxState := .seekingHeader, rxTable := applyAll s.rxTable es,
          newDataAvailable := true, wire := s.wire ++ [s.cfg.ackChar] })) ∧
      ∀ good bad later, decodePacket s.cfg (s.rxbuf ++ [b]) = .ok (good ++ bad :: later) →
        (∀ e ∈ good, e.index.toNat < s.capRx) → s.capRx ≤ bad.index.toNat →
        exec (.poll now) s = continuing [.fault .unknownIndex, .resendAllSent] (exec (.poll now) { s with
          rxq := more, rxbuf := [], rxState := .seekingHeader, rxTable := applyAll s.rxTable good,
          readError := true, wire := s.wire ++ [0xFE, 0xED] }))

/-- A command whose two bytes are split across two POLLs is not recognised: both bytes are discarded, no dirty flag is set,
and the second POLL goes on with the bytes after them (R98, R168). -/
def Obligations.SplitCommandIsLost : Prop :=
  ∀ (s : State) (now later : Time), s.rxState = .seekingHeader → s.rxq = [] →
    cmdHi ≠ s.cfg.ackChar → cmdHi ≠ s.cfg.header → cmdLo ≠ s.cfg.ackChar → cmdLo ≠ s.cfg.header →
    ∃ t u, exec (.poll now) { s with rxq := [0xFE] } = .next t ∧
      exec (.poll later) { t with rxq := [0xED] } = .next u ∧
      u = { s with started := true, events := [], result := .nothing, clock := later } ∧
      ∀ more, exec (.poll later) { t with rxq := 0xED :: more } = exec (.poll later) { s with rxq := more }

/-! ## The wire messages -/

/-- A message that arrives acts by being polled: each WIRE row's meaning is a POLL at the host's clock with the message's
bytes behind whatever was queued (R7 b, R42; the pairing is the model's, log 4). -/
def Obligations.WireRowsArePolledOnArrival : Prop :=
  ∀ (s : State) (addr : Byte) (body : List Byte),
    exec (.data addr body) s = exec (.poll s.clock) { s with rxq := s.rxq ++ s.cfg.header :: addr :: body } ∧
    exec .ack s = exec (.poll s.clock) { s with rxq := s.rxq ++ [s.cfg.ackChar] } ∧
    exec .resendAll s = exec (.poll s.clock) { s with rxq := s.rxq ++ [0xFE, 0xED] }

/-- Inside a packet the ACK byte and the command pair are packet content: where they neither complete the packet nor fill
the buffer they are appended, no ACK is received, no dirty flag is set, nothing else changes (R97, R101; log 4). -/
def Obligations.ControlBytesAreContentInsideAPacket : Prop :=
  ∀ (s : State), s.rxState = .accumulating → 2 ≤ s.rxLen → s.rxq = [] → NotStale s.clock s →
    s.rxbuf[s.rxLen - 2]? ≠ some s.cfg.terminator → s.rxLen + 1 ≠ s.cfg.rxBufCap →
    exec .ack s = .next { s with
      started := true, events := [], result := .nothing, rxbuf := s.rxbuf ++ [s.cfg.ackChar] } ∧
    (s.rxbuf[s.rxLen - 1]? ≠ some s.cfg.terminator → s.rxLen + 2 ≠ s.cfg.rxBufCap →
      exec .resendAll s = .next { s with
        started := true, events := [], result := .nothing, rxbuf := s.rxbuf ++ [0xFE, 0xED] })

/-- ACK: polled in SeekingHeader or SeekingAddress, it takes AwaitingAck to Idle; in any other transmit state it is consumed
and nothing changes; the receive machine, the flags, the tables and `txbuf` are untouched. A POLL whose queue begins with it
goes on with the bytes after it (R116, R89, R107). The poll of an ACK instruction at the host's clock is the model's (log 4). -/
def Obligations.AckMessageEndsTheWait : Prop :=
  ∀ (s : State), s.rxState ≠ .accumulating →
    (s.rxq = [] → NotStale s.clock s → exec .ack s = .next { s with
      started := true, events := [.ackReceived], result := .nothing,
      txState := if s.txState = .awaitingAck then .idle else s.txState }) ∧
    ∀ (now : Time) (more : List Byte), NotStale now s →
      exec (.poll now) { s with rxq := s.cfg.ackChar :: more } =
        continuing [.ackReceived] (exec (.poll now) { s with
          rxq := more, txState := if s.txState = .awaitingAck then .idle else s.txState })

/-- RESEND_ALL: polled in SeekingHeader or SeekingAddress, it sets every dirty flag and changes no value, no time and no
transmit state, and nothing is written. A POLL whose queue begins with it goes on with the bytes after it (R118, R107). The
poll of a RESEND_ALL instruction at the host's clock is the model's (log 4). -/
def Obligations.ResendAllMarksEverySlot : Prop :=
  ∀ (s : State), s.rxState ≠ .accumulating → cmdHi ≠ s.cfg.ackChar →
    (s.rxq = [] → NotStale s.clock s → exec .resendAll s = .next { s with
      started := true, events := [.resendAllReceived], result := .nothing,
      txTable := s.txTable.map fun slot => { slot with dirty := true } }) ∧
    ∀ (now : Time) (more : List Byte), NotStale now s →
      exec (.poll now) { s with rxq := 0xFE :: 0xED :: more } =
        continuing [.resendAllReceived] (exec (.poll now) { s with
          rxq := more, txTable := s.txTable.map fun slot => { slot with dirty := true } })

/-- RESEND_ALL to an idle endpoint, then a SERVICE: the packet built holds every slot in ascending order, whatever was
dirty before, when the table fits one packet (R118, R119). The poll of a RESEND_ALL instruction at the host's clock is the
model's (log 4). -/
def Obligations.ResendAllRebuildsTheWholeTable : Prop :=
  ∀ (s : State) (now : Time), s.rxq = [] → s.rxState ≠ .accumulating → NotStale s.clock s → cmdHi ≠ s.cfg.ackChar →
    s.txState = .idle → 1 ≤ s.capTx → s.capTx ≤ s.cfg.maxEntries →
    ∃ t u, exec .resendAll s = .next t ∧ exec (.service now) t = .next u ∧
      u.events = [.built (entriesAt s (List.range s.capTx))] ∧
      u.txbuf = encodePacket s.cfg s.cfg.peerAddr (entriesAt s (List.range s.capTx)) ∧
      u.txState = .sending ∧ u.txPos = 0

/-- DATA: bytes for this endpoint ended by their first terminator, with a matching checksum and every index in range, are
applied in wire order, one or two stray payload bytes ignored; `newDataAvailable` is set, ACK is written, the machine is back in
SeekingHeader, and nothing of the transmit side changes. Every packet ENCODE builds with no terminator in its payload is such a
run of bytes. A POLL whose queue begins with it goes on with the bytes after it (R77, R99 to R107). The poll of a DATA
instruction at the host's clock is the model's (log 4). -/
def Obligations.ConformingPacketIsApplied : Prop :=
  ∀ (s : State) (es : List Entry) (stray body : List Byte) (c1 c2 : Byte),
    FramingDistinct s.cfg → AddressesDistinct s.cfg → s.rxState = .seekingHeader → stray.length < 3 →
    s.cfg.terminator ∉ payloadBytes es ++ stray → (∀ e ∈ es, e.index.toNat < s.capRx) →
    5 + 3 * es.length + stray.length ≤ s.cfg.rxBufCap → body = payloadBytes es ++ stray ++ [s.cfg.terminator, c1, c2] →
    (crc16 s.cfg.crcTable ([s.cfg.header, s.cfg.localAddr] ++ payloadBytes es ++ stray ++ [s.cfg.terminator])).toNat =
      c1.toNat * 256 + c2.toNat →
    (s.rxq = [] → exec (.data s.cfg.localAddr body) s = .next { s with
      started := true, events := [.applied es, .ackSent], result := .nothing,
      rxTable := applyAll s.rxTable es, newDataAvailable := true, wire := s.wire ++ [s.cfg.ackChar],
      rxbuf := [], rxHdrTime := s.clock }) ∧
    ∀ (now : Time) (more : List Byte),
      exec (.poll now) { s with rxq := s.cfg.header :: s.cfg.localAddr :: body ++ more } =
        continuing [.applied es, .ackSent] (exec (.poll now) { s with
          rxq := more, rxTable := applyAll s.rxTable es, newDataAvailable := true, wire := s.wire ++ [s.cfg.ackChar],
          rxbuf := [], rxHdrTime := now })

/-- UnknownIndex: the entries before the offending one stay applied, it and the later ones are not; readError is set, no
ACK is written and `newDataAvailable` is unchanged; RESEND_ALL is sent; one or two stray payload bytes make no difference. A POLL
whose queue begins with such a packet goes on with the bytes after it (R77, R105, R107, R139, R135). The poll of a DATA
instruction at the host's clock is the model's (log 4). -/
def Obligations.UnknownIndexAppliesTheEarlierEntries : Prop :=
  ∀ (s : State) (good : List Entry) (bad : Entry) (later : List Entry) (stray body : List Byte) (c1 c2 : Byte),
    FramingDistinct s.cfg → AddressesDistinct s.cfg → s.rxState = .seekingHeader → stray.length < 3 →
    s.cfg.terminator ∉ payloadBytes (good ++ bad :: later) ++ stray → (∀ e ∈ good, e.index.toNat < s.capRx) →
    s.capRx ≤ bad.index.toNat → 5 + 3 * (good ++ bad :: later).length + stray.length ≤ s.cfg.rxBufCap →
    body = payloadBytes (good ++ bad :: later) ++ stray ++ [s.cfg.terminator, c1, c2] →
    (crc16 s.cfg.crcTable ([s.cfg.header, s.cfg.localAddr] ++ payloadBytes (good ++ bad :: later) ++ stray ++
      [s.cfg.terminator])).toNat = c1.toNat * 256 + c2.toNat →
    (s.rxq = [] → exec (.data s.cfg.localAddr body) s = .next { s with
      started := true, events := [.fault .unknownIndex, .resendAllSent], result := .nothing,
      rxTable := applyAll s.rxTable good, readError := true, wire := s.wire ++ [0xFE, 0xED],
      rxbuf := [], rxHdrTime := s.clock }) ∧
    ∀ (now : Time) (more : List Byte),
      exec (.poll now) { s with rxq := s.cfg.header :: s.cfg.localAddr :: body ++ more } =
        continuing [.fault .unknownIndex, .resendAllSent] (exec (.poll now) { s with
          rxq := more, rxTable := applyAll s.rxTable good, readError := true, wire := s.wire ++ [0xFE, 0xED],
          rxbuf := [], rxHdrTime := now })

/-- ChecksumMismatch: bytes for this endpoint whose first terminator stands before their last two bytes, with a checksum
that is not theirs: nothing is applied, readError is set, RESEND_ALL is sent, no ACK. A POLL whose queue begins with them goes
on with the bytes after them (R137, R135, R107). A packet cut short by a terminator-valued payload byte is such a run of bytes
(R164). -/
def Obligations.CorruptPacketIsRejected : Prop :=
  ∀ (s : State) (now : Time) (bytes : List Byte) (c1 c2 : Byte),
    s.rxState = .seekingHeader → s.cfg.header ≠ s.cfg.ackChar → cmdHi ≠ s.cfg.header →
    s.cfg.localAddr ≠ s.cfg.ackChar → cmdHi ≠ s.cfg.localAddr →
    3 ≤ bytes.length → bytes.length + 2 ≤ s.cfg.rxBufCap →
    bytes[0]? = some s.cfg.header → bytes[1]? = some s.cfg.localAddr →
    bytes.getLast? = some s.cfg.terminator → s.cfg.terminator ∉ bytes.dropLast →
    (crc16 s.cfg.crcTable bytes).toNat ≠ c1.toNat * 256 + c2.toNat →
    (s.rxq = bytes ++ [c1, c2] → exec (.poll now) s = .next { s with
      started := true, events := [.fault .checksumMismatch, .resendAllSent], result := .nothing, clock := now,
      rxq := [], rxbuf := [], rxHdrTime := now, readError := true, wire := s.wire ++ [0xFE, 0xED] }) ∧
    ∀ more, exec (.poll now) { s with rxq := bytes ++ c1 :: c2 :: more } =
      continuing [.fault .checksumMismatch, .resendAllSent] (exec (.poll now) { s with
        rxq := more, rxbuf := [], rxHdrTime := now, readError := true, wire := s.wire ++ [0xFE, 0xED] })

/-- BufferOverflow: RX_BUF_CAP bytes for this endpoint, none of which completes a packet, are all discarded; readError is
set and RESEND_ALL is sent. A POLL whose queue begins with them goes on with the bytes after them (R103, R140, R135, R107). -/
def Obligations.OverflowDiscardsTheBuffer : Prop :=
  ∀ (s : State) (now : Time) (content : List Byte),
    s.rxState = .seekingHeader →
    s.cfg.header ≠ s.cfg.ackChar → cmdHi ≠ s.cfg.header → s.cfg.localAddr ≠ s.cfg.ackChar → cmdHi ≠ s.cfg.localAddr →
    content.length + 2 = s.cfg.rxBufCap → 5 ≤ s.cfg.rxBufCap →
    s.cfg.terminator ∉ (s.cfg.header :: s.cfg.localAddr :: content).take (s.cfg.rxBufCap - 2) →
    (s.rxq = s.cfg.header :: s.cfg.localAddr :: content → exec (.poll now) s = .next { s with
      started := true, events := [.fault .bufferOverflow, .resendAllSent], result := .nothing, clock := now,
      rxq := [], rxbuf := [], rxHdrTime := now, readError := true, wire := s.wire ++ [0xFE, 0xED] }) ∧
    ∀ more, exec (.poll now) { s with rxq := s.cfg.header :: s.cfg.localAddr :: content ++ more } =
      continuing [.fault .bufferOverflow, .resendAllSent] (exec (.poll now) { s with
        rxq := more, rxbuf := [], rxHdrTime := now, readError := true, wire := s.wire ++ [0xFE, 0xED] })

/-- A packet addressed to a different endpoint is discarded with no flag, no event and no table mutation, when none of its
remaining bytes equals ACK_CHAR or HEADER and none begins the command pair (R110). A POLL whose queue begins with it goes on
with the bytes after it (R107), where its last byte begins no command either. -/
def Obligations.PacketForAnotherEndpointIsDiscarded : Prop :=
  ∀ (s : State) (now : Time) (a : Byte) (tail : List Byte),
    s.rxState = .seekingHeader → s.cfg.header ≠ s.cfg.ackChar → cmdHi ≠ s.cfg.header → a ≠ s.cfg.localAddr →
    s.cfg.ackChar ∉ a :: tail → s.cfg.header ∉ tail → ¬ [cmdHi, cmdLo] <:+: a :: tail →
    (s.rxq = s.cfg.header :: a :: tail → exec (.poll now) s = .next { s with
      started := true, events := [], result := .nothing, clock := now, rxq := [], rxbuf := [], rxHdrTime := now }) ∧
    ∀ more, (a :: tail).getLast? ≠ some cmdHi →
      exec (.poll now) { s with rxq := s.cfg.header :: a :: tail ++ more } =
        exec (.poll now) { s with rxq := more, rxbuf := [], rxHdrTime := now }

/-- Under ConfigOK the TooShort fault never arises, from any state that meets the invariant, whatever arrives (R138, R163). -/
def Obligations.TooShortNeverArisesUnderConfigOK : Prop :=
  ∀ (i : Instr) (s t : State), s.Inv → ConfigOK s.cfg s.capTx s.capRx → exec i s = .next t →
    Event.fault .tooShort ∉ t.events

/-! ## Two endpoints -/

/-- What one endpoint of a conforming pair builds, the other applies: the packet A builds at a SERVICE, delivered unchanged to
an endpoint B that is seeking a header with nothing queued, leaves in B's receive table the values of exactly the slots A
chose, acknowledged; the payload must not hold the terminator (R150, R83, R106, R164). -/
def Obligations.PeerAppliesWhatIsBuilt : Prop :=
  ∀ (a b : State) (now later : Time), ConformingPair a b → a.Inv →
    FramingDistinct b.cfg → AddressesDistinct b.cfg →
    a.txState = .idle → dueIndices now a ≠ [] →
    b.cfg.terminator ∉ payloadBytes (entriesAt a (chosenIndices now a)) →
    b.rxState = .seekingHeader → b.rxq = [] →
    ∃ a' b', exec (.service now) a = .next a' ∧ exec (.poll later) { b with rxq := a'.txbuf } = .next b' ∧
      (∀ i ∈ chosenIndices now a, b'.rxTable[i]? = (a.txTable[i]?).map TxSlot.value) ∧
      (∀ i, i ∉ chosenIndices now a → b'.rxTable[i]? = b.rxTable[i]?) ∧
      b'.wire = b.wire ++ [b.cfg.ackChar] ∧ b'.newDataAvailable = true ∧ b'.readError = b.readError

/-- One packet across the perfect link and its acknowledgment back, whatever the table of checksums: A builds, sends byte by
byte at any times, B polls once, A polls once; B holds the values of the slots A chose and A is Idle with those slots clean
and no transmission error raised (R83 to R89, R106, R116, R150, R175). -/
def Obligations.PacketAndAckCrossThePerfectLink : Prop :=
  ∀ (a b : State) (now polled back : Time) (sends : List Time), ConformingPair a b → a.Inv →
    FramingDistinct b.cfg → AddressesDistinct b.cfg →
    a.txState = .idle → dueIndices now a ≠ [] → a.wire = [] → a.rxq = [] → a.rxState = .seekingHeader →
    b.cfg.terminator ∉ payloadBytes (entriesAt a (chosenIndices now a)) →
    b.rxState = .seekingHeader → b.rxq = [] → b.wire = [] →
    sends.length = 5 + 3 * (chosenIndices now a).length →
    ∃ a1 b1 a2, runAll (.service now :: sends.map .service) a = .next a1 ∧
      exec (.poll polled) { b with rxq := a1.wire } = .next b1 ∧
      exec (.poll back) { a1 with rxq := b1.wire } = .next a2 ∧
      (∀ i ∈ chosenIndices now a, b1.rxTable[i]? = (a.txTable[i]?).map TxSlot.value ∧
        (a2.txTable[i]?).map TxSlot.dirty = some false) ∧
      b1.newDataAvailable = true ∧ b1.readError = b.readError ∧
      a2.txState = .idle ∧ a2.transmissionError = a.transmissionError
end

