-- ==== Sys2Proof/Laws/Bytes.lean ====
section
/-! SUPPORT. Byte assembly, the positional end test, and the payload walk. -/

namespace Sys2Proof.Machine

theorem getLsbD_joinBytes (h l : Byte) (i : Nat) :
    (joinBytes h l).getLsbD i = if i < 8 then l.getLsbD i else h.getLsbD (i - 8) := BitVec.getLsbD_append

@[simp] theorem joinBytes_hiByte_loByte (v : Value) : joinBytes (hiByte v) (loByte v) = v := by
  refine BitVec.eq_of_getLsbD_eq fun i hi => ?_
  rw [getLsbD_joinBytes]
  split
  · next h => simp [loByte, h]
  · next h =>
    have h8 : 8 + (i - 8) = i := by omega
    have : i - 8 < 8 := by omega
    simp [hiByte, h8, this]

@[simp] theorem hiByte_joinBytes (h l : Byte) : hiByte (joinBytes h l) = h := by
  refine BitVec.eq_of_getLsbD_eq fun i hi => ?_
  simp [hiByte, getLsbD_joinBytes, hi]

@[simp] theorem loByte_joinBytes (h l : Byte) : loByte (joinBytes h l) = l := by
  refine BitVec.eq_of_getLsbD_eq fun i hi => ?_
  simp [loByte, getLsbD_joinBytes, hi]

theorem getLsbD_joinTime (b3 b2 b1 b0 : Byte) (i : Nat) :
    (joinTime b3 b2 b1 b0).getLsbD i =
      if i < 8 then b0.getLsbD i else if i - 8 < 8 then b1.getLsbD (i - 8)
      else if i - 8 - 8 < 8 then b2.getLsbD (i - 8 - 8) else b3.getLsbD (i - 8 - 8 - 8) := by
  have h1 : (joinTime b3 b2 b1 b0).getLsbD i = if i < 8 then b0.getLsbD i else (b3 ++ b2 ++ b1).getLsbD (i - 8) :=
    BitVec.getLsbD_append
  rw [h1, BitVec.getLsbD_append, BitVec.getLsbD_append]

/-- The host port's four bytes of a time give the time back. -/
@[simp] theorem joinTime_bytes (t : Time) :
    joinTime (t.extractLsb' 24 8) (t.extractLsb' 16 8) (t.extractLsb' 8 8) (t.extractLsb' 0 8) = t := by
  refine BitVec.eq_of_getLsbD_eq fun i hi => ?_
  rw [getLsbD_joinTime]
  by_cases h0 : i < 8
  · simp [h0]
  by_cases h1 : i - 8 < 8
  · have : 8 + (i - 8) = i := by omega
    simp [h0, h1, this]
  by_cases h2 : i - 8 - 8 < 8
  · have : 16 + (i - 8 - 8) = i := by omega
    simp [h0, h1, h2, this]
  · have h3 : i - 8 - 8 - 8 < 8 := by omega
    have : 24 + (i - 8 - 8 - 8) = i := by omega
    simp [h0, h1, h2, h3, this]

@[simp] theorem valueBytes_length (v : Value) : (valueBytes v).length = 2 := rfl

@[simp] theorem entryBytes_length (e : Entry) : (entryBytes e).length = 3 := rfl

@[simp] theorem payloadBytes_nil : payloadBytes [] = [] := rfl

@[simp] theorem payloadBytes_cons (e : Entry) (es : List Entry) :
    payloadBytes (e :: es) = e.index :: hiByte e.value :: loByte e.value :: payloadBytes es := rfl

@[simp] theorem payloadBytes_append (es fs : List Entry) :
    payloadBytes (es ++ fs) = payloadBytes es ++ payloadBytes fs := by simp [payloadBytes]

@[simp] theorem payloadBytes_length (es : List Entry) : (payloadBytes es).length = 3 * es.length := by
  induction es with
  | nil => rfl
  | cons e es ih => simp [ih]; omega

/-- The walk of whole entries undoes the layout of R45, whatever one or two bytes are left over (R77). -/
theorem entriesOf_payloadBytes_append (es : List Entry) (stray : List Byte) (h : stray.length < 3) :
    entriesOf (payloadBytes es ++ stray) = es := by
  induction es with
  | nil =>
    match stray, h with
    | [], _ => rfl
    | [_], _ => rfl
    | [_, _], _ => rfl
  | cons e es ih => simp [entriesOf, ih]

@[simp] theorem entriesOf_payloadBytes (es : List Entry) : entriesOf (payloadBytes es) = es := by
  simpa using entriesOf_payloadBytes_append es [] (by simp)

/-- Three bytes of a whole payload are one entry, so bytes that are whole entries are given back by the layout. -/
theorem payloadBytes_entriesOf (bytes : List Byte) (h : bytes.length % 3 = 0) :
    payloadBytes (entriesOf bytes) = bytes := by
  match bytes, h with
  | [], _ => rfl
  | [_], h => simp at h
  | [_, _], h => simp at h
  | i :: a :: b :: rest, h =>
    have hr : rest.length % 3 = 0 := by
      simp only [List.length_cons] at h
      omega
    simp [entriesOf, payloadBytes_entriesOf rest hr]

/-- The byte before the last two (R102). -/
@[simp] theorem threeBack_append (buf : List Byte) (t x y : Byte) : threeBack (buf ++ [t, x, y]) = t := by
  simp [threeBack]

/-- The byte three places behind the end, by its position (R102). -/
theorem threeBack_eq_getElem? (buf : List Byte) (h : 3 ≤ buf.length) : buf[buf.length - 3]? = some (threeBack buf) := by
  obtain ⟨pre, l, rfl, hl⟩ : ∃ pre l, buf = pre ++ l ∧ l.length = 3 :=
    ⟨buf.take (buf.length - 3), buf.drop (buf.length - 3), by simp, by simp; omega⟩
  match l, hl with
  | [t, x, y], _ => simp

theorem completes_iff (c : LinkConfig) (buf : List Byte) : completes c buf = true ↔ threeBack buf = c.terminator := by
  simp [completes]

theorem endsPacket_iff (c : LinkConfig) (buf : List Byte) :
    endsPacket c buf = true ↔ threeBack buf = c.terminator ∨ buf.length = c.rxBufCap := by
  simp [endsPacket, completes]

/-- The bytes the receive machine takes, with what stands after them, are the bytes it was given. -/
theorem takeBody_append {c : LinkConfig} {buf bytes body after : List Byte}
    (h : takeBody c buf bytes = some (body, after)) : bytes = body ++ after := by
  induction bytes generalizing buf body with
  | nil => simp [takeBody] at h
  | cons b rest ih =>
    rw [takeBody] at h
    split at h
    · simp only [Option.some.injEq, Prod.mk.injEq] at h
      obtain ⟨rfl, rfl⟩ := h
      rfl
    · obtain ⟨r, hr, hb⟩ := Option.map_eq_some_iff.mp h
      simp only [Prod.mk.injEq] at hb
      obtain ⟨rfl, rfl⟩ := hb
      simp [ih (body := r.1) (by simpa using hr)]

/-- Where a packet ends does not depend on what stands after it. -/
theorem takeBody_self {c : LinkConfig} {buf bytes body after : List Byte}
    (h : takeBody c buf bytes = some (body, after)) : takeBody c buf body = some (body, []) := by
  induction bytes generalizing buf body with
  | nil => simp [takeBody] at h
  | cons b rest ih =>
    rw [takeBody] at h
    split at h
    · next he =>
      simp only [Option.some.injEq, Prod.mk.injEq] at h
      obtain ⟨rfl, rfl⟩ := h
      simp [takeBody, he]
    · next he =>
      obtain ⟨r, hr, hb⟩ := Option.map_eq_some_iff.mp h
      simp only [Prod.mk.injEq] at hb
      obtain ⟨rfl, rfl⟩ := hb
      simp [takeBody, he, ih (body := r.1) (by simpa using hr)]

/-- A conforming packet ends at its second checksum byte, if no byte before its terminator equals the terminator and it
fits the buffer (R54, R102). -/
theorem takeBody_conforming (c : LinkConfig) (buf payload : List Byte) (x y : Byte) (hbuf : 2 ≤ buf.length)
    (hno : c.terminator ∉ buf ++ payload) (hcap : buf.length + payload.length + 3 ≤ c.rxBufCap) :
    takeBody c buf (payload ++ [c.terminator, x, y]) = some (payload ++ [c.terminator, x, y], []) := by
  have last : ∀ pre : List Byte, 2 ≤ pre.length → c.terminator ∉ pre → ∃ q u v, pre = q ++ [u, v] ∧
      u ≠ c.terminator ∧ v ≠ c.terminator := by
    intro pre h2 hn
    obtain ⟨q, l, rfl, hl⟩ : ∃ q l, pre = q ++ l ∧ l.length = 2 :=
      ⟨pre.take (pre.length - 2), pre.drop (pre.length - 2), by simp, by simp; omega⟩
    match l, hl with
    | [u, v], _ =>
      simp only [List.mem_append, List.mem_cons, not_or] at hn
      exact ⟨q, u, v, rfl, fun h => hn.2.1 h.symm, fun h => hn.2.2.1 h.symm⟩
  have step : ∀ pre (b : Byte), 2 ≤ pre.length → c.terminator ∉ pre → (pre ++ [b]).length < c.rxBufCap →
      endsPacket c (pre ++ [b]) = false := by
    intro pre b h2 hn hlen
    obtain ⟨q, u, v, rfl, hu, -⟩ := last pre h2 hn
    have : threeBack (q ++ [u, v] ++ [b]) = u := by simp
    rw [← Bool.not_eq_true, endsPacket_iff, this]
    simp only [not_or]
    exact ⟨hu, by omega⟩
  induction payload generalizing buf with
  | nil =>
    simp only [List.append_nil] at hno
    simp only [List.length_nil] at hcap
    obtain ⟨q, u, v, rfl, hu, hv⟩ := last buf hbuf hno
    have e1 : endsPacket c (q ++ [u, v] ++ [c.terminator]) = false := step _ _ hbuf hno (by simp at hcap ⊢; omega)
    have e2 : endsPacket c (q ++ [u, v] ++ [c.terminator] ++ [x]) = false := by
      have : threeBack (q ++ [u, v] ++ [c.terminator] ++ [x]) = v := by
        simpa using threeBack_append (q ++ [u]) v c.terminator x
      rw [← Bool.not_eq_true, endsPacket_iff, this]
      simp only [not_or]
      exact ⟨hv, by simp at hcap ⊢; omega⟩
    have e3 : endsPacket c (q ++ [u, v] ++ [c.terminator] ++ [x] ++ [y]) = true := by
      rw [endsPacket_iff]
      left
      simpa using threeBack_append (q ++ [u, v]) c.terminator x y
    simp only [List.nil_append, takeBody, e1, e2, e3, Bool.false_eq_true, if_false, if_true, Option.map_some]
  | cons b payload ih =>
    have hno' : c.terminator ∉ buf := fun h => hno (by simp [h])
    have e : endsPacket c (buf ++ [b]) = false := step _ _ hbuf hno' (by simp at hcap ⊢; omega)
    have := ih (buf ++ [b]) (by simp; omega) (by simpa using hno) (by simp at hcap ⊢; omega)
    simp [takeBody, e, this]

/-- Bytes that fill the buffer exactly, none of which stands where it would complete the packet, end it at the buffer's
capacity and do not complete it (R102, R103). -/
theorem takeBody_filling (c : LinkConfig) (buf content : List Byte) (hbuf : 2 ≤ buf.length) (hne : content ≠ [])
    (hlen : buf.length + content.length = c.rxBufCap) (hno : c.terminator ∉ (buf ++ content).take (c.rxBufCap - 2)) :
    takeBody c buf content = some (content, []) ∧ completes c (buf ++ content) = false := by
  have never : ∀ pre : List Byte, 3 ≤ pre.length → pre.length ≤ c.rxBufCap → pre <+: buf ++ content →
      completes c pre = false := by
    intro pre h3 hle hp
    rw [← Bool.not_eq_true, completes_iff]
    intro h
    have e := threeBack_eq_getElem? pre h3
    rw [h] at e
    have hmem : c.terminator ∈ pre.take (c.rxBufCap - 2) := by
      rw [List.mem_iff_getElem?]
      exact ⟨pre.length - 3, by rw [List.getElem?_take, if_pos (by omega), e]⟩
    exact hno ((hp.take _).subset hmem)
  refine ⟨?_, never _ (by cases content <;> simp_all; omega) (by simp; omega) (List.prefix_refl _)⟩
  induction content generalizing buf with
  | nil => exact absurd rfl hne
  | cons b rest ih =>
    have hp : buf ++ [b] <+: buf ++ b :: rest := ⟨rest, by simp⟩
    have hc := never (buf ++ [b]) (by simp; omega) (by simp at hlen ⊢; omega) hp
    cases rest with
    | nil =>
      have : endsPacket c (buf ++ [b]) = true := by
        rw [endsPacket_iff]; right; simpa using hlen
      simp [takeBody, this]
    | cons x rest =>
      have : endsPacket c (buf ++ [b]) = false := by
        have hl : buf.length + 1 ≠ c.rxBufCap := by simp at hlen; omega
        simp [endsPacket, hc, hl]
      have hr := ih (buf ++ [b]) (by simp; omega) (by simp) (by simp at hlen ⊢; omega)
        (by simpa using hno) (by simpa using never)
      rw [takeBody, this, hr]
      rfl

end Sys2Proof.Machine
end

