-- ==== Sys2Proof/Laws/Codec.lean ====
section
/-! SUPPORT. The CRC engine byte by byte, and the parts of a packet. -/

namespace Sys2Proof.Machine

@[simp] theorem crc16_nil (table : Vector Value 256) : crc16 table [] = Config.crcInit := rfl

/-- One more byte is one more step (R65). -/
theorem crc16_append_singleton (table : Vector Value 256) (bytes : List Byte) (b : Byte) :
    crc16 table (bytes ++ [b]) = crcStep table (crc16 table bytes) b := by
  simp [crc16]

/-- The engine may be run incrementally (R65). -/
theorem crc16_append (table : Vector Value 256) (a b : List Byte) :
    crc16 table (a ++ b) = b.foldl (crcStep table) (crc16 table a) := by
  simp [crc16]

theorem hiByte_eq_shift (v : Value) : hiByte v = (v >>> (8 : Nat)).setWidth 8 := by
  refine BitVec.eq_of_getLsbD_eq fun i hi => ?_
  simp [hiByte, hi]

theorem loByte_eq_setWidth (v : Value) : loByte v = v.setWidth 8 := by
  refine BitVec.eq_of_getLsbD_eq fun i hi => ?_
  simp [loByte, hi]

theorem toNat_joinBytes (h l : Byte) : (joinBytes h l).toNat = h.toNat * 256 + l.toNat := by
  have : (joinBytes h l).toNat = h.toNat <<< 8 ||| l.toNat := BitVec.toNat_append h l
  rw [this, Nat.shiftLeft_eq, ← Nat.shiftLeft_eq, ← Nat.shiftLeft_add_eq_or_of_lt l.isLt, Nat.shiftLeft_eq]

/-- Two checksum bytes are a checksum's bytes exactly when they are its big-endian number. -/
theorem valueBytes_eq_iff (v : Value) (c1 c2 : Byte) : [c1, c2] = valueBytes v ↔ v.toNat = c1.toNat * 256 + c2.toNat := by
  constructor
  · intro h
    simp only [valueBytes, List.cons.injEq, and_true] at h
    rw [h.1, h.2, ← toNat_joinBytes, joinBytes_hiByte_loByte]
  · intro h
    have : v = joinBytes c1 c2 := BitVec.eq_of_toNat_eq (by rw [h, toNat_joinBytes])
    simp [this, valueBytes]

@[simp] theorem packetBody_length (c : LinkConfig) (addr : Byte) (es : List Entry) :
    (packetBody c addr es).length = 3 + 3 * es.length := by
  simp [packetBody]; omega

@[simp] theorem encodePacket_length (c : LinkConfig) (addr : Byte) (es : List Entry) :
    (encodePacket c addr es).length = 5 + 3 * es.length := by
  simp [encodePacket]; omega

theorem checksumMatches_append (c : LinkConfig) (covered : List Byte) (c1 c2 : Byte) :
    checksumMatches c (covered ++ [c1, c2]) = true ↔ (crc16 c.crcTable covered).toNat = c1.toNat * 256 + c2.toNat := by
  simp [checksumMatches, valueBytes_eq_iff]

theorem payloadOf_packet (h a m c1 c2 : Byte) (payload : List Byte) :
    payloadOf (h :: a :: (payload ++ [m, c1, c2])) = payload := by
  simp [payloadOf]

/-- DECODE of at least five bytes, its last two apart (R76, R77). -/
theorem decodePacket_append (c : LinkConfig) (covered : List Byte) (c1 c2 : Byte) (h : 3 ≤ covered.length) :
    decodePacket c (covered ++ [c1, c2]) =
      if (crc16 c.crcTable covered).toNat = c1.toNat * 256 + c2.toNat
      then .ok (entriesOf (payloadOf (covered ++ [c1, c2]))) else .checksumMismatch := by
  have hl : ¬ (covered ++ [c1, c2]).length < Config.minPkt := by simp [Config.minPkt]; omega
  unfold decodePacket
  rw [if_neg hl]
  by_cases hc : (crc16 c.crcTable covered).toNat = c1.toNat * 256 + c2.toNat
  · rw [if_pos hc, if_pos ((checksumMatches_append c covered c1 c2).mpr hc)]
  · rw [if_neg hc, if_neg (fun h => hc ((checksumMatches_append c covered c1 c2).mp h))]

/-- An encoded packet is its covered bytes and two bytes that are their checksum. -/
theorem encodePacket_eq (c : LinkConfig) (addr : Byte) (es : List Entry) :
    encodePacket c addr es = packetBody c addr es ++
      [hiByte (crc16 c.crcTable (packetBody c addr es)), loByte (crc16 c.crcTable (packetBody c addr es))] := rfl

/-- An encoded packet after its header and address. -/
theorem encodePacket_eq_cons (c : LinkConfig) (addr : Byte) (es : List Entry) :
    encodePacket c addr es = c.header :: addr :: (payloadBytes es ++
      [c.terminator, hiByte (crc16 c.crcTable (packetBody c addr es)), loByte (crc16 c.crcTable (packetBody c addr es))]) := by
  simp [encodePacket_eq, packetBody]

end Sys2Proof.Machine
end

