-- ==== Sys2Proof/Laws/Crc.lean ====
section
/-! SUPPORT. The checksum engine: what linearity of the table gives (R68). -/

namespace Sys2Proof.Machine

/-- Under R68's condition one step is linear in the register and the byte together. -/
theorem crcStep_xor {t : Vector Value 256} (ht : DetectsSingleBits t) (r d : Value) (b m : Byte) :
    crcStep t (r ^^^ d) (b ^^^ m) = crcStep t r b ^^^ crcStep t d m := by
  have hh : hiByte (r ^^^ d) ^^^ (b ^^^ m) = (hiByte r ^^^ b) ^^^ (hiByte d ^^^ m) := by
    refine BitVec.eq_of_getLsbD_eq fun i hi => ?_
    simp [hiByte, hi]
    cases r.getLsbD (8 + i) <;> cases d.getLsbD (8 + i) <;> cases b.getLsbD i <;> cases m.getLsbD i <;> simp_all
  have k := ht.1 (hiByte r ^^^ b) (hiByte d ^^^ m)
  simp only [crcStep, hh, k, BitVec.shiftLeft_xor_distrib]
  ac_rfl

/-- A difference in the register survives any bytes that follow. -/
theorem crc_difference_survives {t : Vector Value 256} (ht : DetectsSingleBits t) (bytes : List Byte) (r d : Value)
    (hd : d ≠ 0) : bytes.foldl (crcStep t) (r ^^^ d) ≠ bytes.foldl (crcStep t) r := by
  induction bytes generalizing r d with
  | nil =>
    intro h
    apply hd
    have : r ^^^ (r ^^^ d) = r ^^^ r := by rw [show r ^^^ d = r from h]
    rwa [← BitVec.xor_assoc, BitVec.xor_self, BitVec.zero_xor] at this
  | cons b rest ih =>
    have := crcStep_xor ht r d b 0
    rw [show b ^^^ (0 : Byte) = b from BitVec.xor_zero] at this
    rw [List.foldl_cons, List.foldl_cons, this]
    exact ih _ _ (fun h => hd (ht.2.2 d h))

end Sys2Proof.Machine
end

