-- ==== Sys2Proof/Laws/State.lean ====
section
/-! SUPPORT. One lemma per field for each shared update of State, so that no later proof unfolds a record update. -/

namespace Sys2Proof.Machine

@[simp] theorem emit_txTable (e : Event) (s : State) : (emit e s).txTable = s.txTable := rfl
@[simp] theorem emit_rxTable (e : Event) (s : State) : (emit e s).rxTable = s.rxTable := rfl
@[simp] theorem emit_txState (e : Event) (s : State) : (emit e s).txState = s.txState := rfl
@[simp] theorem emit_txbuf (e : Event) (s : State) : (emit e s).txbuf = s.txbuf := rfl
@[simp] theorem emit_txPos (e : Event) (s : State) : (emit e s).txPos = s.txPos := rfl
@[simp] theorem emit_txStartTime (e : Event) (s : State) : (emit e s).txStartTime = s.txStartTime := rfl
@[simp] theorem emit_rxState (e : Event) (s : State) : (emit e s).rxState = s.rxState := rfl
@[simp] theorem emit_rxbuf (e : Event) (s : State) : (emit e s).rxbuf = s.rxbuf := rfl
@[simp] theorem emit_rxHdrTime (e : Event) (s : State) : (emit e s).rxHdrTime = s.rxHdrTime := rfl
@[simp] theorem emit_transmissionError (e : Event) (s : State) : (emit e s).transmissionError = s.transmissionError := rfl
@[simp] theorem emit_readError (e : Event) (s : State) : (emit e s).readError = s.readError := rfl
@[simp] theorem emit_newDataAvailable (e : Event) (s : State) : (emit e s).newDataAvailable = s.newDataAvailable := rfl
@[simp] theorem emit_started (e : Event) (s : State) : (emit e s).started = s.started := rfl
@[simp] theorem emit_cfg (e : Event) (s : State) : (emit e s).cfg = s.cfg := rfl
@[simp] theorem emit_rxq (e : Event) (s : State) : (emit e s).rxq = s.rxq := rfl
@[simp] theorem emit_wire (e : Event) (s : State) : (emit e s).wire = s.wire := rfl
@[simp] theorem emit_clock (e : Event) (s : State) : (emit e s).clock = s.clock := rfl
@[simp] theorem emit_events (e : Event) (s : State) : (emit e s).events = s.events ++ [e] := rfl
@[simp] theorem emit_result (e : Event) (s : State) : (emit e s).result = s.result := rfl
@[simp] theorem emit_agenda (e : Event) (s : State) : (emit e s).agenda = s.agenda := rfl

@[simp] theorem wireWrite_txTable (b : Byte) (s : State) : (wireWrite b s).txTable = s.txTable := rfl
@[simp] theorem wireWrite_rxTable (b : Byte) (s : State) : (wireWrite b s).rxTable = s.rxTable := rfl
@[simp] theorem wireWrite_txState (b : Byte) (s : State) : (wireWrite b s).txState = s.txState := rfl
@[simp] theorem wireWrite_txbuf (b : Byte) (s : State) : (wireWrite b s).txbuf = s.txbuf := rfl
@[simp] theorem wireWrite_txPos (b : Byte) (s : State) : (wireWrite b s).txPos = s.txPos := rfl
@[simp] theorem wireWrite_txStartTime (b : Byte) (s : State) : (wireWrite b s).txStartTime = s.txStartTime := rfl
@[simp] theorem wireWrite_rxState (b : Byte) (s : State) : (wireWrite b s).rxState = s.rxState := rfl
@[simp] theorem wireWrite_rxbuf (b : Byte) (s : State) : (wireWrite b s).rxbuf = s.rxbuf := rfl
@[simp] theorem wireWrite_rxHdrTime (b : Byte) (s : State) : (wireWrite b s).rxHdrTime = s.rxHdrTime := rfl
@[simp] theorem wireWrite_transmissionError (b : Byte) (s : State) : (wireWrite b s).transmissionError = s.transmissionError := rfl
@[simp] theorem wireWrite_readError (b : Byte) (s : State) : (wireWrite b s).readError = s.readError := rfl
@[simp] theorem wireWrite_newDataAvailable (b : Byte) (s : State) : (wireWrite b s).newDataAvailable = s.newDataAvailable := rfl
@[simp] theorem wireWrite_started (b : Byte) (s : State) : (wireWrite b s).started = s.started := rfl
@[simp] theorem wireWrite_cfg (b : Byte) (s : State) : (wireWrite b s).cfg = s.cfg := rfl
@[simp] theorem wireWrite_rxq (b : Byte) (s : State) : (wireWrite b s).rxq = s.rxq := rfl
@[simp] theorem wireWrite_wire (b : Byte) (s : State) : (wireWrite b s).wire = s.wire ++ [b] := rfl
@[simp] theorem wireWrite_clock (b : Byte) (s : State) : (wireWrite b s).clock = s.clock := rfl
@[simp] theorem wireWrite_events (b : Byte) (s : State) : (wireWrite b s).events = s.events := rfl
@[simp] theorem wireWrite_result (b : Byte) (s : State) : (wireWrite b s).result = s.result := rfl
@[simp] theorem wireWrite_agenda (b : Byte) (s : State) : (wireWrite b s).agenda = s.agenda := rfl

@[simp] theorem rxPop_txTable (s : State) : (rxPop s).txTable = s.txTable := rfl
@[simp] theorem rxPop_rxTable (s : State) : (rxPop s).rxTable = s.rxTable := rfl
@[simp] theorem rxPop_txState (s : State) : (rxPop s).txState = s.txState := rfl
@[simp] theorem rxPop_txbuf (s : State) : (rxPop s).txbuf = s.txbuf := rfl
@[simp] theorem rxPop_txPos (s : State) : (rxPop s).txPos = s.txPos := rfl
@[simp] theorem rxPop_txStartTime (s : State) : (rxPop s).txStartTime = s.txStartTime := rfl
@[simp] theorem rxPop_rxState (s : State) : (rxPop s).rxState = s.rxState := rfl
@[simp] theorem rxPop_rxbuf (s : State) : (rxPop s).rxbuf = s.rxbuf := rfl
@[simp] theorem rxPop_rxHdrTime (s : State) : (rxPop s).rxHdrTime = s.rxHdrTime := rfl
@[simp] theorem rxPop_transmissionError (s : State) : (rxPop s).transmissionError = s.transmissionError := rfl
@[simp] theorem rxPop_readError (s : State) : (rxPop s).readError = s.readError := rfl
@[simp] theorem rxPop_newDataAvailable (s : State) : (rxPop s).newDataAvailable = s.newDataAvailable := rfl
@[simp] theorem rxPop_started (s : State) : (rxPop s).started = s.started := rfl
@[simp] theorem rxPop_cfg (s : State) : (rxPop s).cfg = s.cfg := rfl
@[simp] theorem rxPop_rxq (s : State) : (rxPop s).rxq = s.rxq.tail := rfl
@[simp] theorem rxPop_wire (s : State) : (rxPop s).wire = s.wire := rfl
@[simp] theorem rxPop_clock (s : State) : (rxPop s).clock = s.clock := rfl
@[simp] theorem rxPop_events (s : State) : (rxPop s).events = s.events := rfl
@[simp] theorem rxPop_result (s : State) : (rxPop s).result = s.result := rfl
@[simp] theorem rxPop_agenda (s : State) : (rxPop s).agenda = s.agenda := rfl

@[simp] theorem rxArrive_txTable (bytes : List Byte) (s : State) : (rxArrive bytes s).txTable = s.txTable := rfl
@[simp] theorem rxArrive_rxTable (bytes : List Byte) (s : State) : (rxArrive bytes s).rxTable = s.rxTable := rfl
@[simp] theorem rxArrive_txState (bytes : List Byte) (s : State) : (rxArrive bytes s).txState = s.txState := rfl
@[simp] theorem rxArrive_txbuf (bytes : List Byte) (s : State) : (rxArrive bytes s).txbuf = s.txbuf := rfl
@[simp] theorem rxArrive_txPos (bytes : List Byte) (s : State) : (rxArrive bytes s).txPos = s.txPos := rfl
@[simp] theorem rxArrive_txStartTime (bytes : List Byte) (s : State) : (rxArrive bytes s).txStartTime = s.txStartTime := rfl
@[simp] theorem rxArrive_rxState (bytes : List Byte) (s : State) : (rxArrive bytes s).rxState = s.rxState := rfl
@[simp] theorem rxArrive_rxbuf (bytes : List Byte) (s : State) : (rxArrive bytes s).rxbuf = s.rxbuf := rfl
@[simp] theorem rxArrive_rxHdrTime (bytes : List Byte) (s : State) : (rxArrive bytes s).rxHdrTime = s.rxHdrTime := rfl
@[simp] theorem rxArrive_transmissionError (bytes : List Byte) (s : State) : (rxArrive bytes s).transmissionError = s.transmissionError := rfl
@[simp] theorem rxArrive_readError (bytes : List Byte) (s : State) : (rxArrive bytes s).readError = s.readError := rfl
@[simp] theorem rxArrive_newDataAvailable (bytes : List Byte) (s : State) : (rxArrive bytes s).newDataAvailable = s.newDataAvailable := rfl
@[simp] theorem rxArrive_started (bytes : List Byte) (s : State) : (rxArrive bytes s).started = s.started := rfl
@[simp] theorem rxArrive_cfg (bytes : List Byte) (s : State) : (rxArrive bytes s).cfg = s.cfg := rfl
@[simp] theorem rxArrive_rxq (bytes : List Byte) (s : State) : (rxArrive bytes s).rxq = s.rxq ++ bytes := rfl
@[simp] theorem rxArrive_wire (bytes : List Byte) (s : State) : (rxArrive bytes s).wire = s.wire := rfl
@[simp] theorem rxArrive_clock (bytes : List Byte) (s : State) : (rxArrive bytes s).clock = s.clock := rfl
@[simp] theorem rxArrive_events (bytes : List Byte) (s : State) : (rxArrive bytes s).events = s.events := rfl
@[simp] theorem rxArrive_result (bytes : List Byte) (s : State) : (rxArrive bytes s).result = s.result := rfl
@[simp] theorem rxArrive_agenda (bytes : List Byte) (s : State) : (rxArrive bytes s).agenda = s.agenda := rfl

@[simp] theorem wireDepart_txTable (n : Nat) (s : State) : (wireDepart n s).txTable = s.txTable := rfl
@[simp] theorem wireDepart_rxTable (n : Nat) (s : State) : (wireDepart n s).rxTable = s.rxTable := rfl
@[simp] theorem wireDepart_txState (n : Nat) (s : State) : (wireDepart n s).txState = s.txState := rfl
@[simp] theorem wireDepart_txbuf (n : Nat) (s : State) : (wireDepart n s).txbuf = s.txbuf := rfl
@[simp] theorem wireDepart_txPos (n : Nat) (s : State) : (wireDepart n s).txPos = s.txPos := rfl
@[simp] theorem wireDepart_txStartTime (n : Nat) (s : State) : (wireDepart n s).txStartTime = s.txStartTime := rfl
@[simp] theorem wireDepart_rxState (n : Nat) (s : State) : (wireDepart n s).rxState = s.rxState := rfl
@[simp] theorem wireDepart_rxbuf (n : Nat) (s : State) : (wireDepart n s).rxbuf = s.rxbuf := rfl
@[simp] theorem wireDepart_rxHdrTime (n : Nat) (s : State) : (wireDepart n s).rxHdrTime = s.rxHdrTime := rfl
@[simp] theorem wireDepart_transmissionError (n : Nat) (s : State) : (wireDepart n s).transmissionError = s.transmissionError := rfl
@[simp] theorem wireDepart_readError (n : Nat) (s : State) : (wireDepart n s).readError = s.readError := rfl
@[simp] theorem wireDepart_newDataAvailable (n : Nat) (s : State) : (wireDepart n s).newDataAvailable = s.newDataAvailable := rfl
@[simp] theorem wireDepart_started (n : Nat) (s : State) : (wireDepart n s).started = s.started := rfl
@[simp] theorem wireDepart_cfg (n : Nat) (s : State) : (wireDepart n s).cfg = s.cfg := rfl
@[simp] theorem wireDepart_rxq (n : Nat) (s : State) : (wireDepart n s).rxq = s.rxq := rfl
@[simp] theorem wireDepart_wire (n : Nat) (s : State) : (wireDepart n s).wire = s.wire.drop n := rfl
@[simp] theorem wireDepart_clock (n : Nat) (s : State) : (wireDepart n s).clock = s.clock := rfl
@[simp] theorem wireDepart_events (n : Nat) (s : State) : (wireDepart n s).events = s.events := rfl
@[simp] theorem wireDepart_result (n : Nat) (s : State) : (wireDepart n s).result = s.result := rfl
@[simp] theorem wireDepart_agenda (n : Nat) (s : State) : (wireDepart n s).agenda = s.agenda := rfl

@[simp] theorem clearOutputs_txTable (s : State) : (clearOutputs s).txTable = s.txTable := rfl
@[simp] theorem clearOutputs_rxTable (s : State) : (clearOutputs s).rxTable = s.rxTable := rfl
@[simp] theorem clearOutputs_txState (s : State) : (clearOutputs s).txState = s.txState := rfl
@[simp] theorem clearOutputs_txbuf (s : State) : (clearOutputs s).txbuf = s.txbuf := rfl
@[simp] theorem clearOutputs_txPos (s : State) : (clearOutputs s).txPos = s.txPos := rfl
@[simp] theorem clearOutputs_txStartTime (s : State) : (clearOutputs s).txStartTime = s.txStartTime := rfl
@[simp] theorem clearOutputs_rxState (s : State) : (clearOutputs s).rxState = s.rxState := rfl
@[simp] theorem clearOutputs_rxbuf (s : State) : (clearOutputs s).rxbuf = s.rxbuf := rfl
@[simp] theorem clearOutputs_rxHdrTime (s : State) : (clearOutputs s).rxHdrTime = s.rxHdrTime := rfl
@[simp] theorem clearOutputs_transmissionError (s : State) : (clearOutputs s).transmissionError = s.transmissionError := rfl
@[simp] theorem clearOutputs_readError (s : State) : (clearOutputs s).readError = s.readError := rfl
@[simp] theorem clearOutputs_newDataAvailable (s : State) : (clearOutputs s).newDataAvailable = s.newDataAvailable := rfl
@[simp] theorem clearOutputs_started (s : State) : (clearOutputs s).started = s.started := rfl
@[simp] theorem clearOutputs_cfg (s : State) : (clearOutputs s).cfg = s.cfg := rfl
@[simp] theorem clearOutputs_rxq (s : State) : (clearOutputs s).rxq = s.rxq := rfl
@[simp] theorem clearOutputs_wire (s : State) : (clearOutputs s).wire = s.wire := rfl
@[simp] theorem clearOutputs_clock (s : State) : (clearOutputs s).clock = s.clock := rfl
@[simp] theorem clearOutputs_events (s : State) : (clearOutputs s).events = [] := rfl
@[simp] theorem clearOutputs_result (s : State) : (clearOutputs s).result = .nothing := rfl
@[simp] theorem clearOutputs_agenda (s : State) : (clearOutputs s).agenda = s.agenda := rfl

@[simp] theorem beginOp_txTable (s : State) : (beginOp s).txTable = s.txTable := rfl
@[simp] theorem beginOp_rxTable (s : State) : (beginOp s).rxTable = s.rxTable := rfl
@[simp] theorem beginOp_txState (s : State) : (beginOp s).txState = s.txState := rfl
@[simp] theorem beginOp_txbuf (s : State) : (beginOp s).txbuf = s.txbuf := rfl
@[simp] theorem beginOp_txPos (s : State) : (beginOp s).txPos = s.txPos := rfl
@[simp] theorem beginOp_txStartTime (s : State) : (beginOp s).txStartTime = s.txStartTime := rfl
@[simp] theorem beginOp_rxState (s : State) : (beginOp s).rxState = s.rxState := rfl
@[simp] theorem beginOp_rxbuf (s : State) : (beginOp s).rxbuf = s.rxbuf := rfl
@[simp] theorem beginOp_rxHdrTime (s : State) : (beginOp s).rxHdrTime = s.rxHdrTime := rfl
@[simp] theorem beginOp_transmissionError (s : State) : (beginOp s).transmissionError = s.transmissionError := rfl
@[simp] theorem beginOp_readError (s : State) : (beginOp s).readError = s.readError := rfl
@[simp] theorem beginOp_newDataAvailable (s : State) : (beginOp s).newDataAvailable = s.newDataAvailable := rfl
@[simp] theorem beginOp_started (s : State) : (beginOp s).started = true := rfl
@[simp] theorem beginOp_cfg (s : State) : (beginOp s).cfg = s.cfg := rfl
@[simp] theorem beginOp_rxq (s : State) : (beginOp s).rxq = s.rxq := rfl
@[simp] theorem beginOp_wire (s : State) : (beginOp s).wire = s.wire := rfl
@[simp] theorem beginOp_clock (s : State) : (beginOp s).clock = s.clock := rfl
@[simp] theorem beginOp_events (s : State) : (beginOp s).events = [] := rfl
@[simp] theorem beginOp_result (s : State) : (beginOp s).result = .nothing := rfl
@[simp] theorem beginOp_agenda (s : State) : (beginOp s).agenda = s.agenda := rfl

@[simp] theorem answer_txTable (r : Result) (s : State) : (answer r s).txTable = s.txTable := rfl
@[simp] theorem answer_rxTable (r : Result) (s : State) : (answer r s).rxTable = s.rxTable := rfl
@[simp] theorem answer_txState (r : Result) (s : State) : (answer r s).txState = s.txState := rfl
@[simp] theorem answer_txbuf (r : Result) (s : State) : (answer r s).txbuf = s.txbuf := rfl
@[simp] theorem answer_txPos (r : Result) (s : State) : (answer r s).txPos = s.txPos := rfl
@[simp] theorem answer_txStartTime (r : Result) (s : State) : (answer r s).txStartTime = s.txStartTime := rfl
@[simp] theorem answer_rxState (r : Result) (s : State) : (answer r s).rxState = s.rxState := rfl
@[simp] theorem answer_rxbuf (r : Result) (s : State) : (answer r s).rxbuf = s.rxbuf := rfl
@[simp] theorem answer_rxHdrTime (r : Result) (s : State) : (answer r s).rxHdrTime = s.rxHdrTime := rfl
@[simp] theorem answer_transmissionError (r : Result) (s : State) : (answer r s).transmissionError = s.transmissionError := rfl
@[simp] theorem answer_readError (r : Result) (s : State) : (answer r s).readError = s.readError := rfl
@[simp] theorem answer_newDataAvailable (r : Result) (s : State) : (answer r s).newDataAvailable = s.newDataAvailable := rfl
@[simp] theorem answer_started (r : Result) (s : State) : (answer r s).started = s.started := rfl
@[simp] theorem answer_cfg (r : Result) (s : State) : (answer r s).cfg = s.cfg := rfl
@[simp] theorem answer_rxq (r : Result) (s : State) : (answer r s).rxq = s.rxq := rfl
@[simp] theorem answer_wire (r : Result) (s : State) : (answer r s).wire = s.wire := rfl
@[simp] theorem answer_clock (r : Result) (s : State) : (answer r s).clock = s.clock := rfl
@[simp] theorem answer_events (r : Result) (s : State) : (answer r s).events = s.events := rfl
@[simp] theorem answer_result (r : Result) (s : State) : (answer r s).result = r := rfl
@[simp] theorem answer_agenda (r : Result) (s : State) : (answer r s).agenda = s.agenda := rfl

@[simp] theorem sampleClock_txTable (now : Time) (s : State) : (sampleClock now s).txTable = s.txTable := rfl
@[simp] theorem sampleClock_rxTable (now : Time) (s : State) : (sampleClock now s).rxTable = s.rxTable := rfl
@[simp] theorem sampleClock_txState (now : Time) (s : State) : (sampleClock now s).txState = s.txState := rfl
@[simp] theorem sampleClock_txbuf (now : Time) (s : State) : (sampleClock now s).txbuf = s.txbuf := rfl
@[simp] theorem sampleClock_txPos (now : Time) (s : State) : (sampleClock now s).txPos = s.txPos := rfl
@[simp] theorem sampleClock_txStartTime (now : Time) (s : State) : (sampleClock now s).txStartTime = s.txStartTime := rfl
@[simp] theorem sampleClock_rxState (now : Time) (s : State) : (sampleClock now s).rxState = s.rxState := rfl
@[simp] theorem sampleClock_rxbuf (now : Time) (s : State) : (sampleClock now s).rxbuf = s.rxbuf := rfl
@[simp] theorem sampleClock_rxHdrTime (now : Time) (s : State) : (sampleClock now s).rxHdrTime = s.rxHdrTime := rfl
@[simp] theorem sampleClock_transmissionError (now : Time) (s : State) : (sampleClock now s).transmissionError = s.transmissionError := rfl
@[simp] theorem sampleClock_readError (now : Time) (s : State) : (sampleClock now s).readError = s.readError := rfl
@[simp] theorem sampleClock_newDataAvailable (now : Time) (s : State) : (sampleClock now s).newDataAvailable = s.newDataAvailable := rfl
@[simp] theorem sampleClock_started (now : Time) (s : State) : (sampleClock now s).started = s.started := rfl
@[simp] theorem sampleClock_cfg (now : Time) (s : State) : (sampleClock now s).cfg = s.cfg := rfl
@[simp] theorem sampleClock_rxq (now : Time) (s : State) : (sampleClock now s).rxq = s.rxq := rfl
@[simp] theorem sampleClock_wire (now : Time) (s : State) : (sampleClock now s).wire = s.wire := rfl
@[simp] theorem sampleClock_clock (now : Time) (s : State) : (sampleClock now s).clock = now := rfl
@[simp] theorem sampleClock_events (now : Time) (s : State) : (sampleClock now s).events = s.events := rfl
@[simp] theorem sampleClock_result (now : Time) (s : State) : (sampleClock now s).result = s.result := rfl
@[simp] theorem sampleClock_agenda (now : Time) (s : State) : (sampleClock now s).agenda = s.agenda := rfl

@[simp] theorem dropPartial_txTable (s : State) : (dropPartial s).txTable = s.txTable := rfl
@[simp] theorem dropPartial_rxTable (s : State) : (dropPartial s).rxTable = s.rxTable := rfl
@[simp] theorem dropPartial_txState (s : State) : (dropPartial s).txState = s.txState := rfl
@[simp] theorem dropPartial_txbuf (s : State) : (dropPartial s).txbuf = s.txbuf := rfl
@[simp] theorem dropPartial_txPos (s : State) : (dropPartial s).txPos = s.txPos := rfl
@[simp] theorem dropPartial_txStartTime (s : State) : (dropPartial s).txStartTime = s.txStartTime := rfl
@[simp] theorem dropPartial_rxState (s : State) : (dropPartial s).rxState = .seekingHeader := rfl
@[simp] theorem dropPartial_rxbuf (s : State) : (dropPartial s).rxbuf = [] := rfl
@[simp] theorem dropPartial_rxHdrTime (s : State) : (dropPartial s).rxHdrTime = s.rxHdrTime := rfl
@[simp] theorem dropPartial_transmissionError (s : State) : (dropPartial s).transmissionError = s.transmissionError := rfl
@[simp] theorem dropPartial_readError (s : State) : (dropPartial s).readError = s.readError := rfl
@[simp] theorem dropPartial_newDataAvailable (s : State) : (dropPartial s).newDataAvailable = s.newDataAvailable := rfl
@[simp] theorem dropPartial_started (s : State) : (dropPartial s).started = s.started := rfl
@[simp] theorem dropPartial_cfg (s : State) : (dropPartial s).cfg = s.cfg := rfl
@[simp] theorem dropPartial_rxq (s : State) : (dropPartial s).rxq = s.rxq := rfl
@[simp] theorem dropPartial_wire (s : State) : (dropPartial s).wire = s.wire := rfl
@[simp] theorem dropPartial_clock (s : State) : (dropPartial s).clock = s.clock := rfl
@[simp] theorem dropPartial_events (s : State) : (dropPartial s).events = s.events := rfl
@[simp] theorem dropPartial_result (s : State) : (dropPartial s).result = s.result := rfl
@[simp] theorem dropPartial_agenda (s : State) : (dropPartial s).agenda = s.agenda := rfl

@[simp] theorem sendResendAll_txTable (s : State) : (sendResendAll s).txTable = s.txTable := rfl
@[simp] theorem sendResendAll_rxTable (s : State) : (sendResendAll s).rxTable = s.rxTable := rfl
@[simp] theorem sendResendAll_txState (s : State) : (sendResendAll s).txState = s.txState := rfl
@[simp] theorem sendResendAll_txbuf (s : State) : (sendResendAll s).txbuf = s.txbuf := rfl
@[simp] theorem sendResendAll_txPos (s : State) : (sendResendAll s).txPos = s.txPos := rfl
@[simp] theorem sendResendAll_txStartTime (s : State) : (sendResendAll s).txStartTime = s.txStartTime := rfl
@[simp] theorem sendResendAll_rxState (s : State) : (sendResendAll s).rxState = s.rxState := rfl
@[simp] theorem sendResendAll_rxbuf (s : State) : (sendResendAll s).rxbuf = s.rxbuf := rfl
@[simp] theorem sendResendAll_rxHdrTime (s : State) : (sendResendAll s).rxHdrTime = s.rxHdrTime := rfl
@[simp] theorem sendResendAll_transmissionError (s : State) : (sendResendAll s).transmissionError = s.transmissionError := rfl
@[simp] theorem sendResendAll_readError (s : State) : (sendResendAll s).readError = s.readError := rfl
@[simp] theorem sendResendAll_newDataAvailable (s : State) : (sendResendAll s).newDataAvailable = s.newDataAvailable := rfl
@[simp] theorem sendResendAll_started (s : State) : (sendResendAll s).started = s.started := rfl
@[simp] theorem sendResendAll_cfg (s : State) : (sendResendAll s).cfg = s.cfg := rfl
@[simp] theorem sendResendAll_rxq (s : State) : (sendResendAll s).rxq = s.rxq := rfl
@[simp] theorem sendResendAll_wire (s : State) : (sendResendAll s).wire = s.wire ++ [cmdHi, cmdLo] := by simp [sendResendAll, emit, wireWrite]
@[simp] theorem sendResendAll_clock (s : State) : (sendResendAll s).clock = s.clock := rfl
@[simp] theorem sendResendAll_events (s : State) : (sendResendAll s).events = s.events ++ [.resendAllSent] := by simp [sendResendAll, emit, wireWrite]
@[simp] theorem sendResendAll_result (s : State) : (sendResendAll s).result = s.result := rfl
@[simp] theorem sendResendAll_agenda (s : State) : (sendResendAll s).agenda = s.agenda := rfl

@[simp] theorem receiveFault_txTable (k : FaultKind) (s : State) : (receiveFault k s).txTable = s.txTable := rfl
@[simp] theorem receiveFault_rxTable (k : FaultKind) (s : State) : (receiveFault k s).rxTable = s.rxTable := rfl
@[simp] theorem receiveFault_txState (k : FaultKind) (s : State) : (receiveFault k s).txState = s.txState := rfl
@[simp] theorem receiveFault_txbuf (k : FaultKind) (s : State) : (receiveFault k s).txbuf = s.txbuf := rfl
@[simp] theorem receiveFault_txPos (k : FaultKind) (s : State) : (receiveFault k s).txPos = s.txPos := rfl
@[simp] theorem receiveFault_txStartTime (k : FaultKind) (s : State) : (receiveFault k s).txStartTime = s.txStartTime := rfl
@[simp] theorem receiveFault_rxState (k : FaultKind) (s : State) : (receiveFault k s).rxState = .seekingHeader := rfl
@[simp] theorem receiveFault_rxbuf (k : FaultKind) (s : State) : (receiveFault k s).rxbuf = [] := rfl
@[simp] theorem receiveFault_rxHdrTime (k : FaultKind) (s : State) : (receiveFault k s).rxHdrTime = s.rxHdrTime := rfl
@[simp] theorem receiveFault_transmissionError (k : FaultKind) (s : State) : (receiveFault k s).transmissionError = s.transmissionError := rfl
@[simp] theorem receiveFault_readError (k : FaultKind) (s : State) : (receiveFault k s).readError = true := rfl
@[simp] theorem receiveFault_newDataAvailable (k : FaultKind) (s : State) : (receiveFault k s).newDataAvailable = s.newDataAvailable := rfl
@[simp] theorem receiveFault_started (k : FaultKind) (s : State) : (receiveFault k s).started = s.started := rfl
@[simp] theorem receiveFault_cfg (k : FaultKind) (s : State) : (receiveFault k s).cfg = s.cfg := rfl
@[simp] theorem receiveFault_rxq (k : FaultKind) (s : State) : (receiveFault k s).rxq = s.rxq := rfl
@[simp] theorem receiveFault_wire (k : FaultKind) (s : State) : (receiveFault k s).wire = s.wire ++ [cmdHi, cmdLo] := by simp [receiveFault, sendResendAll, emit, wireWrite, dropPartial]
@[simp] theorem receiveFault_clock (k : FaultKind) (s : State) : (receiveFault k s).clock = s.clock := rfl
@[simp] theorem receiveFault_events (k : FaultKind) (s : State) : (receiveFault k s).events = s.events ++ [.fault k, .resendAllSent] := by simp [receiveFault, sendResendAll, emit, wireWrite, dropPartial]
@[simp] theorem receiveFault_result (k : FaultKind) (s : State) : (receiveFault k s).result = s.result := rfl
@[simp] theorem receiveFault_agenda (k : FaultKind) (s : State) : (receiveFault k s).agenda = s.agenda := rfl

end Sys2Proof.Machine
end

