-- ==== Sys2Proof/Laws/Receive.lean ====
section
/-! SUPPORT. What the receive path can do: the frame every part of a POLL keeps, the drain loop, and the run of bytes of
one packet. -/

namespace Sys2Proof.Machine

/-- What no part of a POLL changes (R95), and how it may change the rest. -/
structure ReceiveFrame (s t : State) : Prop where
  txbuf : t.txbuf = s.txbuf
  txPos : t.txPos = s.txPos
  txStartTime : t.txStartTime = s.txStartTime
  transmissionError : t.transmissionError = s.transmissionError
  cfg : t.cfg = s.cfg
  started : t.started = s.started
  clock : t.clock = s.clock
  result : t.result = s.result
  agenda : t.agenda = s.agenda
  values : t.txTable.map TxSlot.value = s.txTable.map TxSlot.value
  times : t.txTable.map TxSlot.lastSend = s.txTable.map TxSlot.lastSend
  capRx : t.rxTable.length = s.rxTable.length
  wire : ∃ written, t.wire = s.wire ++ written
  events : ∃ more, t.events = s.events ++ more
  readError : s.readError = true → t.readError = true
  newData : s.newDataAvailable = true → t.newDataAvailable = true
  txState : t.txState = s.txState ∨ s.txState = .awaitingAck ∧ t.txState = .idle ∧ Event.ackReceived ∈ t.events

theorem ReceiveFrame.refl (s : State) : ReceiveFrame s s := by
  constructor <;> first | rfl | exact id | exact ⟨[], by simp⟩ | exact .inl rfl

theorem ReceiveFrame.trans {s t u : State} (h : ReceiveFrame s t) (k : ReceiveFrame t u) : ReceiveFrame s u where
  txbuf := k.txbuf.trans h.txbuf
  txPos := k.txPos.trans h.txPos
  txStartTime := k.txStartTime.trans h.txStartTime
  transmissionError := k.transmissionError.trans h.transmissionError
  cfg := k.cfg.trans h.cfg
  started := k.started.trans h.started
  clock := k.clock.trans h.clock
  result := k.result.trans h.result
  agenda := k.agenda.trans h.agenda
  values := k.values.trans h.values
  times := k.times.trans h.times
  capRx := k.capRx.trans h.capRx
  wire := by
    obtain ⟨a, ha⟩ := h.wire
    obtain ⟨b, hb⟩ := k.wire
    exact ⟨a ++ b, by rw [hb, ha, List.append_assoc]⟩
  events := by
    obtain ⟨a, ha⟩ := h.events
    obtain ⟨b, hb⟩ := k.events
    exact ⟨a ++ b, by rw [hb, ha, List.append_assoc]⟩
  readError := fun e => k.readError (h.readError e)
  newData := fun e => k.newData (h.newData e)
  txState := by
    obtain ⟨more, hm⟩ := k.events
    rcases h.txState with h1 | ⟨h1, h2, h3⟩ <;> rcases k.txState with k1 | ⟨k1, k2, k3⟩
    · exact .inl (k1.trans h1)
    · exact .inr ⟨h1 ▸ k1, k2, k3⟩
    · exact .inr ⟨h1, k1.trans h2, by rw [hm]; simp [h3]⟩
    · exact .inr ⟨h1, k2, k3⟩

theorem rxPop_frame (s : State) : ReceiveFrame s (rxPop s) := by
  constructor <;> first | rfl | exact id | exact ⟨[], by simp⟩ | exact .inl rfl

theorem dropPartial_frame (s : State) : ReceiveFrame s (dropPartial s) := by
  constructor <;> first | rfl | exact id | exact ⟨[], by simp⟩ | exact .inl rfl

theorem receiveFault_frame (k : FaultKind) (s : State) : ReceiveFrame s (receiveFault k s) := by
  constructor <;> simp

theorem success_frame (es : List Entry) (s : State) : ReceiveFrame s (success es s) := by
  constructor <;> simp [success]

theorem ackEvent_frame (s : State) : ReceiveFrame s (ackEvent s) := by
  unfold ackEvent
  cases h : s.txState <;> constructor <;> simp [h]

theorem resendAllEvent_frame (s : State) : ReceiveFrame s (resendAllEvent s) := by
  constructor <;> simp [resendAllEvent, Function.comp_def]

theorem applyEntries_frame (all es : List Entry) (s : State) : ReceiveFrame s (applyEntries all es s) := by
  induction es generalizing s with
  | nil => exact success_frame all s
  | cons e rest ih =>
    rw [applyEntries]
    split
    · refine ReceiveFrame.trans ?_ (ih _)
      constructor <;> simp
    · exact receiveFault_frame .unknownIndex s

theorem complete_frame (s : State) : ReceiveFrame s (complete s) := by
  refine ReceiveFrame.trans ?_ (dropPartial_frame _)
  unfold finishPacket
  split
  · exact receiveFault_frame .tooShort s
  · exact receiveFault_frame .checksumMismatch s
  · exact applyEntries_frame _ _ s

theorem append_frame (b : Byte) (s : State) : ReceiveFrame s { s with rxbuf := s.rxbuf ++ [b] } := by
  constructor <;> simp

theorem seekHeader_frame (b : Byte) (now : Time) (s : State) : ReceiveFrame s (seekHeader b now s) := by
  unfold seekHeader
  split
  · constructor <;> simp
  · exact ReceiveFrame.refl s

theorem seekAddress_frame (b : Byte) (s : State) : ReceiveFrame s (seekAddress b s) := by
  unfold seekAddress
  split
  · constructor <;> simp
  · exact dropPartial_frame s

theorem accumulate_frame (b : Byte) (s : State) : ReceiveFrame s (accumulate b s) := by
  unfold accumulate
  dsimp only
  split
  · exact (append_frame b s).trans (complete_frame _)
  · split
    · exact (append_frame b s).trans (receiveFault_frame .bufferOverflow _)
    · exact append_frame b s

theorem rxByte_frame (b : Byte) (now : Time) (s : State) : ReceiveFrame s (rxByte b now s) := by
  unfold rxByte
  split
  · exact seekHeader_frame b now s
  · exact seekAddress_frame b s
  · exact accumulate_frame b s

theorem classifyAndConsume_frame (now : Time) (s : State) : ReceiveFrame s (classifyAndConsume now s) := by
  unfold classifyAndConsume
  split
  · exact ReceiveFrame.refl s
  · split
    · exact (rxPop_frame s).trans (ackEvent_frame _)
    · split
      · exact ((rxPop_frame s).trans (rxPop_frame _)).trans (resendAllEvent_frame _)
      · exact (rxPop_frame s).trans (rxByte_frame _ _ _)

theorem drain_frame (now : Time) (n : Nat) (s : State) : ReceiveFrame s (drain now n s) := by
  induction n generalizing s with
  | zero => exact ReceiveFrame.refl s
  | succ n ih =>
    rw [drain]
    split
    · exact ReceiveFrame.refl s
    · exact (classifyAndConsume_frame now s).trans (ih _)

theorem staleCheck_frame (now : Time) (s : State) : ReceiveFrame s (staleCheck now s) := by
  unfold staleCheck
  split
  · exact receiveFault_frame .stalePartialPacket s
  · exact ReceiveFrame.refl s

/-- The whole of a POLL after its first line. -/
theorem poll_frame (now : Time) (s : State) : ReceiveFrame (sampleClock now (beginOp s)) (poll now s) :=
  (staleCheck_frame now _).trans (drain_frame now _ _)

/-! ### The queue -/

@[simp] theorem ackEvent_rxq (s : State) : (ackEvent s).rxq = s.rxq := by
  unfold ackEvent; cases s.txState <;> rfl

@[simp] theorem ackEvent_txTable (s : State) : (ackEvent s).txTable = s.txTable := by
  unfold ackEvent; cases s.txState <;> rfl

@[simp] theorem resendAllEvent_rxq (s : State) : (resendAllEvent s).rxq = s.rxq := rfl

@[simp] theorem applyEntries_rxq (all es : List Entry) (s : State) : (applyEntries all es s).rxq = s.rxq := by
  induction es generalizing s with
  | nil => rfl
  | cons e rest ih => rw [applyEntries]; split <;> simp [ih, raise]

@[simp] theorem complete_rxq (s : State) : (complete s).rxq = s.rxq := by
  unfold complete finishPacket
  split <;> simp [raise]

@[simp] theorem rxByte_rxq (b : Byte) (now : Time) (s : State) : (rxByte b now s).rxq = s.rxq := by
  unfold rxByte seekHeader seekAddress accumulate
  cases s.rxState <;> dsimp only <;> split
  all_goals first | rfl | simp | (split <;> simp [raise])

@[simp] theorem staleCheck_rxq (now : Time) (s : State) : (staleCheck now s).rxq = s.rxq := by
  unfold staleCheck; split <;> simp [raise]

/-- Every turn of the drain loop takes one byte, or two, off the queue. -/
theorem classifyAndConsume_rxq (now : Time) (s : State) :
    (classifyAndConsume now s).rxq = s.rxq.tail ∨ (classifyAndConsume now s).rxq = s.rxq.tail.tail := by
  unfold classifyAndConsume
  split
  · next h => left; simp only [rxPeek] at h; cases hq : s.rxq <;> simp_all
  · split
    · left; simp
    · split
      · right; simp
      · left; simp

theorem classifyAndConsume_shrinks (now : Time) (s : State) (h : s.rxq ≠ []) :
    (classifyAndConsume now s).rxq.length < s.rxq.length := by
  have : 0 < s.rxq.length := List.length_pos_iff.mpr h
  rcases classifyAndConsume_rxq now s with e | e <;> rw [e] <;> simp <;> omega

/-- With as many turns as there are bytes the loop empties the queue (R95). -/
theorem drain_rxq (now : Time) (n : Nat) (s : State) (h : s.rxq.length ≤ n) : (drain now n s).rxq = [] := by
  induction n generalizing s with
  | zero => exact List.length_eq_zero_iff.mp (by simpa [drain] using h)
  | succ n ih =>
    rw [drain]
    split
    · next h0 => exact List.length_eq_zero_iff.mp h0
    · next h0 =>
      have := classifyAndConsume_shrinks now s (fun e => h0 (by simp [rxAvail, e]))
      exact ih _ (by omega)

/-- More turns than bytes change nothing. -/
theorem drain_enough (now : Time) (n m : Nat) (s : State) (hn : s.rxq.length ≤ n) (hm : s.rxq.length ≤ m) :
    drain now n s = drain now m s := by
  induction n generalizing s m with
  | zero =>
    have : rxAvail s = 0 := by simpa [rxAvail] using hn
    cases m <;> simp [drain, this]
  | succ n ih =>
    by_cases h0 : rxAvail s = 0
    · cases m <;> simp [drain, h0]
    · have hs := classifyAndConsume_shrinks now s (fun e => h0 (by simp [rxAvail, e]))
      cases m with
      | zero => exact absurd (by simpa [rxAvail] using hm) h0
      | succ m => simp only [drain, h0, if_false]; exact ih m _ (by omega) (by omega)

theorem drain_nil (now : Time) (n : Nat) (s : State) (h : s.rxq = []) : drain now n s = s := by
  cases n <;> simp [drain, rxAvail, h]

theorem drain_cons (now : Time) (n : Nat) (s : State) (b : Byte) (rest : List Byte) (h : s.rxq = b :: rest) :
    drain now (n + 1) s = drain now n (classifyAndConsume now s) := by
  simp [drain, rxAvail, h]

/-- What every turn keeps, a POLL keeps. -/
theorem drain_keeps (P : State → Prop) (now : Time) (h : ∀ s, P s → P (classifyAndConsume now s)) (n : Nat) (s : State)
    (hs : P s) : P (drain now n s) := by
  induction n generalizing s with
  | zero => exact hs
  | succ n ih =>
    rw [drain]
    split
    · exact hs
    · exact ih _ (h s hs)

theorem poll_keeps (P : State → Prop) (now : Time) (stale : ∀ s, P s → P (receiveFault .stalePartialPacket s))
    (turn : ∀ s, P s → P (classifyAndConsume now s)) (s : State) (hs : P (sampleClock now (beginOp s))) :
    P (poll now s) := by
  refine drain_keeps P now turn _ _ ?_
  unfold staleCheck
  split
  · exact stale _ hs
  · exact hs

theorem staleCheck_of_notStale {now : Time} {s : State} (h : NotStale now s) : staleCheck now s = s := by
  unfold staleCheck stale
  rcases h with h | h
  · simp [h]
  · have : ¬ s.cfg.packetTimeout < elapsed now s.rxHdrTime := by simpa using h
    simp [this]

theorem staleCheck_of_stale {now : Time} {s : State} (h : s.rxState ≠ .seekingHeader)
    (ht : s.cfg.packetTimeout < elapsed now s.rxHdrTime) : staleCheck now s = receiveFault .stalePartialPacket s := by
  simp [staleCheck, stale, h, ht, raise]

/-- A POLL with no stale packet is its drain loop. -/
theorem poll_of_notStale {now : Time} {s : State} (h : NotStale now s) :
    poll now s = drain now s.rxq.length (sampleClock now (beginOp s)) := by
  have : NotStale now (sampleClock now (beginOp s)) := by simpa [NotStale] using h
  simp [poll, staleCheck_of_notStale this, rxAvail]

/-- A POLL with an empty queue does its stale check only (R95, R96). -/
theorem poll_nil {now : Time} {s : State} (h : s.rxq = []) : poll now s = staleCheck now (sampleClock now (beginOp s)) :=
  drain_nil _ _ _ (by simp [h])

/-- A POLL of one byte is one turn of the loop. -/
theorem poll_single {now : Time} {s : State} {b : Byte} (h : s.rxq = [b]) (hn : NotStale now s) :
    poll now s = classifyAndConsume now (sampleClock now (beginOp s)) := by
  have hl : s.rxq.length = 0 + 1 := by rw [h]; rfl
  rw [poll_of_notStale hn, hl, drain_cons _ _ _ b [] (by simp [h])]
  rfl

/-! ### One turn of the loop -/

theorem classify_ack {now : Time} {s : State} {rest : List Byte} (h : s.rxq = s.cfg.ackChar :: rest)
    (hs : s.rxState ≠ .accumulating) : classifyAndConsume now s = ackEvent (rxPop s) := by
  have : classifies s = true := by unfold classifies; cases e : s.rxState <;> simp_all
  simp [classifyAndConsume, rxPeek, h, this]

theorem classify_command {now : Time} {s : State} {rest : List Byte} (h : s.rxq = cmdHi :: cmdLo :: rest)
    (ha : cmdHi ≠ s.cfg.ackChar) (hs : s.rxState ≠ .accumulating) :
    classifyAndConsume now s = resendAllEvent (rxPop (rxPop s)) := by
  have : classifies s = true := by unfold classifies; cases e : s.rxState <;> simp_all
  simp [classifyAndConsume, commandAtHead, rxAvail, rxPeek, h, this, ha]

/-- A byte that is no ACK and starts no command goes to the receive machine (R97, R98). -/
theorem classify_byte {now : Time} {s : State} {b : Byte} {rest : List Byte} (h : s.rxq = b :: rest)
    (ha : b ≠ s.cfg.ackChar) (hc : ¬ (b = cmdHi ∧ rest.head? = some cmdLo)) :
    classifyAndConsume now s = rxByte b now (rxPop s) := by
  have : commandAtHead s = false := by
    cases rest with
    | nil => simp [commandAtHead, rxAvail, h]
    | cons c rest => simpa [commandAtHead, rxAvail, rxPeek, h] using hc
  simp [classifyAndConsume, rxPeek, h, ha, this]

/-- In Accumulating every byte goes to the receive machine (R97). -/
theorem classify_content {now : Time} {s : State} {b : Byte} {rest : List Byte} (h : s.rxq = b :: rest)
    (hs : s.rxState = .accumulating) : classifyAndConsume now s = accumulate b (rxPop s) := by
  have : classifies s = false := by simp [classifies, hs]
  simp [classifyAndConsume, rxPeek, h, this, rxByte, hs]

/-- A byte of a packet that neither completes it nor fills the buffer is appended (R101 to R103). -/
theorem classify_appends {now : Time} {s : State} {b : Byte} {rest : List Byte} (hs : s.rxState = .accumulating)
    (hl : 2 ≤ s.rxbuf.length) (hq : s.rxq = b :: rest) (ht : s.rxbuf[s.rxbuf.length - 2]? ≠ some s.cfg.terminator)
    (hc : s.rxbuf.length + 1 ≠ s.cfg.rxBufCap) :
    classifyAndConsume now s = { s with rxq := rest, rxbuf := s.rxbuf ++ [b] } := by
  rw [classify_content hq hs]
  have e := threeBack_eq_getElem? (s.rxbuf ++ [b]) (by simp; omega)
  have e2 : (s.rxbuf ++ [b]).length - 3 = s.rxbuf.length - 2 := by simp
  rw [e2, List.getElem?_append_left (by omega)] at e
  have hcomp : completes s.cfg (s.rxbuf ++ [b]) = false := by
    rw [← Bool.not_eq_true, completes_iff]
    intro h
    rw [h] at e
    exact ht e
  simp [accumulate, hq, rxPop, hcomp, State.rxLen, hc]

/-! ### The bytes of one packet -/

/-- What the packet's last byte does, once appended (R101 to R103). -/
def closePacket (s : State) : State := if completes s.cfg s.rxbuf then complete s else receiveFault .bufferOverflow s

/-- A run of content bytes that ends a packet exactly: all of them are appended, and the packet is closed. -/
theorem drain_body (now : Time) (body rest : List Byte) (n : Nat) (s : State) (hs : s.rxState = .accumulating)
    (hq : s.rxq = body ++ rest) (hb : takeBody s.cfg s.rxbuf body = some (body, [])) :
    drain now (body.length + n) s = drain now n (closePacket { s with rxq := rest, rxbuf := s.rxbuf ++ body }) := by
  induction body generalizing s with
  | nil => simp [takeBody] at hb
  | cons b body ih =>
    have hq' : s.rxq = b :: (body ++ rest) := hq
    have : (b :: body).length + n = body.length + n + 1 := by simp; omega
    rw [this, drain_cons _ _ _ _ _ hq', classify_content hq' hs]
    rw [takeBody] at hb
    split at hb
    · next he =>
      simp only [Option.some.injEq, Prod.mk.injEq, List.cons.injEq, true_and] at hb
      obtain ⟨rfl, -⟩ := hb
      have key : accumulate b (rxPop s) = closePacket { s with rxq := rest, rxbuf := s.rxbuf ++ [b] } := by
        rw [endsPacket_iff] at he
        unfold accumulate closePacket
        simp only [rxPop, hq, List.cons_append, List.nil_append, List.tail_cons, State.rxLen, raise]
        split
        · rfl
        · next hc =>
          have := he.resolve_left (fun h => hc ((completes_iff _ _).mpr h))
          simp [this]
      rw [key]
      simp
    · next he =>
      obtain ⟨r, hr, hrb⟩ := Option.map_eq_some_iff.mp hb
      simp only [Prod.mk.injEq, List.cons.injEq, true_and] at hrb
      have hr' : takeBody s.cfg (s.rxbuf ++ [b]) body = some (body, []) := by
        rw [hr, ← hrb.1, ← hrb.2]
      have key : accumulate b (rxPop s) = { s with rxq := body ++ rest, rxbuf := s.rxbuf ++ [b] } := by
        rw [endsPacket_iff, not_or] at he
        have hc : completes s.cfg (s.rxbuf ++ [b]) = false := by
          rw [← Bool.not_eq_true, completes_iff]; exact he.1
        unfold accumulate
        simp only [rxPop, hq', List.tail_cons, State.rxLen]
        rw [if_neg (by simp [hc]), if_neg he.2]
      rw [key, ih { s with rxq := body ++ rest, rxbuf := s.rxbuf ++ [b] } hs rfl hr']
      simp

/-- A whole packet for this endpoint at the front of the queue, in SeekingHeader: header and address match, the body is
appended, and the packet is closed (R99 to R103). -/
theorem drain_packet (now : Time) (body rest : List Byte) (n : Nat) (s : State) (hs : s.rxState = .seekingHeader)
    (hq : s.rxq = s.cfg.header :: s.cfg.localAddr :: body ++ rest)
    (h1 : s.cfg.header ≠ s.cfg.ackChar) (h2 : cmdHi ≠ s.cfg.header)
    (h3 : s.cfg.localAddr ≠ s.cfg.ackChar) (h4 : cmdHi ≠ s.cfg.localAddr)
    (hb : takeBody s.cfg [s.cfg.header, s.cfg.localAddr] body = some (body, [])) :
    drain now (body.length + 2 + n) s = drain now n (closePacket { s with
      rxq := rest, rxbuf := s.cfg.header :: s.cfg.localAddr :: body, rxHdrTime := now, rxState := .accumulating }) := by
  have e : body.length + 2 + n = (body.length + n + 1) + 1 := by omega
  have t1 : classifyAndConsume now s =
      { s with rxq := s.cfg.localAddr :: (body ++ rest), rxbuf := [s.cfg.header], rxHdrTime := now,
               rxState := .seekingAddress } := by
    rw [classify_byte hq h1 (fun h => h2 h.1.symm)]
    simp [rxByte, seekHeader, rxPop, hs, hq]
  have t2 : ∀ u : State, u.rxState = .seekingAddress → u.cfg = s.cfg → u.rxbuf = [s.cfg.header] →
      u.rxq = s.cfg.localAddr :: (body ++ rest) →
      classifyAndConsume now u = { u with rxq := body ++ rest, rxbuf := [s.cfg.header, s.cfg.localAddr],
                                          rxState := .accumulating } := by
    intro u hu hc hr huq
    rw [classify_byte huq (by rw [hc]; exact h3) (fun h => h4 h.1.symm)]
    simp [rxByte, seekAddress, rxPop, hu, huq, hc, hr]
  rw [e, drain_cons _ _ _ _ _ hq, t1]
  generalize hu : State.mk s.txTable s.rxTable s.txState s.txbuf s.txPos s.txStartTime .seekingAddress [s.cfg.header] now
    s.transmissionError s.readError s.newDataAvailable s.started s.cfg (s.cfg.localAddr :: (body ++ rest)) s.wire s.clock
    s.events s.result s.agenda = u
  rw [drain_cons now _ u s.cfg.localAddr (body ++ rest) (by rw [← hu]),
    t2 u (by rw [← hu]) (by rw [← hu]) (by rw [← hu]) (by rw [← hu])]
  subst hu
  rw [drain_body now body rest n _ rfl rfl hb]
  simp

/-- A POLL whose whole queue is one packet for this endpoint (R99 to R103). -/
theorem poll_packet {now : Time} {body : List Byte} {s : State} (hs : s.rxState = .seekingHeader)
    (hq : s.rxq = s.cfg.header :: s.cfg.localAddr :: body)
    (h1 : s.cfg.header ≠ s.cfg.ackChar) (h2 : cmdHi ≠ s.cfg.header)
    (h3 : s.cfg.localAddr ≠ s.cfg.ackChar) (h4 : cmdHi ≠ s.cfg.localAddr)
    (hb : takeBody s.cfg [s.cfg.header, s.cfg.localAddr] body = some (body, [])) :
    poll now s = closePacket { sampleClock now (beginOp s) with
      rxq := [], rxbuf := s.cfg.header :: s.cfg.localAddr :: body, rxHdrTime := now, rxState := .accumulating } := by
  have hl : s.rxq.length = body.length + 2 + 0 := by rw [hq]; simp
  rw [poll_of_notStale (.inl hs), hl,
    drain_packet now body [] 0 (sampleClock now (beginOp s)) (by exact hs) (by simpa using hq) h1 h2 h3 h4 hb]
  rfl

/-- Bytes that are no ACK, no header and hold no command are discarded in SeekingHeader, whatever their number, and the loop
stands at what follows them (R99). -/
theorem drain_discards (now : Time) (bytes more : List Byte) (n : Nat) (s : State) (hs : s.rxState = .seekingHeader)
    (hq : s.rxq = bytes ++ more) (ha : s.cfg.ackChar ∉ bytes) (hh : s.cfg.header ∉ bytes)
    (hc : ¬ [cmdHi, cmdLo] <:+: bytes) (hm : bytes.getLast? = some cmdHi → more.head? ≠ some cmdLo) :
    drain now (bytes.length + n) s = drain now n { s with rxq := more } := by
  induction bytes generalizing s with
  | nil => rw [← show s.rxq = more from hq]; simp
  | cons b rest ih =>
    simp only [List.mem_cons, not_or] at ha hh
    have hcmd : ¬ (b = cmdHi ∧ (rest ++ more).head? = some cmdLo) := by
      rintro ⟨rfl, h⟩
      cases rest with
      | nil => exact hm rfl h
      | cons x rest =>
        simp only [List.cons_append, List.head?_cons, Option.some.injEq] at h
        subst h
        exact hc ⟨[], rest, rfl⟩
    have step : classifyAndConsume now s = { s with rxq := rest ++ more } := by
      rw [classify_byte hq (fun h => ha.1 h.symm) hcmd]
      have : b ≠ s.cfg.header := fun h => hh.1 h.symm
      simp [rxByte, seekHeader, rxPop, hs, hq, this]
    have hl : (b :: rest).length + n = rest.length + n + 1 := by simp; omega
    rw [hl, drain_cons _ _ _ _ _ hq, step]
    refine ih { s with rxq := rest ++ more } hs rfl ha.2 hh.2 (fun h => hc (h.trans (List.suffix_cons b rest).isInfix)) ?_
    intro h
    refine hm ?_
    cases rest with
    | nil => simp at h
    | cons x rest => simpa using h

/-! ### Closing a packet -/

theorem applyEntries_good (all es : List Entry) (s : State) (h : ∀ e ∈ es, e.index.toNat < s.capRx) :
    applyEntries all es s = success all { s with rxTable := applyAll s.rxTable es } := by
  induction es generalizing s with
  | nil => rfl
  | cons e rest ih =>
    rw [applyEntries, if_pos (h e (by simp)), ih _ (fun x hx => by simpa [State.capRx] using h x (by simp [hx]))]
    simp [applyAll]

/-- A packet with a bad checksum: the common fault action (R104, R135, R137). -/
theorem closePacket_mismatch {s : State} (hc : completes s.cfg s.rxbuf = true)
    (hd : decodePacket s.cfg s.rxbuf = .checksumMismatch) : closePacket s = receiveFault .checksumMismatch s := by
  rw [closePacket, if_pos hc, complete, hd]
  rfl

/-- A packet that decodes: its entries are applied (R104, R105). -/
theorem closePacket_ok {es : List Entry} {s : State} (hc : completes s.cfg s.rxbuf = true)
    (hd : decodePacket s.cfg s.rxbuf = .ok es) : closePacket s = dropPartial (applyEntries es es s) := by
  rw [closePacket, if_pos hc, complete, hd]
  rfl

/-- A buffer that fills before a packet completes (R103). -/
theorem closePacket_overflow {s : State} (hc : completes s.cfg s.rxbuf = false) :
    closePacket s = receiveFault .bufferOverflow s := by
  rw [closePacket, hc]
  rfl

theorem applyEntries_bad (all good later : List Entry) (bad : Entry) (s : State)
    (h : ∀ e ∈ good, e.index.toNat < s.capRx) (hb : s.capRx ≤ bad.index.toNat) :
    applyEntries all (good ++ bad :: later) s =
      receiveFault .unknownIndex { s with rxTable := applyAll s.rxTable good } := by
  induction good generalizing s with
  | nil => simp [applyEntries, applyAll, raise, Nat.not_lt.mpr hb]
  | cons e rest ih =>
    rw [List.cons_append, applyEntries, if_pos (h e (by simp)),
      ih _ (fun x hx => by simpa [State.capRx] using h x (by simp [hx])) (by simpa [State.capRx] using hb)]
    simp [applyAll]

end Sys2Proof.Machine
end

