-- ==== Sys2Proof/Laws/Events.lean ====
section
/-! SUPPORT. What a POLL's event list says of it: a POLL never reads the list, so it may be cut in two; and the list names
every cause of a flag set and of a dirty flag set. -/

namespace Sys2Proof.Machine

/-! ### A POLL goes on where it stands -/

@[simp] theorem withEarlier_txTable (p : List Event) (s : State) : (withEarlier p s).txTable = s.txTable := rfl
@[simp] theorem withEarlier_rxTable (p : List Event) (s : State) : (withEarlier p s).rxTable = s.rxTable := rfl
@[simp] theorem withEarlier_txState (p : List Event) (s : State) : (withEarlier p s).txState = s.txState := rfl
@[simp] theorem withEarlier_txbuf (p : List Event) (s : State) : (withEarlier p s).txbuf = s.txbuf := rfl
@[simp] theorem withEarlier_txPos (p : List Event) (s : State) : (withEarlier p s).txPos = s.txPos := rfl
@[simp] theorem withEarlier_txStartTime (p : List Event) (s : State) : (withEarlier p s).txStartTime = s.txStartTime := rfl
@[simp] theorem withEarlier_rxState (p : List Event) (s : State) : (withEarlier p s).rxState = s.rxState := rfl
@[simp] theorem withEarlier_rxbuf (p : List Event) (s : State) : (withEarlier p s).rxbuf = s.rxbuf := rfl
@[simp] theorem withEarlier_rxHdrTime (p : List Event) (s : State) : (withEarlier p s).rxHdrTime = s.rxHdrTime := rfl
@[simp] theorem withEarlier_transmissionError (p : List Event) (s : State) : (withEarlier p s).transmissionError = s.transmissionError := rfl
@[simp] theorem withEarlier_readError (p : List Event) (s : State) : (withEarlier p s).readError = s.readError := rfl
@[simp] theorem withEarlier_newDataAvailable (p : List Event) (s : State) : (withEarlier p s).newDataAvailable = s.newDataAvailable := rfl
@[simp] theorem withEarlier_started (p : List Event) (s : State) : (withEarlier p s).started = s.started := rfl
@[simp] theorem withEarlier_cfg (p : List Event) (s : State) : (withEarlier p s).cfg = s.cfg := rfl
@[simp] theorem withEarlier_rxq (p : List Event) (s : State) : (withEarlier p s).rxq = s.rxq := rfl
@[simp] theorem withEarlier_wire (p : List Event) (s : State) : (withEarlier p s).wire = s.wire := rfl
@[simp] theorem withEarlier_clock (p : List Event) (s : State) : (withEarlier p s).clock = s.clock := rfl
@[simp] theorem withEarlier_result (p : List Event) (s : State) : (withEarlier p s).result = s.result := rfl
@[simp] theorem withEarlier_agenda (p : List Event) (s : State) : (withEarlier p s).agenda = s.agenda := rfl
@[simp] theorem withEarlier_events (p : List Event) (s : State) : (withEarlier p s).events = p ++ s.events := rfl

@[simp] theorem continuing_next (p : List Event) (s : State) : continuing p (.next s) = .next (withEarlier p s) := rfl

theorem receiveFault_withEarlier (k : FaultKind) (p : List Event) (s : State) :
    receiveFault k (withEarlier p s) = withEarlier p (receiveFault k s) := by
  simp [receiveFault, sendResendAll, emit, wireWrite, dropPartial, withEarlier]

theorem ackEvent_withEarlier (p : List Event) (s : State) :
    ackEvent (withEarlier p s) = withEarlier p (ackEvent s) := by
  unfold ackEvent
  cases h : s.txState <;> simp [h, emit, withEarlier]

theorem resendAllEvent_withEarlier (p : List Event) (s : State) :
    resendAllEvent (withEarlier p s) = withEarlier p (resendAllEvent s) := by
  simp [resendAllEvent, emit, withEarlier]

theorem applyEntries_withEarlier (all es : List Entry) (p : List Event) (s : State) :
    applyEntries all es (withEarlier p s) = withEarlier p (applyEntries all es s) := by
  induction es generalizing s with
  | nil => simp [applyEntries, success, emit, wireWrite, withEarlier]
  | cons e rest ih =>
    rw [applyEntries, applyEntries]
    split
    · next h => rw [if_pos (by exact h)]; exact ih { s with rxTable := s.rxTable.set e.index.toNat e.value }
    · next h => rw [if_neg (by exact h)]; exact receiveFault_withEarlier .unknownIndex p s

theorem complete_withEarlier (p : List Event) (s : State) : complete (withEarlier p s) = withEarlier p (complete s) := by
  have e : finishPacket (decodePacket s.cfg s.rxbuf) (withEarlier p s) =
      withEarlier p (finishPacket (decodePacket s.cfg s.rxbuf) s) := by
    cases decodePacket s.cfg s.rxbuf with
    | tooShort => exact receiveFault_withEarlier .tooShort p s
    | checksumMismatch => exact receiveFault_withEarlier .checksumMismatch p s
    | ok es => exact applyEntries_withEarlier es es p s
  exact congrArg dropPartial e

theorem accumulate_withEarlier (b : Byte) (p : List Event) (s : State) :
    accumulate b (withEarlier p s) = withEarlier p (accumulate b s) := by
  have e : ∀ u : State, accumulate b u =
      if completes u.cfg (u.rxbuf ++ [b]) then complete { u with rxbuf := u.rxbuf ++ [b] }
      else if (u.rxbuf ++ [b]).length = u.cfg.rxBufCap then receiveFault .bufferOverflow { u with rxbuf := u.rxbuf ++ [b] }
      else { u with rxbuf := u.rxbuf ++ [b] } := fun _ => rfl
  have e1 : (withEarlier p s).rxbuf = s.rxbuf := rfl
  have e2 : (withEarlier p s).cfg = s.cfg := rfl
  rw [e, e, e1, e2]
  split
  · exact complete_withEarlier p { s with rxbuf := s.rxbuf ++ [b] }
  · split
    · exact receiveFault_withEarlier .bufferOverflow p { s with rxbuf := s.rxbuf ++ [b] }
    · rfl

theorem rxByte_withEarlier (b : Byte) (now : Time) (p : List Event) (s : State) :
    rxByte b now (withEarlier p s) = withEarlier p (rxByte b now s) := by
  have e : (withEarlier p s).rxState = s.rxState := rfl
  unfold rxByte
  rw [e]
  cases s.rxState with
  | seekingHeader => unfold seekHeader; by_cases h : b = s.cfg.header <;> simp [h, withEarlier]
  | seekingAddress => unfold seekAddress; by_cases h : b = s.cfg.localAddr <;> simp [h, withEarlier, dropPartial]
  | accumulating => exact accumulate_withEarlier b p s

theorem classifyAndConsume_withEarlier (now : Time) (p : List Event) (s : State) :
    classifyAndConsume now (withEarlier p s) = withEarlier p (classifyAndConsume now s) := by
  unfold classifyAndConsume
  have e1 : rxPeek 0 (withEarlier p s) = rxPeek 0 s := rfl
  have e2 : classifies (withEarlier p s) = classifies s := rfl
  have e3 : commandAtHead (withEarlier p s) = commandAtHead s := rfl
  have e4 : (withEarlier p s).cfg = s.cfg := rfl
  have e5 : rxPop (withEarlier p s) = withEarlier p (rxPop s) := rfl
  have e6 : rxPop (withEarlier p (rxPop s)) = withEarlier p (rxPop (rxPop s)) := rfl
  rw [e1, e2, e3, e4, e5, e6, ackEvent_withEarlier, resendAllEvent_withEarlier]
  cases rxPeek 0 s with
  | none => rfl
  | some b => dsimp only; rw [rxByte_withEarlier]; split <;> [rfl; (split <;> rfl)]

theorem drain_withEarlier (now : Time) (n : Nat) (p : List Event) (s : State) :
    drain now n (withEarlier p s) = withEarlier p (drain now n s) := by
  induction n generalizing s with
  | zero => rfl
  | succ n ih =>
    rw [drain, drain]
    have : rxAvail (withEarlier p s) = rxAvail s := rfl
    rw [this]
    split
    · rfl
    · rw [classifyAndConsume_withEarlier]; exact ih _

/-- A POLL that stands at a state in the middle of its loop does to the bytes left what a POLL of them does (R95, R107). -/
theorem drain_eq_poll {now : Time} {u : State} (hn : NotStale now u) (hs : u.started = true) (hr : u.result = .nothing)
    (hc : u.clock = now) : drain now u.rxq.length u = withEarlier u.events (poll now u) := by
  have e : u = withEarlier u.events (sampleClock now (beginOp u)) := by
    cases u
    simp only at hs hr hc
    subst hs hr hc
    simp [withEarlier, sampleClock, beginOp, clearOutputs]
  rw [poll_of_notStale hn, ← drain_withEarlier, ← e]

/-- A POLL reads nothing that its first lines overwrite. -/
theorem poll_congr {now : Time} {s t : State} (h : sampleClock now (beginOp s) = sampleClock now (beginOp t)) :
    poll now s = poll now t := by
  rw [poll, poll, h]

/-- A stale POLL raises its fault first and then reads the bytes from SeekingHeader (R96, R143). -/
theorem poll_of_stale {now : Time} {s : State} (h : s.rxState ≠ .seekingHeader)
    (ht : s.cfg.packetTimeout < elapsed now s.rxHdrTime) :
    poll now s = withEarlier [.fault .stalePartialPacket, .resendAllSent]
      (poll now (receiveFault .stalePartialPacket s)) := by
  have e : staleCheck now (sampleClock now (beginOp s)) =
      receiveFault .stalePartialPacket (sampleClock now (beginOp s)) := staleCheck_of_stale (by exact h) (by exact ht)
  rw [poll, e]
  have d := drain_eq_poll (now := now) (u := receiveFault .stalePartialPacket (sampleClock now (beginOp s))) (.inl rfl)
    rfl rfl rfl
  have c : poll now (receiveFault .stalePartialPacket (sampleClock now (beginOp s))) =
      poll now (receiveFault .stalePartialPacket s) := poll_congr (by
    simp [sampleClock, beginOp, clearOutputs, receiveFault, sendResendAll, emit, wireWrite, dropPartial])
  rw [rxAvail, d, c]
  rfl

theorem ackEvent_eq (s : State) : ackEvent s = { s with
    events := s.events ++ [.ackReceived], txState := if s.txState = .awaitingAck then .idle else s.txState } := by
  unfold ackEvent
  cases h : s.txState <;> simp [emit, h]

/-- A POLL is one turn of its loop, and then a POLL of what that turn leaves (R95, R107). -/
theorem poll_turn_then {now : Time} {s u : State} {b : Byte} {more : List Byte} (hq : s.rxq = b :: more)
    (hn : NotStale now s) (hu : classifyAndConsume now (sampleClock now (beginOp s)) = u) (hun : NotStale now u) :
    poll now s = withEarlier u.events (poll now u) := by
  have hl : s.rxq.length = more.length + 1 := by rw [hq]; rfl
  have f := classifyAndConsume_frame now (sampleClock now (beginOp s))
  have h := classifyAndConsume_shrinks now (sampleClock now (beginOp s)) (by simp [hq])
  rw [hu] at f h
  rw [poll_of_notStale hn, hl, drain_cons _ _ _ _ _ (by simpa using hq), hu,
    drain_enough now more.length u.rxq.length u (by simp [hq] at h; omega) (Nat.le_refl _)]
  exact drain_eq_poll hun f.started f.result f.clock

/-- A POLL whose queue begins with an ACK, where one is matched, goes on with the rest (R97, R116). -/
theorem poll_ack_then {now : Time} {s : State} {more : List Byte} (hq : s.rxq = s.cfg.ackChar :: more)
    (hs : s.rxState ≠ .accumulating) (hn : NotStale now s) :
    poll now s = withEarlier [.ackReceived] (poll now { s with
      rxq := more, txState := if s.txState = .awaitingAck then .idle else s.txState }) := by
  rw [poll_turn_then (u := { sampleClock now (beginOp s) with
    rxq := more, events := [.ackReceived], txState := if s.txState = .awaitingAck then .idle else s.txState }) hq hn
    (by rw [classify_ack (rest := more) (by simpa using hq) (by simpa using hs), ackEvent_eq]; simp [rxPop, hq])
    (by exact hn)]
  exact congrArg (withEarlier [.ackReceived]) (poll_congr (by simp [sampleClock, beginOp, clearOutputs]))

/-- A POLL whose queue begins with the command pair, where it is matched, goes on with the rest (R97, R118). -/
theorem poll_command_then {now : Time} {s : State} {more : List Byte} (hq : s.rxq = cmdHi :: cmdLo :: more)
    (ha : cmdHi ≠ s.cfg.ackChar) (hs : s.rxState ≠ .accumulating) (hn : NotStale now s) :
    poll now s = withEarlier [.resendAllReceived] (poll now { s with
      rxq := more, txTable := s.txTable.map fun slot => { slot with dirty := true } }) := by
  rw [poll_turn_then (u := resendAllEvent { sampleClock now (beginOp s) with rxq := more }) hq hn
    (by rw [classify_command (rest := more) (by simpa using hq) (by simpa using ha) (by simpa using hs)]; simp [rxPop, hq])
    (by exact hn)]
  exact congrArg (withEarlier [.resendAllReceived]) (poll_congr
    (by simp [sampleClock, beginOp, clearOutputs, resendAllEvent, emit]))

/-- The packet whose header this POLL takes is not stale in it (R96). -/
theorem notStale_now {now : Time} {s : State} (h : s.rxHdrTime = now) : NotStale now s :=
  .inr (by rw [h, elapsed, BitVec.sub_self]; exact Nat.zero_le _)

/-- A POLL whose queue begins with a byte that is no message, in SeekingHeader, goes on with the rest (R99). -/
theorem poll_header_then {now : Time} {s : State} {b : Byte} {more : List Byte} (hs : s.rxState = .seekingHeader)
    (hq : s.rxq = b :: more) (ha : b ≠ s.cfg.ackChar) (hc : ¬ (b = cmdHi ∧ more.head? = some cmdLo)) :
    poll now s = poll now (if b = s.cfg.header then
        { s with rxq := more, rxbuf := [b], rxHdrTime := now, rxState := .seekingAddress }
      else { s with rxq := more }) := by
  have turn : classifyAndConsume now (sampleClock now (beginOp s)) =
      seekHeader b now { sampleClock now (beginOp s) with rxq := more } := by
    rw [classify_byte (by simpa using hq) (by simpa using ha) hc]
    simp [rxByte, rxPop, hs, hq]
  by_cases hb : b = s.cfg.header
  · rw [poll_turn_then (u := { sampleClock now (beginOp s) with
      rxq := more, rxbuf := [b], rxHdrTime := now, rxState := .seekingAddress }) hq (.inl hs)
      (by rw [turn]; simp [seekHeader, hb]) (notStale_now rfl), if_pos hb]
    exact poll_congr (by simp [sampleClock, beginOp, clearOutputs])
  · rw [poll_turn_then (u := { sampleClock now (beginOp s) with rxq := more }) hq (.inl hs)
      (by rw [turn]; simp [seekHeader, hb]) (.inl hs), if_neg hb]
    exact poll_congr (by simp [sampleClock, beginOp, clearOutputs])

/-- A POLL whose queue begins with the byte after a header goes on with the rest, from Accumulating or from SeekingHeader
(R100). -/
theorem poll_address_then {now : Time} {s : State} {b : Byte} {more : List Byte} (hs : s.rxState = .seekingAddress)
    (hb : s.rxbuf = [s.cfg.header]) (hq : s.rxq = b :: more) (hn : NotStale now s) (ha : b ≠ s.cfg.ackChar)
    (hc : ¬ (b = cmdHi ∧ more.head? = some cmdLo)) :
    poll now s = poll now (if b = s.cfg.localAddr then
        { s with rxq := more, rxbuf := [s.cfg.header, b], rxState := .accumulating }
      else { s with rxq := more, rxbuf := [], rxState := .seekingHeader }) := by
  have turn : classifyAndConsume now (sampleClock now (beginOp s)) =
      seekAddress b { sampleClock now (beginOp s) with rxq := more } := by
    rw [classify_byte (by simpa using hq) (by simpa using ha) hc]
    simp [rxByte, rxPop, hs, hq]
  have hn' : elapsed now s.rxHdrTime ≤ s.cfg.packetTimeout := hn.resolve_left (by simp [hs])
  by_cases h : b = s.cfg.localAddr
  · rw [poll_turn_then (u := { sampleClock now (beginOp s) with
      rxq := more, rxbuf := [s.cfg.header, b], rxState := .accumulating }) hq hn
      (by rw [turn]; simp [seekAddress, h, hb]) (.inr hn'), if_pos h]
    exact poll_congr (by simp [sampleClock, beginOp, clearOutputs])
  · rw [poll_turn_then (u := { sampleClock now (beginOp s) with rxq := more, rxbuf := [], rxState := .seekingHeader }) hq hn
      (by rw [turn]; simp [seekAddress, h, dropPartial]) (.inl rfl), if_neg h]
    exact poll_congr (by simp [sampleClock, beginOp, clearOutputs])

/-- A POLL whose queue begins with a byte of the packet being received goes on with what that byte leaves (R101). -/
theorem poll_content_then {now : Time} {s u : State} {b : Byte} {more : List Byte} (hs : s.rxState = .accumulating)
    (hq : s.rxq = b :: more) (hn : NotStale now s)
    (hu : accumulate b { sampleClock now (beginOp s) with rxq := more } = u) (hun : NotStale now u) :
    poll now s = withEarlier u.events (poll now u) := by
  refine poll_turn_then hq hn ?_ hun
  rw [classify_content (by simpa using hq) (by simpa using hs), ← hu]
  simp [rxPop, hq]

/-- The completion test on a buffer that an append made: the terminator stands two before the byte (R102). -/
theorem completes_append {c : LinkConfig} {buf : List Byte} (h : 2 ≤ buf.length) (b : Byte) :
    completes c (buf ++ [b]) = true ↔ buf[buf.length - 2]? = some c.terminator := by
  have e := threeBack_eq_getElem? (buf ++ [b]) (by simp; omega)
  have e2 : (buf ++ [b]).length - 3 = buf.length - 2 := by simp
  rw [e2, List.getElem?_append_left (by omega)] at e
  rw [completes_iff, e, Option.some.injEq]

theorem closePacket_frame (s : State) : ReceiveFrame s (closePacket s) := by
  unfold closePacket
  split
  · exact complete_frame s
  · exact receiveFault_frame .bufferOverflow s

@[simp] theorem closePacket_rxq (s : State) : (closePacket s).rxq = s.rxq := by
  unfold closePacket; split <;> simp

@[simp] theorem closePacket_rxState (s : State) : (closePacket s).rxState = .seekingHeader := by
  unfold closePacket; split <;> rfl

/-- The state in which a POLL closes a packet for this endpoint that stood at the front of its queue (R99 to R103). -/
def packetHeld (now : Time) (body more : List Byte) (s : State) : State :=
  { sampleClock now (beginOp s) with
    rxq := more, rxbuf := s.cfg.header :: s.cfg.localAddr :: body, rxHdrTime := now, rxState := .accumulating }

/-- A POLL whose queue begins with a packet for this endpoint closes it, and goes on with the rest from SeekingHeader
(R99 to R104, R107). -/
theorem poll_packet_then {now : Time} {body more : List Byte} {s : State} (hs : s.rxState = .seekingHeader)
    (hq : s.rxq = s.cfg.header :: s.cfg.localAddr :: body ++ more)
    (h1 : s.cfg.header ≠ s.cfg.ackChar) (h2 : cmdHi ≠ s.cfg.header)
    (h3 : s.cfg.localAddr ≠ s.cfg.ackChar) (h4 : cmdHi ≠ s.cfg.localAddr)
    (hb : takeBody s.cfg [s.cfg.header, s.cfg.localAddr] body = some (body, [])) :
    poll now s = withEarlier (closePacket (packetHeld now body more s)).events
      (poll now (closePacket (packetHeld now body more s))) := by
  have hl : s.rxq.length = body.length + 2 + more.length := by rw [hq]; simp; omega
  have f := closePacket_frame (packetHeld now body more s)
  have d := drain_eq_poll (now := now) (u := closePacket (packetHeld now body more s)) (.inl (closePacket_rxState _))
    f.started f.result f.clock
  rw [closePacket_rxq] at d
  rw [← d, poll_of_notStale (.inl hs), hl]
  exact drain_packet now body more more.length (sampleClock now (beginOp s)) (by exact hs) (by simpa using hq) h1 h2 h3 h4 hb

/-- A POLL whose queue begins with a packet for another endpoint discards it and stands in SeekingHeader at what follows it,
when none of its bytes is an ACK or a header and none begins a command (R100, R110). -/
theorem poll_foreign {s : State} (now : Time) {a : Byte} {tail more : List Byte} (hs : s.rxState = .seekingHeader)
    (hq : s.rxq = s.cfg.header :: a :: (tail ++ more)) (h1 : s.cfg.header ≠ s.cfg.ackChar) (h2 : cmdHi ≠ s.cfg.header)
    (ha : a ≠ s.cfg.localAddr) (hack : s.cfg.ackChar ∉ a :: tail) (hhead : s.cfg.header ∉ tail)
    (hcmd : ¬ [cmdHi, cmdLo] <:+: a :: tail) (hm : (a :: tail).getLast? = some cmdHi → more.head? ≠ some cmdLo) :
    poll now s =
      drain now more.length { sampleClock now (beginOp s) with rxq := more, rxbuf := [], rxHdrTime := now } := by
  simp only [List.mem_cons, not_or] at hack
  rw [poll_of_notStale (.inl hs)]
  have hl : s.rxq.length = (tail.length + more.length + 1) + 1 := by rw [hq]; simp
  rw [hl, drain_cons _ _ _ _ _ (by simpa using hq), classify_byte (by simpa using hq) (by exact h1)
    (fun h => h2 h.1.symm)]
  have t1 : rxByte s.cfg.header now (rxPop (sampleClock now (beginOp s))) = { sampleClock now (beginOp s) with
      rxq := a :: (tail ++ more), rxbuf := [s.cfg.header], rxHdrTime := now, rxState := .seekingAddress } := by
    simp [rxByte, seekHeader, rxPop, sampleClock, beginOp, clearOutputs, hs, hq]
  rw [t1, drain_cons _ _ _ a (tail ++ more) rfl, classify_byte (b := a) (rest := tail ++ more) rfl
    (by exact fun h => hack.1 h.symm) (by
    rintro ⟨rfl, h⟩
    cases tail with
    | nil => exact hm rfl (by simpa using h)
    | cons x rest => simp at h; subst h; exact hcmd ⟨[], rest, rfl⟩)]
  have t2 : ∀ u : State, u.rxState = .seekingAddress → u.cfg = s.cfg →
      rxByte a now u = dropPartial u := by
    intro u hu hc
    simp [rxByte, hu, seekAddress, hc, ha]
  rw [t2 _ (by rfl) (by rfl), drain_discards now tail more more.length _ (by rfl) (by rfl) (by exact hack.2)
    (by exact hhead) (fun h => hcmd (h.trans (List.suffix_cons a tail).isInfix)) (by
      intro h
      apply hm
      cases tail with
      | nil => simp at h
      | cons x rest => simpa using h)]
  simp [dropPartial, rxPop, sampleClock, beginOp, clearOutputs, hs]

/-! ### The causes of a flag set -/

/-- What the events of a POLL so far account for, since a state `s` with an empty list: which receive flags are set, and
which dirty flags (R28, R95, R118, R135). -/
structure Caused (s t : State) : Prop where
  readError : t.readError = true ↔ s.readError = true ∨ ∃ k, k ≠ .acknowledgmentTimeout ∧ Event.fault k ∈ t.events
  newData : t.newDataAvailable = true ↔ s.newDataAvailable = true ∨ ∃ es, Event.applied es ∈ t.events
  noTimeout : Event.fault .acknowledgmentTimeout ∉ t.events
  txTable : t.txTable = if Event.resendAllReceived ∈ t.events then s.txTable.map fun slot => { slot with dirty := true }
    else s.txTable

theorem Caused.refl {s : State} (h : s.events = []) : Caused s s := by
  constructor <;> simp [h]

theorem Caused.congr {s t u : State} (h : Caused s t) (h1 : u.readError = t.readError)
    (h2 : u.newDataAvailable = t.newDataAvailable) (h3 : u.events = t.events) (h4 : u.txTable = t.txTable) : Caused s u :=
  ⟨by rw [h1, h3]; exact h.readError, by rw [h2, h3]; exact h.newData, by rw [h3]; exact h.noTimeout,
    by rw [h3, h4]; exact h.txTable⟩

theorem Caused.receiveFault {s t : State} (h : Caused s t) {k : FaultKind} (hk : k ≠ .acknowledgmentTimeout) :
    Caused s (receiveFault k t) where
  readError := by simp; exact .inr ⟨k, hk, .inr rfl⟩
  newData := by simpa using h.newData
  noTimeout := by simpa [hk.symm] using h.noTimeout
  txTable := by simpa using h.txTable

theorem Caused.success {s t : State} (h : Caused s t) (es : List Entry) : Caused s (success es t) where
  readError := by simpa [Machine.success] using h.readError
  newData := by simp [Machine.success]
  noTimeout := by simpa [Machine.success] using h.noTimeout
  txTable := by simpa [Machine.success] using h.txTable

theorem Caused.ackEvent {s t : State} (h : Caused s t) : Caused s (ackEvent t) := by
  have e : (Machine.ackEvent t).events = t.events ++ [.ackReceived] := by
    unfold Machine.ackEvent; cases t.txState <;> rfl
  have r : (Machine.ackEvent t).readError = t.readError := by unfold Machine.ackEvent; cases t.txState <;> rfl
  have n : (Machine.ackEvent t).newDataAvailable = t.newDataAvailable := by
    unfold Machine.ackEvent; cases t.txState <;> rfl
  exact ⟨by rw [r, e]; simpa using h.readError, by rw [n, e]; simpa using h.newData, by rw [e]; simpa using h.noTimeout,
    by rw [e]; simpa using h.txTable⟩

theorem Caused.resendAllEvent {s t : State} (h : Caused s t) : Caused s (resendAllEvent t) where
  readError := by simpa [Machine.resendAllEvent] using h.readError
  newData := by simpa [Machine.resendAllEvent] using h.newData
  noTimeout := by simpa [Machine.resendAllEvent] using h.noTimeout
  txTable := by
    simp only [Machine.resendAllEvent, emit_txTable, emit_events, h.txTable]
    split <;> simp

theorem Caused.applyEntries {s t : State} (h : Caused s t) (all es : List Entry) : Caused s (applyEntries all es t) := by
  induction es generalizing t with
  | nil => exact h.success all
  | cons e rest ih =>
    rw [Machine.applyEntries]
    split
    · exact ih (h.congr rfl rfl rfl rfl)
    · exact h.receiveFault (k := .unknownIndex) (by decide)

theorem Caused.complete {s t : State} (h : Caused s t) : Caused s (complete t) := by
  refine Caused.congr (t := finishPacket (decodePacket t.cfg t.rxbuf) t) ?_ rfl rfl rfl rfl
  cases decodePacket t.cfg t.rxbuf with
  | tooShort => exact h.receiveFault (k := .tooShort) (by decide)
  | checksumMismatch => exact h.receiveFault (k := .checksumMismatch) (by decide)
  | ok es => exact h.applyEntries es es

theorem Caused.rxByte {s t : State} (h : Caused s t) (b : Byte) (now : Time) : Caused s (rxByte b now t) := by
  unfold Machine.rxByte seekHeader seekAddress accumulate
  dsimp only
  split
  · split
    · exact h.congr rfl rfl rfl rfl
    · exact h
  · split <;> exact h.congr rfl rfl rfl rfl
  · split
    · exact (h.congr (u := { t with rxbuf := t.rxbuf ++ [b] }) rfl rfl rfl rfl).complete
    · split
      · exact (h.congr (u := { t with rxbuf := t.rxbuf ++ [b] }) rfl rfl rfl rfl).receiveFault (k := .bufferOverflow)
          (by decide)
      · exact h.congr rfl rfl rfl rfl

theorem Caused.classifyAndConsume {s t : State} (h : Caused s t) (now : Time) : Caused s (classifyAndConsume now t) := by
  unfold Machine.classifyAndConsume
  split
  · exact h
  · split
    · exact (h.congr (u := rxPop t) rfl rfl rfl rfl).ackEvent
    · split
      · exact (h.congr (u := rxPop (rxPop t)) rfl rfl rfl rfl).resendAllEvent
      · exact (h.congr (u := rxPop t) rfl rfl rfl rfl).rxByte _ _

/-- The flags and dirty flags a POLL sets are those its events name. -/
theorem poll_caused (now : Time) (s : State) : Caused (sampleClock now (beginOp s)) (poll now s) :=
  poll_keeps (Caused (sampleClock now (beginOp s))) now (fun _ h => h.receiveFault (by decide))
    (fun _ h => h.classifyAndConsume now) s (.refl rfl)

end Sys2Proof.Machine
end

