-- ==== Sys2Proof/Laws/Transmit.lean ====
section
/-! SUPPORT. What the Idle scan selects, and the frame of SERVICE. -/

namespace Sys2Proof.Machine

/-- Whether a slot of a table is due, by its index (R81). -/
def dueAt (heartbeat now : Time) (table : List TxSlot) (i : Nat) : Bool :=
  match table[i]? with
  | some slot => slot.dirty || decide (heartbeat < elapsed now slot.lastSend)
  | none => false

/-- The entry of a slot of a table, by its index. -/
def entryAt (table : List TxSlot) (i : Nat) : Option Entry :=
  (table[i]?).map fun slot => ⟨BitVec.ofNat 8 i, slot.value⟩

theorem dueIndices_eq (now : Time) (s : State) :
    dueIndices now s = (List.range s.capTx).filter (dueAt s.cfg.heartbeat now s.txTable) := rfl

theorem entriesAt_eq (s : State) (is : List Nat) : entriesAt s is = is.filterMap (entryAt s.txTable) := rfl

/-- The scan from index `i` on, in terms of the whole table. -/
theorem scanSlots_spec (heartbeat now : Time) (table slots : List TxSlot) (i room : Nat) (h : table.drop i = slots) :
    (scanSlots heartbeat now room i slots).1 =
      (((List.range' i slots.length).filter (dueAt heartbeat now table)).take room).filterMap (entryAt table) ∧
    (scanSlots heartbeat now room i slots).2.length = slots.length ∧
    ∀ j, (scanSlots heartbeat now room i slots).2[j]? =
      if i + j ∈ ((List.range' i slots.length).filter (dueAt heartbeat now table)).take room
      then (slots[j]?).map (stampSlot now) else slots[j]? := by
  induction slots generalizing i room with
  | nil => simp [scanSlots]
  | cons slot rest ih =>
    have hi : table[i]? = some slot := by
      have := congrArg (fun l => l[0]?) h
      simpa using this
    have hd : table.drop (i + 1) = rest := by
      have := congrArg List.tail h
      simpa using this
    have notin : ∀ r, i ∉ ((List.range' (i + 1) rest.length).filter (dueAt heartbeat now table)).take r := by
      intro r hm
      have := (List.mem_filter.mp (List.mem_of_mem_take hm)).1
      simp at this
    have hdue : dueAt heartbeat now table i = slotDue heartbeat now slot := by simp [dueAt, hi, slotDue]
    have shift : ∀ j, i + (j + 1) = i + 1 + j := by intro j; omega
    rw [scanSlots]
    split
    · next hc =>
      simp only [Bool.and_eq_true, decide_eq_true_eq] at hc
      obtain ⟨r, rfl⟩ : ∃ r, room = r + 1 := ⟨room - 1, by omega⟩
      obtain ⟨h1, h2, h3⟩ := ih (i + 1) r hd
      simp only [List.length_cons, List.range'_succ, List.filter_cons, hdue, hc.1, if_true, List.take_succ_cons,
        Nat.add_sub_cancel]
      refine ⟨?_, by simp [h2], ?_⟩
      · simp [entryAt, hi, h1]
      · intro j
        cases j with
        | zero => simp
        | succ j =>
          have hne : i + 1 + j ≠ i := by omega
          simp only [List.getElem?_cons_succ, h3 j, List.mem_cons, hne, false_or, shift j]
    · next hc =>
      obtain ⟨h1, h2, h3⟩ := ih (i + 1) room hd
      have htake : ((List.range' i (slot :: rest).length).filter (dueAt heartbeat now table)).take room =
          ((List.range' (i + 1) rest.length).filter (dueAt heartbeat now table)).take room := by
        simp only [List.length_cons, List.range'_succ, List.filter_cons, hdue]
        cases hs : slotDue heartbeat now slot with
        | false => simp
        | true =>
          have : room = 0 := by simpa [hs] using hc
          simp [this]
      rw [htake]
      refine ⟨h1, by simp [h2], ?_⟩
      intro j
      cases j with
      | zero => simp [notin]
      | succ j => simp only [List.getElem?_cons_succ, h3 j, shift j]

/-- What SERVICE in Idle selects (R82, R83). -/
theorem selectSlots_entries (now : Time) (s : State) :
    (selectSlots now s).1 = entriesAt s (chosenIndices now s) := by
  have := (scanSlots_spec s.cfg.heartbeat now s.txTable s.txTable 0 s.cfg.maxEntries (by simp)).1
  rw [selectSlots, this, entriesAt_eq, chosenIndices, dueIndices_eq, List.range_eq_range', State.capTx]

/-- The table after the selection (R83). -/
theorem selectSlots_table (now : Time) (s : State) (j : Nat) :
    (selectSlots now s).2[j]? =
      if j ∈ chosenIndices now s then (s.txTable[j]?).map (stampSlot now) else s.txTable[j]? := by
  have := (scanSlots_spec s.cfg.heartbeat now s.txTable s.txTable 0 s.cfg.maxEntries (by simp)).2.2 j
  rw [selectSlots, this, chosenIndices, dueIndices_eq, List.range_eq_range', State.capTx, Nat.zero_add]

theorem selectSlots_length (now : Time) (s : State) : (selectSlots now s).2.length = s.txTable.length :=
  (scanSlots_spec s.cfg.heartbeat now s.txTable s.txTable 0 s.cfg.maxEntries (by simp)).2.1

theorem selectSlots_values (now : Time) (s : State) :
    (selectSlots now s).2.map TxSlot.value = s.txTable.map TxSlot.value := by
  refine List.ext_getElem? fun j => ?_
  rw [List.getElem?_map, selectSlots_table, List.getElem?_map]
  split <;> simp [Function.comp_def, stampSlot]

theorem mem_chosenIndices_lt {now : Time} {s : State} {i : Nat} (h : i ∈ chosenIndices now s) : i < s.capTx := by
  have := (List.mem_filter.mp (List.mem_of_mem_take h)).1
  simpa using this

theorem chosenIndices_length_le (now : Time) (s : State) :
    (chosenIndices now s).length ≤ s.cfg.maxEntries ∧ (chosenIndices now s).length ≤ s.capTx := by
  constructor
  · simp [chosenIndices]
  · have h1 : (dueIndices now s).length ≤ s.capTx := by
      simpa [dueIndices] using List.length_filter_le _ (List.range s.capTx)
    simp [chosenIndices]; omega

theorem chosenIndices_nodup (now : Time) (s : State) : (chosenIndices now s).Nodup :=
  ((List.nodup_range).filter _).sublist (List.take_sublist _ _)

/-- Slots in range each give one entry. -/
theorem entriesAt_length {s : State} {is : List Nat} (h : ∀ i ∈ is, i < s.capTx) : (entriesAt s is).length = is.length := by
  induction is with
  | nil => rfl
  | cons i is ih =>
    have hi : i < s.txTable.length := h i (by simp)
    have := ih (fun j hj => h j (by simp [hj]))
    rw [entriesAt_eq] at this ⊢
    simp [entryAt, hi, this]

theorem chosenIndices_eq_nil_iff {now : Time} {s : State} (h : 8 ≤ s.cfg.txBufCap) :
    chosenIndices now s = [] ↔ dueIndices now s = [] := by
  have : s.cfg.maxEntries ≠ 0 := by unfold LinkConfig.maxEntries; omega
  simp [chosenIndices, List.take_eq_nil_iff, this]

theorem selectSlots_eq_nil_iff {now : Time} {s : State} : (selectSlots now s).1 = [] ↔ chosenIndices now s = [] := by
  rw [selectSlots_entries, ← List.length_eq_zero_iff, entriesAt_length fun i hi => mem_chosenIndices_lt hi,
    List.length_eq_zero_iff]

/-- What no SERVICE changes (R80), and how it may change the rest. -/
structure ServiceFrame (s t : State) : Prop where
  rxTable : t.rxTable = s.rxTable
  rxState : t.rxState = s.rxState
  rxbuf : t.rxbuf = s.rxbuf
  rxHdrTime : t.rxHdrTime = s.rxHdrTime
  readError : t.readError = s.readError
  newDataAvailable : t.newDataAvailable = s.newDataAvailable
  rxq : t.rxq = s.rxq
  cfg : t.cfg = s.cfg
  started : t.started = s.started
  clock : t.clock = s.clock
  agenda : t.agenda = s.agenda
  result : t.result = s.result
  values : t.txTable.map TxSlot.value = s.txTable.map TxSlot.value
  wire : t.wire = s.wire ∨ ∃ b, t.wire = s.wire ++ [b]
  transmissionError : s.transmissionError = true → t.transmissionError = true

theorem ServiceFrame.refl (s : State) : ServiceFrame s s := by
  constructor <;> first | rfl | exact id | exact .inl rfl

theorem idleTick_frame (now : Time) (s : State) : ServiceFrame s (idleTick now s) := by
  unfold idleTick buildPacket
  dsimp only
  split
  · exact ServiceFrame.refl s
  · constructor <;> simp [selectSlots_values]

theorem sendingTick_frame (now : Time) (s : State) : ServiceFrame s (sendingTick now s) := by
  unfold sendingTick
  dsimp only
  constructor <;> (repeat' split) <;> simp

theorem awaitingTick_frame (now : Time) (s : State) : ServiceFrame s (awaitingTick now s) := by
  unfold awaitingTick raise acknowledgmentTimeout
  dsimp only
  split
  · constructor <;> split <;> simp
  · exact ServiceFrame.refl s

theorem serviceAction_frame (now : Time) (s : State) : ServiceFrame s (serviceAction now s) := by
  unfold serviceAction
  split
  · exact idleTick_frame now s
  · exact ServiceFrame.refl s
  · exact sendingTick_frame now s
  · exact awaitingTick_frame now s

/-- The action of a SERVICE in each state (R80). -/
theorem service_idle {now : Time} {s : State} (h : s.txState = .idle) :
    service now s = idleTick now (sampleClock now (beginOp s)) := by
  simp [service, serviceAction, sampleClock, h]

theorem service_sending {now : Time} {s : State} (h : s.txState = .sending) :
    service now s = sendingTick now (sampleClock now (beginOp s)) := by
  simp [service, serviceAction, sampleClock, h]

theorem service_awaitingAck {now : Time} {s : State} (h : s.txState = .awaitingAck) :
    service now s = awaitingTick now (sampleClock now (beginOp s)) := by
  simp [service, serviceAction, sampleClock, h]

/-- Every change of `tx_state` a SERVICE makes (R94). -/
theorem serviceAction_txState (now : Time) (s : State) (h : (serviceAction now s).txState ≠ s.txState) :
    (s.txState = .idle ∧ dueIndices now s ≠ [] ∧ (serviceAction now s).txState = .sending) ∨
    (s.txState = .sending ∧ s.txPos + 1 = s.txLen ∧ (serviceAction now s).txState = .awaitingAck) ∨
    (s.txState = .awaitingAck ∧ s.cfg.ackTimeout < elapsed now s.txStartTime ∧
      (serviceAction now s).txState = if s.cfg.retransmit then .sending else .idle) := by
  unfold serviceAction at h ⊢
  cases hs : s.txState with
  | idle =>
    left
    simp only [hs] at h ⊢
    unfold idleTick at h ⊢
    dsimp only at h ⊢
    split
    · next e => rw [if_pos e] at h; exact absurd hs h
    · next e => exact ⟨trivial, fun hd => e (selectSlots_eq_nil_iff.mpr (by simp [chosenIndices, hd])), rfl⟩
  | building => simp only [hs] at h; exact absurd rfl h
  | sending =>
    right; left
    simp only [hs] at h ⊢
    unfold sendingTick at h ⊢
    dsimp only at h ⊢
    split
    · next e => exact ⟨trivial, e, rfl⟩
    · next e => rw [if_neg e] at h; split at h <;> simp [hs] at h
  | awaitingAck =>
    right; right
    simp only [hs] at h ⊢
    unfold awaitingTick raise acknowledgmentTimeout at h ⊢
    dsimp only at h ⊢
    split
    · next e => refine ⟨trivial, e, ?_⟩; split <;> rfl
    · next e => rw [if_neg e] at h; exact absurd hs h

end Sys2Proof.Machine
end

