-- ==== Sys2Proof/Laws/Invariant.lean ====
section
/-! SUPPORT. What each operation keeps of the invariant of R31. -/

namespace Sys2Proof.Machine

/-! ### The receive rows -/

/-- An empty buffer in SeekingHeader is all R31 asks. -/
theorem rxInv_dropPartial (s : State) : RxInv (dropPartial s) := by simp [RxInv, State.rxLen]

theorem rxInv_receiveFault (k : FaultKind) (s : State) : RxInv (receiveFault k s) := by simp [RxInv, State.rxLen]

theorem rxInv_complete (s : State) : RxInv (complete s) := rxInv_dropPartial _

/-- Nothing held in SeekingHeader is all R31 asks there. -/
theorem rxInv_of_empty {s : State} (h1 : s.rxState = .seekingHeader) (h2 : s.rxbuf = []) : RxInv s := by
  simp [RxInv, State.rxLen, h1, h2]

/-- R31's receive rows read four fields only. -/
theorem RxInv.congr {s t : State} (h : RxInv s) (h1 : t.rxState = s.rxState) (h2 : t.rxbuf = s.rxbuf) (h3 : t.cfg = s.cfg) :
    RxInv t := by
  unfold RxInv State.rxLen at *
  rw [h1, h2, h3]
  exact h

theorem rxInv_seekHeader {s : State} (b : Byte) (now : Time) (h : RxInv s) : RxInv (seekHeader b now s) := by
  unfold seekHeader
  split
  · next e => simp [RxInv, e]
  · exact h

theorem rxInv_seekAddress {s : State} (b : Byte) (h : RxInv s) (hs : s.rxState = .seekingAddress)
    (hcap : 5 ≤ s.cfg.rxBufCap) : RxInv (seekAddress b s) := by
  unfold seekAddress
  split
  · next e =>
    have hb : s.rxbuf = [s.cfg.header] := by simpa [RxInv, hs] using h
    simp only [RxInv, State.rxLen, hb]
    refine ⟨by simp, by simp; omega, by simp, by simp [e], ?_⟩
    intro n h3 hn
    simp at hn
    omega
  · exact rxInv_dropPartial s

theorem rxInv_accumulate {s : State} (b : Byte) (h : RxInv s) (hs : s.rxState = .accumulating) :
    RxInv (accumulate b s) := by
  simp only [RxInv, hs, State.rxLen] at h
  obtain ⟨h2, hlt, hh, ha, hn⟩ := h
  unfold accumulate
  dsimp only
  split
  · exact rxInv_complete _
  · next hc =>
    split
    · exact rxInv_receiveFault _ _
    · next hl =>
      simp only [State.rxLen, List.length_append, List.length_cons, List.length_nil] at hl
      simp only [RxInv, hs, State.rxLen]
      have g : ∀ k, k < s.rxbuf.length → (s.rxbuf ++ [b])[k]? = s.rxbuf[k]? := fun k hk =>
        List.getElem?_append_left hk
      refine ⟨by simp; omega, by simp; omega, by rw [g 0 (by omega), hh], by rw [g 1 (by omega), ha], ?_⟩
      intro n h3 hle
      simp only [List.length_append, List.length_cons, List.length_nil] at hle
      by_cases hlast : n = s.rxbuf.length + 1
      · have t3 : 3 ≤ (s.rxbuf ++ [b]).length := by simp; omega
        have e := threeBack_eq_getElem? _ t3
        have : (s.rxbuf ++ [b]).length - 3 = n - 3 := by simp; omega
        rw [this] at e
        rw [e]
        intro hx
        exact hc ((completes_iff _ _).mpr (by simpa using hx))
      · rw [g (n - 3) (by omega)]
        exact hn n h3 (by omega)

theorem rxInv_rxByte {s : State} (b : Byte) (now : Time) (h : RxInv s) (hcap : 5 ≤ s.cfg.rxBufCap) :
    RxInv (rxByte b now s) := by
  unfold rxByte
  split
  · exact rxInv_seekHeader b now h
  · next hs => exact rxInv_seekAddress b h hs hcap
  · next hs => exact rxInv_accumulate b h hs

theorem rxInv_ackEvent {s : State} (h : RxInv s) : RxInv (ackEvent s) := by
  unfold ackEvent
  cases s.txState <;> exact h.congr rfl rfl rfl

theorem rxInv_classifyAndConsume {s : State} (now : Time) (h : RxInv s) (hcap : 5 ≤ s.cfg.rxBufCap) :
    RxInv (classifyAndConsume now s) := by
  unfold classifyAndConsume
  split
  · exact h
  · split
    · exact rxInv_ackEvent (h.congr rfl rfl rfl)
    · split
      · exact h.congr rfl rfl rfl
      · exact rxInv_rxByte _ now (h.congr rfl rfl rfl) hcap

/-- R31's receive rows after a POLL, whatever arrives. -/
theorem rxInv_poll {s : State} (now : Time) (h : RxInv s) (hcap : 5 ≤ s.cfg.rxBufCap) : RxInv (poll now s) := by
  refine (poll_keeps (fun u => RxInv u ∧ u.cfg = s.cfg) now ?_ ?_ s ⟨h.congr rfl rfl rfl, rfl⟩).1
  · intro u hu
    exact ⟨rxInv_receiveFault _ _, by rw [(receiveFault_frame _ _).cfg, hu.2]⟩
  · intro u hu
    exact ⟨rxInv_classifyAndConsume now hu.1 (by rw [hu.2]; exact hcap),
      by rw [(classifyAndConsume_frame _ _).cfg, hu.2]⟩

/-! ### The transmit rows -/

/-- R31's transmit rows read four fields only. -/
theorem TxInv.congr {s t : State} (h : TxInv s) (h1 : t.txState = s.txState) (h2 : t.txbuf = s.txbuf)
    (h3 : t.txPos = s.txPos) (h4 : t.cfg = s.cfg) : TxInv t := by
  unfold TxInv TxLengthOk State.txLen at *
  rw [h1, h2, h3, h4]
  exact h

theorem txInv_of_idle {s : State} (h : s.txState = .idle) : TxInv s := by simp [TxInv, h]

/-- The length of a packet Building makes (R31, R82). -/
theorem txLengthOk_built (now : Time) (s : State) (h : 8 ≤ s.cfg.txBufCap) (hd : (selectSlots now s).1 ≠ []) :
    TxLengthOk (buildPacket (selectSlots now s).1 (selectSlots now s).2 s) := by
  have hlen : (selectSlots now s).1.length = (chosenIndices now s).length := by
    rw [selectSlots_entries, entriesAt_length fun i hi => mem_chosenIndices_lt hi]
  have hpos : 0 < (selectSlots now s).1.length := List.length_pos_iff.mpr hd
  have hle := (chosenIndices_length_le now s).1
  rw [← hlen] at hle
  unfold TxLengthOk State.txLen buildPacket
  simp only [emit_txbuf, emit_cfg, encodePacket_length]
  unfold LinkConfig.maxEntries at *
  exact ⟨by omega, by omega, _, hpos, hle, rfl⟩

theorem txInv_idleTick {s : State} (now : Time) (h : 8 ≤ s.cfg.txBufCap) (hs : s.txState = .idle) :
    TxInv (idleTick now s) := by
  unfold idleTick
  dsimp only
  split
  · exact txInv_of_idle hs
  · next hd =>
    have hl := txLengthOk_built now s h hd
    refine ⟨hl, ?_⟩
    have h8 := hl.1
    simp only [buildPacket, emit_txPos, State.txLen, emit_txbuf] at h8 ⊢
    omega

theorem txInv_sendingTick {s : State} (now : Time) (h : TxInv s) (hs : s.txState = .sending) :
    TxInv (sendingTick now s) := by
  simp only [TxInv, hs] at h
  obtain ⟨hl, hp⟩ := h
  unfold sendingTick
  dsimp only
  split
  · next e =>
    split <;> exact ⟨hl, e⟩
  · next e =>
    have hlt : s.txPos + 1 < s.txLen := by omega
    split <;> simp only [TxInv, wireWrite_txState, hs] <;> exact ⟨hl, hlt⟩

theorem txInv_awaitingTick {s : State} (now : Time) (h : TxInv s) (hs : s.txState = .awaitingAck) :
    TxInv (awaitingTick now s) := by
  unfold awaitingTick raise acknowledgmentTimeout
  dsimp only
  split
  · split
    · simp only [TxInv, hs] at h
      exact ⟨h.1, by have := h.1.1; simp only [State.txLen] at this ⊢; show 0 < _; simp; omega⟩
    · exact txInv_of_idle rfl
  · exact h

theorem txInv_serviceAction {s : State} (now : Time) (h : TxInv s) (hcap : 8 ≤ s.cfg.txBufCap) :
    TxInv (serviceAction now s) := by
  unfold serviceAction
  split
  · next hs => exact txInv_idleTick now hcap hs
  · exact h
  · next hs => exact txInv_sendingTick now h hs
  · next hs => exact txInv_awaitingTick now h hs

/-- What a POLL does to the transmit rows (R94, R95). -/
theorem ReceiveFrame.txInv {s t : State} (f : ReceiveFrame s t) (h : TxInv s) : TxInv t := by
  rcases f.txState with e | ⟨-, e, -⟩
  · exact h.congr e f.txbuf f.txPos f.cfg
  · exact txInv_of_idle e

/-! ### The configuration rows -/

theorem ReceiveFrame.capTx {s t : State} (f : ReceiveFrame s t) : t.capTx = s.capTx := by
  simpa [State.capTx] using congrArg List.length f.values

theorem ServiceFrame.capTx {s t : State} (f : ServiceFrame s t) : t.capTx = s.capTx := by
  simpa [State.capTx] using congrArg List.length f.values

/-- The lock clause asks nothing once the lock is set. -/
theorem ConfigInv.started {s t : State} (h : ConfigInv s) (h1 : t.capTx = s.capTx) (h2 : t.capRx = s.capRx)
    (h3 : t.cfg = s.cfg) (h4 : t.started = true) : ConfigInv t := by
  obtain ⟨a, b, c, d, e, f, -⟩ := h
  unfold ConfigInv
  rw [h1, h2, h3, h4]
  exact ⟨a, b, c, d, e, f, by simp⟩

/-- POLL keeps the invariant. -/
theorem inv_poll {s : State} (now : Time) (h : s.Inv) : (poll now s).Inv := by
  have f := poll_frame now s
  have hb : TxInv (sampleClock now (beginOp s)) := h.1.congr rfl rfl rfl rfl
  exact ⟨f.txInv hb, rxInv_poll now h.2.1 h.2.2.2.2.2.2.2.1, h.2.2.started f.capTx f.capRx f.cfg f.started⟩

/-- SERVICE keeps the invariant. -/
theorem inv_service {s : State} (now : Time) (h : s.Inv) : (service now s).Inv := by
  have f := serviceAction_frame now (sampleClock now (beginOp s))
  have hb : TxInv (sampleClock now (beginOp s)) := h.1.congr rfl rfl rfl rfl
  exact ⟨txInv_serviceAction now hb h.2.2.2.2.2.2.1, h.2.1.congr f.rxState f.rxbuf f.cfg,
    h.2.2.started f.capTx (congrArg List.length f.rxTable) f.cfg f.started⟩

/-- The transport's moves, the agenda and the outputs are no part of the invariant. -/
theorem State.Inv.congr {s t : State} (h : s.Inv) (h1 : t.txState = s.txState) (h2 : t.txbuf = s.txbuf)
    (h3 : t.txPos = s.txPos) (h4 : t.cfg = s.cfg) (h5 : t.rxState = s.rxState) (h6 : t.rxbuf = s.rxbuf)
    (h7 : t.capTx = s.capTx) (h8 : t.capRx = s.capRx) (h9 : t.started = s.started) : t.Inv := by
  refine ⟨h.1.congr h1 h2 h3 h4, h.2.1.congr h5 h6 h4, ?_⟩
  unfold ConfigInv
  rw [h7, h8, h4, h9, h1, h5]
  exact h.2.2

/-- A function called directly keeps the invariant, whatever it returns. -/
theorem inv_answer {s : State} (r : Result) (h : s.Inv) : (answer r (clearOutputs s)).Inv :=
  h.congr rfl rfl rfl rfl rfl rfl rfl rfl rfl

/-- Bytes that arrive and are polled keep the invariant, whatever they are. -/
theorem inv_receiveBytes {s : State} (bytes : List Byte) (h : s.Inv) : (receiveBytes bytes s).Inv :=
  inv_poll _ (h.congr rfl rfl rfl rfl rfl rfl rfl rfl rfl)

end Sys2Proof.Machine
end

