-- ==== Sys2Proof/Laws/Packet.lean ====
section
/-! SUPPORT. A packet with a matching checksum, what ENCODE builds among them, from the queue to the receive table. -/

namespace Sys2Proof.Machine

/-- DECODE of an encoded packet (R78). -/
theorem decodePacket_encodePacket (c : LinkConfig) (addr : Byte) (es : List Entry) :
    decodePacket c (encodePacket c addr es) = .ok es := by
  rw [encodePacket_eq, decodePacket_append _ _ _ _ (by simp), if_pos ((valueBytes_eq_iff _ _ _).mp rfl),
    ← encodePacket_eq, encodePacket_eq_cons, payloadOf_packet, entriesOf_payloadBytes]

/-- Bytes with a matching checksum decode to the whole entries of their payload, stray bytes ignored (R76, R77). -/
theorem decodePacket_stray {c : LinkConfig} {h a m c1 c2 : Byte} {es : List Entry} {stray : List Byte} (hs : stray.length < 3)
    (hc : (crc16 c.crcTable ([h, a] ++ payloadBytes es ++ stray ++ [m])).toNat = c1.toNat * 256 + c2.toNat) :
    decodePacket c (h :: a :: (payloadBytes es ++ stray ++ [m, c1, c2])) = .ok es := by
  have e : h :: a :: (payloadBytes es ++ stray ++ [m, c1, c2]) = [h, a] ++ payloadBytes es ++ stray ++ [m] ++ [c1, c2] := by
    simp
  rw [e, decodePacket_append _ _ _ _ (by simp; omega), if_pos hc, ← e, payloadOf_packet,
    entriesOf_payloadBytes_append _ _ hs]

/-- Closing a packet with a matching checksum applies the packet's entries (R104, R105). -/
theorem closePacket_good {s : State} {es : List Entry} {stray : List Byte} {c1 c2 : Byte} (hs : stray.length < 3)
    (hc : (crc16 s.cfg.crcTable ([s.cfg.header, s.cfg.localAddr] ++ payloadBytes es ++ stray ++ [s.cfg.terminator])).toNat =
      c1.toNat * 256 + c2.toNat) (now : Time) (more : List Byte) :
    closePacket (packetHeld now (payloadBytes es ++ stray ++ [s.cfg.terminator, c1, c2]) more s) =
      dropPartial (applyEntries es es (packetHeld now (payloadBytes es ++ stray ++ [s.cfg.terminator, c1, c2]) more s)) := by
  refine closePacket_ok ?_ (decodePacket_stray hs hc)
  rw [completes_iff]
  exact threeBack_append (s.cfg.header :: s.cfg.localAddr :: (payloadBytes es ++ stray)) _ _ _

/-- Bytes after an address with no terminator but the one before their last two end the packet exactly (R54). -/
theorem takeBody_good {c : LinkConfig} {payload : List Byte} {c1 c2 : Byte} (hf : FramingDistinct c)
    (ha : AddressesDistinct c) (ht : c.terminator ∉ payload) (hl : 5 + payload.length ≤ c.rxBufCap) :
    takeBody c [c.header, c.localAddr] (payload ++ [c.terminator, c1, c2]) =
      some (payload ++ [c.terminator, c1, c2], []) :=
  takeBody_conforming c [c.header, c.localAddr] payload c1 c2 (by simp)
    (by simp [ht, hf.1.symm, ha.2.1.symm]) (by simp; omega)

/-- A POLL whose queue begins with a packet for this endpoint with a matching checksum walks its entries and goes on with the
rest (R99 to R107). -/
theorem poll_good_then {s : State} {now : Time} {es : List Entry} {stray more : List Byte} {c1 c2 : Byte}
    (hf : FramingDistinct s.cfg) (ha : AddressesDistinct s.cfg) (hs : s.rxState = .seekingHeader)
    (hq : s.rxq = s.cfg.header :: s.cfg.localAddr :: (payloadBytes es ++ stray ++ [s.cfg.terminator, c1, c2]) ++ more)
    (h3 : stray.length < 3) (ht : s.cfg.terminator ∉ payloadBytes es ++ stray)
    (hl : 5 + (payloadBytes es ++ stray).length ≤ s.cfg.rxBufCap)
    (hc : (crc16 s.cfg.crcTable ([s.cfg.header, s.cfg.localAddr] ++ payloadBytes es ++ stray ++ [s.cfg.terminator])).toNat =
      c1.toNat * 256 + c2.toNat) :
    poll now s = withEarlier
        (dropPartial (applyEntries es es
          (packetHeld now (payloadBytes es ++ stray ++ [s.cfg.terminator, c1, c2]) more s))).events
      (poll now (dropPartial (applyEntries es es
        (packetHeld now (payloadBytes es ++ stray ++ [s.cfg.terminator, c1, c2]) more s)))) := by
  rw [poll_packet_then hs hq hf.2.1 hf.2.2.2.1 ha.2.2.1 ha.2.2.2.2.2.2 (takeBody_good hf ha ht hl), closePacket_good h3 hc]

/-- An encoded packet, as the bytes above. -/
theorem encodePacket_body (c : LinkConfig) (es : List Entry) : ∃ c1 c2 : Byte,
    encodePacket c c.localAddr es = c.header :: c.localAddr :: (payloadBytes es ++ [] ++ [c.terminator, c1, c2]) ∧
    (crc16 c.crcTable ([c.header, c.localAddr] ++ payloadBytes es ++ [] ++ [c.terminator])).toNat =
      c1.toNat * 256 + c2.toNat := by
  refine ⟨_, _, by rw [encodePacket_eq_cons, List.append_nil], ?_⟩
  have := (valueBytes_eq_iff (crc16 c.crcTable (packetBody c c.localAddr es)) _ _).mp rfl
  rw [← this]
  simp [packetBody]

/-- A POLL whose whole queue is a conforming packet for this endpoint: its entries are walked (R99 to R105). -/
theorem poll_conforming {s : State} {now : Time} {es : List Entry} (hf : FramingDistinct s.cfg)
    (ha : AddressesDistinct s.cfg) (hs : s.rxState = .seekingHeader)
    (hq : s.rxq = encodePacket s.cfg s.cfg.localAddr es)
    (ht : s.cfg.terminator ∉ payloadBytes es) (hl : 5 + 3 * es.length ≤ s.cfg.rxBufCap) :
    poll now s = dropPartial (applyEntries es es { sampleClock now (beginOp s) with
      rxq := [], rxbuf := s.rxq, rxHdrTime := now, rxState := .accumulating }) := by
  obtain ⟨c1, c2, he, hc⟩ := encodePacket_body s.cfg es
  have hq' := hq.trans he
  rw [poll_packet hs hq' hf.2.1 hf.2.2.2.1 ha.2.2.1 ha.2.2.2.2.2.2
    (takeBody_good hf ha (by simpa using ht) (by simpa using hl)), hq']
  exact closePacket_good (by simp) hc now []

/-- An index no entry names keeps its value. -/
theorem applyAll_other (es : List Entry) (table : List Value) (i : Nat) (h : ∀ e ∈ es, e.index.toNat ≠ i) :
    (applyAll table es)[i]? = table[i]? := by
  induction es generalizing table with
  | nil => rfl
  | cons e rest ih =>
    show (applyAll (table.set e.index.toNat e.value) rest)[i]? = _
    rw [ih _ (fun x hx => h x (by simp [hx]))]
    simp [h e (by simp)]

/-- Applying the entries of some slots makes exactly those indices mirror the sender's table (R105, R46). -/
theorem applyAll_entries (s : State) (h256 : s.capTx ≤ 256) (is : List Nat) (hn : is.Nodup) (table : List Value)
    (hi : ∀ i ∈ is, i < s.capTx) (hl : s.capTx ≤ table.length) :
    (∀ i ∈ is, (applyAll table (entriesAt s is))[i]? = (s.txTable[i]?).map TxSlot.value) ∧
    ∀ i, i ∉ is → (applyAll table (entriesAt s is))[i]? = table[i]? := by
  have idx : ∀ js : List Nat, (∀ i ∈ js, i < s.capTx) → ∀ e ∈ entriesAt s js, e.index.toNat ∈ js := by
    intro js hj e he
    simp only [entriesAt, List.mem_filterMap] at he
    obtain ⟨j, hjm, hje⟩ := he
    obtain ⟨slot, _, rfl⟩ := Option.map_eq_some_iff.mp hje
    have := hj j hjm
    have : (BitVec.ofNat 8 j).toNat = j := by simp; omega
    rw [this]; exact hjm
  refine ⟨?_, fun i hni => applyAll_other _ _ _ (fun e he h => hni (by rw [← h]; exact idx is hi e he))⟩
  induction is generalizing table with
  | nil => simp
  | cons j rest ih =>
    obtain ⟨hjn, hn⟩ := List.nodup_cons.mp hn
    have hj : j < s.txTable.length := hi j (by simp)
    have hj' : j < s.capTx := hj
    have hrest : ∀ i ∈ rest, i < s.capTx := fun i h => hi i (by simp [h])
    have e1 : entriesAt s (j :: rest) = ⟨BitVec.ofNat 8 j, s.txTable[j].value⟩ :: entriesAt s rest := by
      simp [entriesAt, hj]
      rfl
    have ej : (BitVec.ofNat 8 j).toNat = j := by simp; omega
    have e2 : applyAll table (entriesAt s (j :: rest)) = applyAll (table.set j s.txTable[j].value) (entriesAt s rest) := by
      rw [e1]
      show applyAll (table.set (BitVec.ofNat 8 j).toNat _) _ = _
      rw [ej]
    intro i him
    rw [e2]
    rcases List.mem_cons.mp him with rfl | him
    · rw [applyAll_other _ _ _ (fun e he h => hjn (by have := idx rest hrest e he; rw [h] at this; exact this))]
      have : i < table.length := by omega
      simp [this, hj]
      rfl
    · exact ih hn _ hrest (by simpa using hl) i him

end Sys2Proof.Machine
end

