-- ==== Sys2Proof/Laws/PerInstr.lean ====
section
/-! SUPPORT. A fact of every instruction, one lemma per constructor: its frame is of the row's format and begins as the
opcode table says. -/

namespace Sys2Proof.Laws.LeadingBytes

open Sys2Proof Sys2Proof.Machine

/-- The bytes a host operation's frame holds, by its number of R59 and the widths of its operands (log 2). -/
def hostLength (op : Nat) : Nat :=
  match op with
  | 0 => 4
  | 1 => 5
  | 2 => 5
  | 3 => 2
  | 4 => 3
  | 5 => 17
  | _ => 8

/-- The frame of a host row: its number first, then its operands. -/
def HostFrame (op : Nat) (f : Frame) : Prop :=
  ∃ args, f = .host (BitVec.ofNat 8 op :: args) ∧ args.length + 1 = hostLength op

/-- Under every configuration, the frame of a WIRE row begins with the configured byte that names the message (R45, R48,
R49), that of a HOST row with its number (R59), and that of a FUNC row names the function (R60). -/
def Statement : Instr → Prop
  | .data addr body => ∀ c, ∃ rest, encode c (.data addr body) = .wire (c.header :: addr :: rest)
  | .ack => ∀ c, encode c .ack = .wire [c.ackChar]
  | .resendAll => ∀ c, encode c .resendAll = .wire [0xFE, 0xED]
  | .publish index value => ∀ c, HostFrame 0 (encode c (.publish index value))
  | .service now => ∀ c, HostFrame 1 (encode c (.service now))
  | .poll now => ∀ c, HostFrame 2 (encode c (.poll now))
  | .read index => ∀ c, HostFrame 3 (encode c (.read index))
  | .take flag clear => ∀ c, HostFrame 4 (encode c (.take flag clear))
  | .configure h m a hb at1 pt r => ∀ c, HostFrame 5 (encode c (.configure h m a hb at1 pt r))
  | .reset p q m n r => ∀ c, HostFrame 6 (encode c (.reset p q m n r))
  | .crc16 bytes => ∀ c, encode c (.crc16 bytes) = .func .crc16 bytes
  | .encode addr es => ∀ c, ∃ payload, payload.length = 3 * es.length ∧
      Sys2Proof.encode c (.encode addr es) = .func .encode (addr :: payload)
  | .decode bytes => ∀ c, Sys2Proof.encode c (.decode bytes) = .func .decode bytes

theorem data (addr : Byte) (body : List Byte) : Statement (.data addr body) := fun _ => ⟨_, rfl⟩

theorem ack : Statement .ack := fun _ => rfl

theorem resendAll : Statement .resendAll := fun _ => by
  show Frame.wire [cmdHi, cmdLo] = _
  decide

theorem publish (index : Byte) (value : Value) : Statement (.publish index value) := fun _ => ⟨_, rfl, rfl⟩

theorem service (now : Time) : Statement (.service now) := fun _ => ⟨_, rfl, rfl⟩

theorem poll (now : Time) : Statement (.poll now) := fun _ => ⟨_, rfl, rfl⟩

theorem read (index : Byte) : Statement (.read index) := fun _ => ⟨_, rfl, rfl⟩

theorem take (flag : StatusFlag) (clear : Bool) : Statement (.take flag clear) := fun _ => ⟨_, rfl, rfl⟩

theorem configure (h m a : Byte) (hb at1 pt : Time) (r : Bool) : Statement (.configure h m a hb at1 pt r) :=
  fun _ => ⟨_, rfl, rfl⟩

theorem reset (p q : Byte) (m n : Nat) (r : Bool) : Statement (.reset p q m n r) := fun _ => ⟨_, rfl, rfl⟩

theorem crc16 (bytes : List Byte) : Statement (.crc16 bytes) := fun _ => rfl

theorem encode (addr : Byte) (es : List Entry) : Statement (.encode addr es) :=
  fun _ => ⟨payloadBytes es, payloadBytes_length es, rfl⟩

theorem decode (bytes : List Byte) : Statement (.decode bytes) := fun _ => rfl

end Sys2Proof.Laws.LeadingBytes
end

