-- ==== Sys2Proof/Laws/Step.lean ====
section
/-! SUPPORT. What `exec` answers for each instruction, in terms of the shared operations. -/

namespace Sys2Proof.Machine

/-- A POLL's meaning. -/
theorem exec_poll (now : Time) (s : State) : exec (.poll now) s = .next (poll now s) := rfl

/-- A SERVICE's meaning. -/
theorem exec_service (now : Time) (s : State) : exec (.service now) s = .next (service now s) := rfl

/-- What one PUBLISH makes of the transmit table; an index out of range leaves it (R123, R124). -/
theorem execPublish_cases (index : Byte) (value : Value) (s : State) :
    (∃ slot, s.txTable[index.toNat]? = some slot ∧ execPublish index value s = .next { beginOp s with
      txTable := s.txTable.set index.toNat (publishSlot s.cfg.publishMarksUnchanged value slot) }) ∨
    (s.txTable[index.toNat]? = none ∧ execPublish index value s = .next (emit .rejected (beginOp s))) := by
  unfold execPublish
  cases h : s.txTable[index.toNat]? with
  | some slot => exact .inl ⟨slot, rfl, rfl⟩
  | none => exact .inr ⟨rfl, rfl⟩

/-- What CONFIGURE writes: the configuration while unlocked, nothing afterwards (R129, R130). -/
theorem execConfigure_cases (h m a : Byte) (hb at1 pt : Time) (r : Bool) (s : State) :
    (s.started = true ∧ execConfigure h m a hb at1 pt r s = .next (emit .rejected (clearOutputs s))) ∨
    (s.started = false ∧ execConfigure h m a hb at1 pt r s = .next { clearOutputs s with
      cfg := { s.cfg with header := h, terminator := m, ackChar := a, heartbeat := hb, ackTimeout := at1,
                          packetTimeout := pt, retransmit := r } }) := by
  unfold execConfigure
  cases hs : s.started with
  | true => exact .inl ⟨rfl, rfl⟩
  | false => exact .inr ⟨rfl, rfl⟩

/-- What RESET leaves, field by field (R154 to R156). -/
theorem execReset_eq (p q : Byte) (m n : Nat) (r : Bool) (s : State) :
    execReset p q m n r s = .next
      { txTable := List.replicate m TxSlot.zero, rxTable := List.replicate n 0, txState := .idle, txbuf := [], txPos := 0,
        txStartTime := 0, rxState := .seekingHeader, rxbuf := [], rxHdrTime := 0, transmissionError := false,
        readError := false, newDataAvailable := false, started := false, cfg := resetConfig p q r s.cfg, rxq := s.rxq,
        wire := s.wire, clock := s.clock, events := [], result := .nothing, agenda := s.agenda } := rfl

/-- The configuration RESET leaves, field by field (R154, R155). -/
theorem resetConfig_eq (p q : Byte) (r : Bool) (c : LinkConfig) :
    resetConfig p q r c =
      { header := 0x3C, terminator := 0x3E, ackChar := 0x06, heartbeat := 500, ackTimeout := 100, packetTimeout := 100,
        retransmit := r, peerAddr := p, localAddr := q, txBufCap := c.txBufCap, rxBufCap := c.rxBufCap,
        crcTable := c.crcTable, publishMarksUnchanged := c.publishMarksUnchanged } := rfl

/-- A pending frame that decodes is an instruction, in the state with the agenda it leaves. -/
theorem fetch_ok {s : State} {f : Frame} {rest : List Input} {i : Instr} {left : List Byte}
    (h : s.agenda = .frame f :: rest) (hd : decode s.cfg f = .ok (i, left)) :
    fetch s = .instr i { s with agenda := leave f left rest } := by
  simp [fetch, h, hd]

/-- A pending frame that does not decode is a stray byte or unreadable. -/
theorem fetch_error {s : State} {f : Frame} {rest : List Input} {e : DecodeError}
    (h : s.agenda = .frame f :: rest) (hd : decode s.cfg f = .error e) :
    fetch s = fetchStray f e rest s := by
  simp [fetch, h, hd]

end Sys2Proof.Machine
end

