-- ==== Sys2Proof/Machine/Operands.lean ====
section
/-! DEFINITION. The operand forms of the script notation (30_encoding.md R61, R62) as instructions, and the host's
signed reading of a slot value. -/

namespace Sys2Proof.Machine

/-- A slot value written as a decimal number: two's complement (R36, R61). -/
def valueOfInt (n : Int) : Value := BitVec.ofInt 16 n

/-- The number a host reads a slot value as: `sext` from 16 bits (R36, R50). -/
def intOfValue (v : Value) : Int := v.toInt

/-- The fields a `CONFIGURE field=value ...` line names (R61). -/
structure ConfigureFields where
  header : Option Byte := none
  terminator : Option Byte := none
  ackChar : Option Byte := none
  heartbeat : Option Time := none
  ackTimeout : Option Time := none
  packetTimeout : Option Time := none
  retransmit : Option Bool := none
  deriving DecidableEq, Repr

/-- CONFIGURE with some fields named: "fields not named keep their current value" (R61, R129). -/
def configureNamed (f : ConfigureFields) (s : State) : Instr :=
  .configure (f.header.getD s.cfg.header) (f.terminator.getD s.cfg.terminator) (f.ackChar.getD s.cfg.ackChar)
    (f.heartbeat.getD s.cfg.heartbeat) (f.ackTimeout.getD s.cfg.ackTimeout)
    (f.packetTimeout.getD s.cfg.packetTimeout) (f.retransmit.getD s.cfg.retransmit)

/-- RESET with the capacities possibly omitted: "omitted fields take defaults" (R61, R154). -/
def resetNamed (peer localA : Byte) (retransmit : Bool) (capTx capRx : Option Nat) : Instr :=
  .reset peer localA (capTx.getD Config.defaultCapacity) (capRx.getD Config.defaultCapacity) retransmit

/-- `SERVICE* t, n` (R62). -/
def serviceRun (t : Time) (n : Nat) : List Instr :=
  (List.range n).map fun k => .service (t + BitVec.ofNat 32 k)

/-- `PUBLISH* i0: v0, i1: v1, ...` (R62). -/
def publishAll (es : List Entry) : List Instr := es.map fun e => .publish e.index e.value

end Sys2Proof.Machine
end

