-- ==== Sys2Proof/Tests/Slice0.lean ====
section
/-! SUPPORT. The model's own tests: the WellFormed smoke, the decoding of words written from the spec's encodings, small
one-step tests from spec/95_test_vectors.md, and for every obligation with hypotheses a named witness that meets them. -/

set_option maxRecDepth 20000

namespace Sys2Proof.Tests

open Sys2Proof Sys2Proof.Machine

/-! ### Small states -/

/-- Endpoint `B` of 95_test_vectors.md: `peer=01 local=02`. -/
def endB : State := { State.reset with cfg := { LinkConfig.default with peerAddr := 1, localAddr := 2 } }

/-- Endpoint `A`: `peer=02 local=01`. -/
def endA : State := { State.reset with cfg := { LinkConfig.default with peerAddr := 2, localAddr := 1 } }

/-- A link configuration whose checksum table is all zero: a checksum over two bytes or more is zero. -/
def plainConfig : LinkConfig :=
  { LinkConfig.default with peerAddr := 1, localAddr := 2, crcTable := Vector.replicate 256 0 }

/-- An endpoint with that table and two slots each way. -/
def plain : State :=
  { State.reset with txTable := [⟨7, true, 0⟩, ⟨8, false, 0⟩], rxTable := [0, 0], cfg := plainConfig }

/-- The packet of V10. -/
def packet10 : List Byte := [0x3C, 0x02, 0x03, 0x00, 0x2A, 0x3E, 0xE0, 0x93]

/-- The packet of V12. -/
def packet12 : List Byte := [0x3C, 0x02, 0x05, 0xFF, 0xFF, 0x3E, 0x6A, 0x93]

/-- The bytes of V22: V10 with one bit flipped. -/
def packet22 : List Byte := [0x3C, 0x02, 0x03, 0x00, 0x2B, 0x3E, 0xE0, 0x93]

/-- A sender in the middle of V10. -/
def sendingAt (pos : Nat) : State := { endA with txState := .sending, txbuf := packet10, txPos := pos }

/-- A sender that waits for the ACK of V10 since time 20 (V34). -/
def waiting (r : Bool) : State :=
  { endA with txState := .awaitingAck, txbuf := packet10, txPos := 8, txStartTime := 20,
              cfg := { endA.cfg with retransmit := r } }

/-- A receiver inside a packet, its header seen at time 7. -/
def accumulating (s : State) : State := { s with rxState := .accumulating, rxbuf := [0x3C, 0x02, 0x03], rxHdrTime := 7 }

/-- Endpoint `B` with four receive slots (V52). -/
def small : State := { endB with rxTable := [0, 0, 0, 0] }

/-- A header, the address and zeros, as many bytes as the buffer holds (V53). -/
def noise : List Byte := 0x3C :: 0x02 :: List.replicate 126 0

/-- The packet of V11: V10 for another endpoint (V42). -/
def foreign : List Byte := [0x3C, 0x01, 0x03, 0x00, 0x2A, 0x3E, 0xE0, 0x1B]

/-- An endpoint with a receive error latched, in operation. -/
def troubled : State := { endA with readError := true, started := true }

/-- A receiver that holds a header. -/
def seekingAddress (s : State) : State := { s with rxState := .seekingAddress, rxbuf := [0x3C], rxHdrTime := 7 }

/-- A state with these bytes queued. -/
def queued (q : List Byte) (s : State) : State := { s with rxq := q }

/-- A state with this input next. -/
def pending (i : Input) (s : State) : State := { s with agenda := [i] }

/-- The next state, where there is one. -/
def after (i : Instr) (s : State) : State :=
  match exec i s with
  | .next t => t
  | .fault _ => s
  | .refused _ => s

/-- The next state of a step, where there is one. -/
def stepped (s : State) : State :=
  match step s with
  | .next t => t
  | .fault _ => s
  | .refused _ => s

/-! ### WellFormed refuses the ill-formed -/

/-- R47: four bytes are no packet. -/
theorem test_wf_refuses_short_data : (Instr.data 0x3E [0x00, 0x00]).wf { LinkConfig.default with localAddr := 0x3E } = false := by
  decide

/-- R54: a packet that does not end where its bytes end. -/
theorem test_wf_refuses_overlong_data : (Instr.data 2 [0x03, 0x00, 0x2A, 0x3E, 0xE0, 0x93, 0x00]).wf LinkConfig.default = false := by
  decide

/-- R54: a packet with no end. -/
theorem test_wf_refuses_open_data : (Instr.data 2 [0x03, 0x00, 0x2A, 0x3E]).wf LinkConfig.default = false := by decide

/-- R29: a capacity of 0. -/
theorem test_wf_refuses_capacity_zero : (Instr.reset 2 1 0 20 false).wf LinkConfig.default = false := by decide

/-- R29: a capacity of 257. -/
theorem test_wf_refuses_capacity_257 : (Instr.reset 2 1 20 257 false).wf LinkConfig.default = false := by decide

theorem test_wf_accepts_data : (Instr.data 2 [0x03, 0x00, 0x2A, 0x3E, 0xE0, 0x93]).wf LinkConfig.default = true := by decide

theorem test_wf_accepts_capacities : (Instr.reset 2 1 1 256 false).wf LinkConfig.default = true := by decide

/-- A configuration whose address equals the terminator (V56). -/
def clashingAddress : LinkConfig := { endA.cfg with localAddr := 0x3E }

/-- A configuration with one character for two roles. -/
def clashingFraming : LinkConfig := { endA.cfg with terminator := 0x3C }

/-- R12: the default configuration with the addresses of 95_test_vectors.md. -/
theorem test_configOK_accepts : ConfigOK endA.cfg 20 20 := by decide

/-- R12, U1: an address equal to the terminator, and two framing characters alike. -/
theorem test_configOK_refuses :
    ¬ ConfigOK clashingAddress 20 20 ∧ ¬ ConfigOK clashingFraming 20 20 ∧ ¬ ConfigOK endA.cfg 0 20 :=
  ⟨fun h => h.2.1.2.1 (by decide), fun h => h.1.1 (by decide), fun h => absurd h.2.2.1.1 (by decide)⟩

/-! ### Decoding: one word per constructor, written from R45, R48, R49, R59, R60 -/

theorem test_decode_data : decode LinkConfig.default (.wire (packet10 ++ [0x06])) =
    .ok (.data 2 [0x03, 0x00, 0x2A, 0x3E, 0xE0, 0x93], [0x06]) := by decide

theorem test_decode_ack : decode LinkConfig.default (.wire [0x06, 0x3C]) = .ok (.ack, [0x3C]) := by decide

theorem test_decode_resendAll : decode LinkConfig.default (.wire [0xFE, 0xED]) = .ok (.resendAll, []) := by decide

theorem test_decode_publish : decode LinkConfig.default (.host [0, 19, 0x80, 0x01]) = .ok (.publish 19 0x8001, []) := by decide

theorem test_decode_service : decode LinkConfig.default (.host [1, 1, 2, 3, 4]) = .ok (.service 0x01020304, []) := by decide

theorem test_decode_poll : decode LinkConfig.default (.host [2, 0, 0, 0, 100]) = .ok (.poll 100, []) := by decide

theorem test_decode_read : decode LinkConfig.default (.host [3, 255]) = .ok (.read 255, []) := by decide

theorem test_decode_take : decode LinkConfig.default (.host [4, 2, 1]) = .ok (.take .newDataAvailable true, []) := by decide

theorem test_decode_configure :
    decode LinkConfig.default (.host [5, 0x3C, 0x3E, 6, 0, 0, 3, 0xE8, 0, 0, 0, 100, 0, 0, 0, 50, 1]) =
      .ok (.configure 0x3C 0x3E 6 1000 100 50 true, []) := by decide

theorem test_decode_reset : decode LinkConfig.default (.host [6, 2, 1, 0, 20, 1, 0, 0]) = .ok (.reset 2 1 20 256 false, []) := by
  decide

theorem test_decode_crc16 : decode LinkConfig.default (.func .crc16 [0x3C]) = .ok (.crc16 [0x3C], []) := by decide

theorem test_decode_encode : decode LinkConfig.default (.func .encode [2, 0, 0, 1, 19, 0x80, 0]) =
    .ok (.encode 2 [⟨0, 1⟩, ⟨19, 0x8000⟩], []) := by decide

theorem test_decode_decode : decode LinkConfig.default (.func .decode packet10) = .ok (.decode packet10, []) := by decide

/-- R59, U7. -/
theorem test_decode_refuses_flag_three : decode LinkConfig.default (.host [4, 3, 0]) = .error (.notAFlag 3) := by decide

/-- R59: there is no operation 7. -/
theorem test_decode_refuses_operation_seven : decode LinkConfig.default (.host [7]) = .error (.unknownOperation 7) := by decide

/-- R29. -/
theorem test_decode_refuses_capacity : decode LinkConfig.default (.host [6, 2, 1, 1, 1, 0, 20, 0]) = .error (.badCapacity 257) := by
  decide

/-- R58: a NACK code is no message. -/
theorem test_decode_refuses_other_byte : decode LinkConfig.default (.wire [0x15]) = .error (.notAMessage 0x15) := by decide

theorem test_encode_data : encode LinkConfig.default (.data 2 [0x03, 0x00, 0x2A, 0x3E, 0xE0, 0x93]) = .wire packet10 := by
  decide

theorem test_table_word_ack : decodeTableWord 8 0x06 = some .ack := by decide

theorem test_table_word_resendAll : decodeTableWord 16 0xFEED = some .resendAll := by decide

/-! ### CRC16 and the codec (V1 to V28, at the candidate table) -/

/-- V2, V8, V9. -/
theorem test_crc16_vectors :
    crc16 Config.candidateTable [0x00] = 0xFD02 ∧ crc16 Config.candidateTable [0x3C, 0x02, 0x03, 0x00, 0x2A, 0x3E] = 0xE093 ∧
    crc16 Config.candidateTable [0x3C, 0x02, 0x03] = 0x013A := by decide

/-- V7: the catalogue check value. -/
theorem test_crc16_check_value :
    crc16 Config.candidateTable [0x31, 0x32, 0x33, 0x34, 0x35, 0x36, 0x37, 0x38, 0x39] = 0xAEE7 := by decide

/-- V13. -/
theorem test_encode_two_entries : (after (.encode 2 [⟨0, 1⟩, ⟨19, 0x8000⟩]) endA).result =
    .packet [0x3C, 0x02, 0x00, 0x00, 0x01, 0x13, 0x80, 0x00, 0x3E, 0x06, 0x7A] := by decide

/-- V19. -/
theorem test_encode_empty : (after (.encode 2 []) endA).result = .packet [0x3C, 0x02, 0x3E, 0x81, 0xB7] := by decide

/-- V28: DECODE checks neither index nor order. -/
theorem test_decode_entries :
    (after (.decode [0x3C, 2, 1, 0, 5, 4, 0, 6, 2, 0, 7, 0x3E, 0x09, 0x14]) endB).result =
      .decoded (.ok [⟨1, 5⟩, ⟨4, 6⟩, ⟨2, 7⟩]) := by decide

/-- V23. -/
theorem test_decode_mismatch :
    (after (.decode [0x3C, 2, 3, 0, 0x2A, 0x3E, 0xE0, 0x92]) endB).result = .decoded .checksumMismatch := by decide

/-! ### SERVICE (V30 to V36) -/

/-- V30. -/
theorem test_service_builds :
    (after (.service 0) (after (.publish 3 42) endA)).txbuf = packet10 ∧
    (after (.service 0) (after (.publish 3 42) endA)).wire = [] ∧
    (after (.service 0) (after (.publish 3 42) endA)).events = [.built [⟨3, 42⟩]] := by decide

/-- V32: the heartbeat is strict. -/
theorem test_service_heartbeat_is_strict :
    (after (.service 500) { endB with txTable := [TxSlot.zero, TxSlot.zero] }).txState = .idle ∧
    (after (.service 501) { endB with txTable := [TxSlot.zero, TxSlot.zero] }).txbuf =
      [0x3C, 0x01, 0, 0, 0, 1, 0, 0, 0x3E, 0xD4, 0x0D] := by decide

/-! ### POLL and the messages (V40 to V58) -/

/-- V40. -/
theorem test_data_applied :
    (after (.data 2 [0x03, 0x00, 0x2A, 0x3E, 0xE0, 0x93]) endB).rxTable[3]? = some 0x002A ∧
    (after (.data 2 [0x03, 0x00, 0x2A, 0x3E, 0xE0, 0x93]) endB).wire = [0x06] ∧
    (after (.data 2 [0x03, 0x00, 0x2A, 0x3E, 0xE0, 0x93]) endB).events = [.applied [⟨3, 42⟩], .ackSent] := by decide

/-- V55: a terminator value in the payload. -/
theorem test_data_terminator_in_payload :
    (after (.data 2 [0x00, 0x00, 0x3E, 0x3E, 0xA4, 0x93]) endB).events = [.fault .checksumMismatch, .resendAllSent] ∧
    (after (.data 2 [0x00, 0x00, 0x3E, 0x3E, 0xA4, 0x93]) endB).rxbuf = [] := by decide

/-- V41: a packet held since an earlier POLL, its last three bytes now. V49: a second header fails as an address. V46: an ACK
and a command while the header is held. V48 and V51: one POLL goes on after a packet, after an ACK, and after
a rejected packet. -/
theorem test_poll_goes_on :
    (after (.poll 100) (queued [0x3E, 0xE0, 0x93] { accumulating endB with
      rxbuf := [0x3C, 0x02, 0x03, 0x00, 0x2A], rxHdrTime := 0 })).events = [.applied [⟨3, 42⟩], .ackSent] ∧
    (after (.poll 0) (queued (0x3C :: packet10) endB)).wire = [] ∧
    (after (.poll 0) { endB with txState := .awaitingAck, rxq := [0x3C, 6, 0xFE, 0xED, 2, 3, 0, 0x2A, 0x3E, 0xE0, 0x93] }).events =
      [.ackReceived, .resendAllReceived, .applied [⟨3, 42⟩], .ackSent] ∧
    (after (.poll 0) { waiting false with cfg := endB.cfg, rxq := packet10 ++ [0x06] ++ packet12 }).events =
      [.applied [⟨3, 42⟩], .ackSent, .ackReceived, .applied [⟨5, 0xFFFF⟩], .ackSent] ∧
    (after (.poll 0) { endB with rxq := packet22 ++ packet22 }).wire = [0xFE, 0xED, 0xFE, 0xED] := by decide

/-- V57: the stale check is strict. V58: it comes before the bytes queued. V56: TooShort, outside ConfigOK. -/
theorem test_poll_faults :
    (after (.poll 107) (seekingAddress endB)).readError = false ∧
    (after (.poll 108) (seekingAddress endB)).wire = [0xFE, 0xED] ∧
    (after (.poll 108) (queued [0x00, 0x2A, 0x3E, 0xE0, 0x93] (accumulating endB))).rxTable[3]? = some 0 ∧
    (after (.poll 108) (queued [0x00, 0x2A, 0x3E, 0xE0, 0x93] (accumulating endB))).wire = [0xFE, 0xED] ∧
    (after (.poll 0) { endB with cfg := { endB.cfg with localAddr := 0x3E }, rxq := [0x3C, 0x3E, 0, 0] }).events =
      [.fault .tooShort, .resendAllSent] := by decide

/-- V43: the ACK. -/
theorem test_ack : (after .ack (waiting false)).txState = .idle ∧ (after .ack (sendingAt 3)).txState = .sending := by decide

/-- V44: the command. -/
theorem test_resendAll :
    (after .resendAll endB).txTable = List.replicate 20 ⟨0, true, 0⟩ ∧ (after .resendAll endB).wire = [] := by decide

/-- V52: the entries before the bad index stay. -/
theorem test_data_unknown_index :
    (after (.data 2 [1, 0, 5, 4, 0, 6, 2, 0, 7, 0x3E, 0x09, 0x14]) small).rxTable =
      [0, 5, 0, 0] := by decide

/-! ### Host operations (V60 to V67) -/

/-- V61: the value the slot has; then another and back. -/
theorem test_publish_unchanged :
    (after (.publish 0 0) endA).txTable[0]? = some ⟨0, false, 0⟩ ∧
    (after (.publish 0 0) (after (.publish 0 5) endA)).txTable[0]? = some ⟨0, true, 0⟩ := by decide

/-- V63. -/
theorem test_publish_rejected : (after (.publish 20 1) endA).events = [.rejected] := by decide

/-- V40. -/
theorem test_read :
    (after (.read 3) { endB with rxTable := [0, 0, 0, 42] }).result = .read (some 42) ∧
    (after (.read 20) endB).result = .read none := by decide

/-- V64. -/
theorem test_take :
    (after (.take .readError true) { endB with readError := true, newDataAvailable := true }).result = .bit true ∧
    (after (.take .readError true) { endB with readError := true, newDataAvailable := true }).readError = false ∧
    (after (.take .readError true) { endB with readError := true, newDataAvailable := true }).newDataAvailable = true := by decide

/-- V65. -/
theorem test_configure :
    (after (.service 600) (after (configureNamed { heartbeat := some 1000 } endA) endA)).txState = .idle ∧
    (after (.service 600) endA).txState = .sending := by decide

/-- V66. -/
theorem test_configure_rejected :
    (after (configureNamed { header := some 0x7E } endA) (after (.service 0) endA)).cfg.header = 0x3C ∧
    (after (configureNamed { header := some 0x7E } endA) (after (.service 0) endA)).events = [.rejected] := by decide

/-- V67: `wire` and `rxq` stay. -/
theorem test_reset :
    (after (resetNamed 2 1 false none (some 4)) { waiting true with wire := [1], rxq := [2] }).txState = .idle ∧
    (after (resetNamed 2 1 false none (some 4)) { waiting true with wire := [1], rxq := [2] }).wire = [1] ∧
    (after (resetNamed 2 1 false none (some 4)) { waiting true with wire := [1], rxq := [2] }).rxTable = [0, 0, 0, 0] := by decide

/-! ### Witnesses: for every obligation with hypotheses, values that meet them -/

/-- A host frame, and a wire frame with a byte after its message. -/
theorem witness_StepRunsDecodedInstruction :
    (pending (.frame (.host [3, 5])) endA).agenda = .frame (.host [3, 5]) :: [] ∧
    decode (pending (.frame (.host [3, 5])) endA).cfg (.host [3, 5]) = .ok (.read 5, []) ∧
    (pending (.frame (.wire [6, 6])) endA).agenda = .frame (.wire [6, 6]) :: [] ∧
    decode (pending (.frame (.wire [6, 6])) endA).cfg (.wire [6, 6]) = .ok (.ack, [6]) := by
  decide

theorem witness_EnvironmentMovesTouchOnlyTransport :
    (pending (.arrive [6]) endA).agenda = .arrive [6] :: [] ∧ (pending (.depart 1) endA).agenda = .depart 1 :: [] ∧
    endA.agenda = [] := by decide

theorem witness_TakeWithFlagThreeIsRefused :
    (pending (.frame (.host [4, 3, 0])) endA).agenda = .frame (.host [4, 3, 0]) :: [] := rfl

theorem witness_StrayWireByteIsDiscarded :
    (pending (.frame (.wire [0x15])) endA).agenda = .frame (.wire [0x15]) :: [] ∧
    (pending (.frame (.wire [0x15])) endA).rxState = .seekingHeader ∧ (pending (.frame (.wire [0x15])) endA).rxq = [] ∧
    (0x15 : Byte) ≠ (pending (.frame (.wire [0x15])) endA).cfg.ackChar ∧
    (0x15 : Byte) ≠ (pending (.frame (.wire [0x15])) endA).cfg.header := by
  decide

theorem witness_DecodeInvertsEncode :
    FramingDistinct LinkConfig.default ∧ (Instr.data 2 [0x03, 0x00, 0x2A, 0x3E, 0xE0, 0x93]).wf LinkConfig.default = true ∧
    (Instr.reset 2 1 1 256 true).wf LinkConfig.default = true := by decide

theorem witness_DecodedInstructionsAreWellFormed :
    decode LinkConfig.default (.wire packet10) = .ok (.data 2 [0x03, 0x00, 0x2A, 0x3E, 0xE0, 0x93], []) := by decide

/-- The state the witness of the invariant is in: a packet half sent and one half received. -/
def busy : State := { accumulating (sendingAt 3) with started := true, cfg := { endA.cfg with localAddr := 2 } }

theorem busy_inv : busy.Inv := by
  refine ⟨⟨⟨by decide, by decide, 1, by decide, by decide, by decide⟩, by decide⟩, ?_, by simp [ConfigInv]; decide⟩
  refine ⟨by decide, by decide, by decide, by decide, ?_⟩
  intro n h3 hn
  have : n = 3 := by have : busy.rxLen = 3 := rfl; omega
  subst this
  decide

/-- Also for `TooShortNeverArisesUnderConfigOK`, with a poll. -/
theorem witness_StepKeepsInvariant : busy.Inv ∧ step busy = .next busy := ⟨busy_inv, rfl⟩

theorem witness_TooShortNeverArisesUnderConfigOK :
    busy.Inv ∧ ConfigOK busy.cfg busy.capTx busy.capRx ∧ exec (.poll 0) busy = .next (after (.poll 0) busy) :=
  ⟨busy_inv, by decide, rfl⟩

/-- Both ways a flag goes from 1 to 0. -/
theorem witness_OnlyTakeAndResetClearFlags :
    exec (.take .readError true) troubled = .next (after (.take .readError true) troubled) ∧
    readFlag .readError troubled = true ∧ readFlag .readError (after (.take .readError true) troubled) = false ∧
    exec (.reset 2 1 1 1 false) troubled = .next (after (.reset 2 1 1 1 false) troubled) ∧
    readFlag .readError (after (.reset 2 1 1 1 false) troubled) = false :=
  ⟨rfl, by decide, by decide, rfl, by decide⟩

/-- Each flag set by its cause, and each cause in the event list (V34, V40, V50). -/
theorem witness_StatusFlagsAreSetOnlyByTheirCauses :
    (waiting true).transmissionError = false ∧ (after (.service 121) (waiting true)).transmissionError = true ∧
    .fault .acknowledgmentTimeout ∈ (after (.service 121) (waiting true)).events ∧
    endB.readError = false ∧ (after (.data 2 [0x03, 0x00, 0x2B, 0x3E, 0xE0, 0x93]) endB).readError = true ∧
    .fault .checksumMismatch ∈ (after (.data 2 [0x03, 0x00, 0x2B, 0x3E, 0xE0, 0x93]) endB).events ∧
    endB.newDataAvailable = false ∧ (after (.data 2 [0x03, 0x00, 0x2A, 0x3E, 0xE0, 0x93]) endB).newDataAvailable = true ∧
    .applied [⟨3, 42⟩] ∈ (after (.data 2 [0x03, 0x00, 0x2A, 0x3E, 0xE0, 0x93]) endB).events := by decide

/-- What changes a transmit value, and what changes the receive table. -/
theorem witness_SlotTablesAreDisjoint :
    (after (.publish 0 9) plain).txTable.map TxSlot.value ≠ plain.txTable.map TxSlot.value ∧
    (after (.data 2 [1, 0, 5, 0x3E, 0, 0]) plain).rxTable ≠ plain.rxTable ∧
    (after (.poll 0) { plain with rxq := [0x3C, 2, 1, 0, 5, 0x3E, 0, 0] }).rxTable ≠ plain.rxTable := by decide

/-- A change of `tx_state` under each row of the table. -/
theorem witness_TransmitStateChangesAsTabulated :
    (after (.service 0) plain).txState = .sending ∧ (after (.service 9) (sendingAt 7)).txState = .awaitingAck ∧
    (after (.service 121) (waiting true)).txState = .sending ∧ (after (.service 121) (waiting false)).txState = .idle ∧
    (after .ack (waiting true)).txState = .idle ∧ (after (.reset 2 1 1 1 true) (sendingAt 0)).txState = .idle := by decide

theorem witness_ConfigurationLock :
    (after (.read 0) endA).started = true ∧ troubled.started = true ∧ (after (.reset 2 1 1 1 true) troubled).started = false ∧
    (after (configureNamed {} endA) endA).started = false := by decide

/-- A RESET that changes a register and both capacities. -/
theorem witness_ConfigurationFixedOnceStarted :
    exec (.reset 7 1 1 1 true) troubled = .next (after (.reset 7 1 1 1 true) troubled) ∧ troubled.started = true ∧
    (after (.reset 7 1 1 1 true) troubled).cfg ≠ troubled.cfg ∧
    (after (.reset 7 1 1 1 true) troubled).capTx ≠ troubled.capTx ∧
    (after (.reset 7 1 1 1 true) troubled).capRx ≠ troubled.capRx :=
  ⟨rfl, rfl, fun h => absurd (congrArg LinkConfig.peerAddr h) (by decide), by decide, by decide⟩

/-- The first slot and the last. -/
theorem witness_PublishWritesSlot :
    endA.txTable[(0 : Byte).toNat]? = some ⟨0, false, 0⟩ ∧ endA.txTable[(19 : Byte).toNat]? = some ⟨0, false, 0⟩ := by decide

/-- The first index out of range and the last. -/
theorem witness_PublishOutOfRangeIsRejected :
    endA.capTx ≤ (20 : Byte).toNat ∧ endA.capTx ≤ (255 : Byte).toNat := by decide

theorem witness_PublishingTwiceIsPublishingOnce :
    endA.cfg.publishMarksUnchanged = false ∧ exec (.publish 3 42) endA = .next (after (.publish 3 42) endA) := ⟨rfl, rfl⟩

theorem witness_ReadReturnsSlotOrRejects :
    endA.rxTable[(19 : Byte).toNat]? = some 0 ∧ endA.capRx ≤ (20 : Byte).toNat := by decide

theorem witness_ConfigureBeforeStart : endA.started = false := rfl

theorem witness_ConfigureAfterStartIsRejected : (after (.service 0) endA).started = true := by decide

theorem witness_DecodeOfShortBytesIsTooShort :
    ([0x3C, 0x3E, 0, 0] : List Byte).length < 5 ∧ ([] : List Byte).length < 5 := by decide

/-- Three covered bytes, with the right checksum (V24) and with a wrong one. -/
theorem witness_DecodeChecksTheChecksum :
    3 ≤ ([0x3C, 2, 0x3E] : List Byte).length ∧ (crc16 endB.cfg.crcTable [0x3C, 2, 0x3E]).toNat = 0x81 * 256 + 0xB7 ∧
    (crc16 endB.cfg.crcTable [0x3C, 2, 0x3E]).toNat ≠ 0x81 * 256 + 0xB6 := by decide

/-- No stray byte, and one (V25) and two (V26) with no entry before them; then one and two after an entry. -/
theorem witness_DecodeIgnoresPayloadRemainder :
    (crc16 endB.cfg.crcTable ([0x3C, 2] ++ payloadBytes [⟨3, 42⟩] ++ [] ++ [0x3E])).toNat =
      (0xE0 : Byte).toNat * 256 + (0x93 : Byte).toNat ∧
    (crc16 endB.cfg.crcTable ([0x3C, 2] ++ payloadBytes [] ++ [9] ++ [0x3E])).toNat = (0x06 : Byte).toNat * 256 + (0x82 : Byte).toNat ∧
    (crc16 endB.cfg.crcTable ([0x3C, 2] ++ payloadBytes [] ++ [9, 9] ++ [0x3E])).toNat =
      (0x30 : Byte).toNat * 256 + (0x90 : Byte).toNat ∧
    (crc16 endB.cfg.crcTable ([0x3C, 2] ++ payloadBytes [⟨3, 42⟩] ++ [9] ++ [0x3E])).toNat =
      (0xA3 : Byte).toNat * 256 + (0xC7 : Byte).toNat ∧
    (crc16 endB.cfg.crcTable ([0x3C, 2] ++ payloadBytes [⟨3, 42⟩] ++ [9, 9] ++ [0x3E])).toNat =
      (0x76 : Byte).toNat * 256 + (0x4E : Byte).toNat := by decide

theorem witness_ChangedChecksumBytesAreDetected :
    encodePacket endB.cfg 2 [⟨3, 42⟩] = [0x3C, 2, 3, 0, 0x2A, 0x3E] ++ [0xE0, 0x93] ∧
    ((0xE0, 0x92) : Byte × Byte) ≠ (0xE0, 0x93) := by decide

/-- A mask that is there or not. -/
def maskIf (c : Bool) (v : Value) : Value := if c then v else 0

theorem maskIf_xor (a b : Bool) (v : Value) : maskIf (a ^^ b) v = maskIf a v ^^^ maskIf b v := by
  cases a <;> cases b <;> simp [maskIf]

/-- A byte's entry as the sum of the entries of its bits. -/
def bitSum (t : Vector Value 256) (b : Byte) : Value :=
  maskIf (b.getLsbD 0) t[1] ^^^ maskIf (b.getLsbD 1) t[2] ^^^ maskIf (b.getLsbD 2) t[4] ^^^ maskIf (b.getLsbD 3) t[8] ^^^
  maskIf (b.getLsbD 4) t[16] ^^^ maskIf (b.getLsbD 5) t[32] ^^^ maskIf (b.getLsbD 6) t[64] ^^^ maskIf (b.getLsbD 7) t[128]

theorem bitSum_xor (t : Vector Value 256) (a b : Byte) : bitSum t (a ^^^ b) = bitSum t a ^^^ bitSum t b := by
  simp only [bitSum, BitVec.getLsbD_xor, maskIf_xor]
  ac_rfl

theorem candidateTable_bitSum : ∀ b : Byte, Config.candidateTable[b.toNat] = bitSum Config.candidateTable b := by decide

theorem candidateTable_loByte : ∀ b : Byte, loByte Config.candidateTable[b.toNat] = 0 → b = 0 := by decide

/-- The candidate table of R67 meets R68's condition. -/
theorem candidateTable_detects : DetectsSingleBits Config.candidateTable := by
  refine ⟨fun a b => ?_, by decide, fun r h => ?_⟩
  · rw [candidateTable_bitSum, candidateTable_bitSum, candidateTable_bitSum, bitSum_xor]
  · have hx : hiByte r ^^^ 0 = hiByte r := BitVec.xor_zero
    simp only [crcStep, hx] at h
    have hlo : loByte (r <<< 8 ^^^ Config.candidateTable[(hiByte r).toNat]) =
        loByte Config.candidateTable[(hiByte r).toNat] := by
      refine BitVec.eq_of_getLsbD_eq fun i hi => ?_
      simp [loByte, hi]
    have h0 : hiByte r = 0 := candidateTable_loByte _ (by rw [← hlo, h]; decide)
    have ht : Config.candidateTable[(hiByte r).toNat] = 0 := by rw [candidateTable_bitSum, h0]; decide
    rw [ht] at h
    have h' : r <<< 8 = 0 := by simpa using h
    refine BitVec.eq_of_getLsbD_eq fun i hi => ?_
    by_cases h8 : i < 8
    · have := congrArg (fun v => v.getLsbD (i + 8)) h'
      have hi' : i + 8 < 16 := by omega
      simpa [hi', BitVec.getLsbD_eq_getElem hi] using this
    · have := congrArg (fun v => v.getLsbD (i - 8)) h0
      have e : 8 + (i - 8) = i := by omega
      have h2 : i - 8 < 8 := by omega
      simpa [hiByte, h2, e] using this

/-- The last bit of the last covered byte. -/
theorem witness_SingleBitFlipIsDetected :
    DetectsSingleBits endB.cfg.crcTable ∧ 8 + 2 < (encodePacket endB.cfg 2 [⟨3, 42⟩, ⟨4, 43⟩]).length ∧ 7 < 8 :=
  ⟨candidateTable_detects, by decide, by decide⟩

theorem witness_ServiceIdleWithNothingDue : endA.txState = .idle ∧ dueIndices 500 endA = [] := by decide

theorem witness_ServiceBuildsTheDueSlots :
    plain.txState = .idle ∧ dueIndices 0 plain = [0] ∧ chosenIndices 501 plain = [0, 1] ∧ 8 ≤ plain.cfg.txBufCap := by decide

/-- The first byte, one in the middle, the last. -/
theorem witness_ServiceSendsOneByte :
    (sendingAt 0).txbuf[(sendingAt 0).txPos]? = some 0x3C ∧ (sendingAt 3).txbuf[(sendingAt 3).txPos]? = some 0x00 ∧
    (sendingAt 7).txbuf[(sendingAt 7).txPos]? = some 0x93 ∧ (sendingAt 7).txPos + 1 = (sendingAt 7).txLen := by decide

theorem witness_SendingTakesOneServicePerByte :
    (sendingAt 0).txState = .sending ∧ (sendingAt 0).txPos = 0 ∧
    (sendingAt 0).txLen = ([2, 3, 4, 5, 6, 7, 8] : List Time).length + 1 := by decide

theorem witness_ServiceWaitsWithinTheDeadline :
    (waiting true).txState = .awaitingAck ∧ elapsed 120 (waiting true).txStartTime ≤ (waiting true).cfg.ackTimeout := by decide

theorem witness_AcknowledgmentTimeoutRetriesOrDrops :
    (waiting true).cfg.ackTimeout < elapsed 121 (waiting true).txStartTime ∧
    (waiting false).cfg.ackTimeout < elapsed 121 (waiting false).txStartTime ∧
    (waiting true).cfg.retransmit = true ∧ (waiting false).cfg.retransmit = false := by decide

/-- With nothing queued, and with the tail of V58. -/
theorem witness_StalePacketIsDropped : ∀ q ∈ ([[], [0x00, 0x2A, 0x3E, 0xE0, 0x93]] : List (List Byte)),
    (queued q (accumulating endB)).rxState ≠ .seekingHeader ∧
    (queued q (accumulating endB)).cfg.packetTimeout < elapsed 108 (queued q (accumulating endB)).rxHdrTime ∧
    (queued q (accumulating endB)).rxq = q := by decide

/-- Nothing is being received; and a packet is, its age exactly the timeout. -/
theorem witness_PollWithNothingToDo :
    NotStale 0 endB ∧ endB.rxq = [] ∧ NotStale 107 (accumulating endB) ∧ (accumulating endB).rxq = [] :=
  ⟨.inl rfl, rfl, .inr (by decide), rfl⟩

/-- A header byte with an address behind it, another byte alone; and the tail of V58, noise before a packet and with nothing
behind it. -/
theorem witness_SeekingHeaderTakesOnlyTheHeader :
    (queued [0x3C, 0x02] endB).rxState = .seekingHeader ∧ (queued [0x3C, 0x02] endB).rxq = 0x3C :: [0x02] ∧
    (0x3C : Byte) ≠ endB.cfg.ackChar ∧ ¬ ((0x3C : Byte) = cmdHi ∧ ([0x02] : List Byte).head? = some cmdLo) ∧
    (0x3C : Byte) = endB.cfg.header ∧
    (queued [0x15] endB).rxq = 0x15 :: [] ∧ (0x15 : Byte) ≠ endB.cfg.ackChar ∧
    ¬ ((0x15 : Byte) = cmdHi ∧ ([] : List Byte).head? = some cmdLo) ∧ (0x15 : Byte) ≠ endB.cfg.header ∧
    ∀ more ∈ ([[], packet10] : List (List Byte)),
      (queued ([0x00, 0x2A, 0x3E, 0xE0, 0x93] ++ more) endB).rxq = [0x00, 0x2A, 0x3E, 0xE0, 0x93] ++ more ∧
      endB.cfg.ackChar ∉ ([0x00, 0x2A, 0x3E, 0xE0, 0x93] : List Byte) ∧
      endB.cfg.header ∉ ([0x00, 0x2A, 0x3E, 0xE0, 0x93] : List Byte) ∧
      ¬ [cmdHi, cmdLo] <:+: [0x00, 0x2A, 0x3E, 0xE0, 0x93] ∧
      (([0x00, 0x2A, 0x3E, 0xE0, 0x93] : List Byte).getLast? = some cmdHi → more.head? ≠ some cmdLo) := by decide

/-- The local address, and another byte (V49); each alone and with a byte behind it. -/
theorem witness_SeekingAddressMatchesOrDrops : ∀ b ∈ ([0x02, 0x3C] : List Byte), ∀ more ∈ ([[], [0x03]] : List (List Byte)),
    (queued (b :: more) (seekingAddress endB)).rxState = .seekingAddress ∧
    (queued (b :: more) (seekingAddress endB)).rxbuf = [(queued (b :: more) (seekingAddress endB)).cfg.header] ∧
    NotStale 107 (queued (b :: more) (seekingAddress endB)) ∧ b ≠ (queued (b :: more) (seekingAddress endB)).cfg.ackChar ∧
    ¬ (b = cmdHi ∧ more.head? = some cmdLo) ∧ (queued (b :: more) (seekingAddress endB)).rxq = b :: more ∧
    (b = (queued (b :: more) (seekingAddress endB)).cfg.localAddr ↔ b = 0x02) := by
  unfold NotStale
  decide

/-- A receiver that holds these bytes of a packet and finds this one queued. -/
def holding (held : List Byte) (b : Byte) (s : State) : State :=
  { s with rxState := .accumulating, rxbuf := held, rxHdrTime := 0, rxq := [b] }

/-- Endpoint `B` of V56, its address equal to the terminator. -/
def clashB : State := { endB with cfg := { endB.cfg with localAddr := 0x3E } }

/-- The case of a byte that is appended: it may be ACK_CHAR or HEADER. And of one that fills the buffer (V53). -/
theorem witness_AccumulatingTakesAnyByte : (∀ b ∈ ([0x06, 0x3C] : List Byte),
    (holding [0x3C, 2, 3] b endB).rxState = .accumulating ∧ 2 ≤ (holding [0x3C, 2, 3] b endB).rxLen ∧
    NotStale 100 (holding [0x3C, 2, 3] b endB) ∧ (holding [0x3C, 2, 3] b endB).rxq = b :: [] ∧
    (holding [0x3C, 2, 3] b endB).rxbuf[(holding [0x3C, 2, 3] b endB).rxLen - 2]? ≠ some endB.cfg.terminator ∧
    (holding [0x3C, 2, 3] b endB).rxLen + 1 ≠ endB.cfg.rxBufCap) ∧
    (holding noise.dropLast 0 endB).rxState = .accumulating ∧ 2 ≤ (holding noise.dropLast 0 endB).rxLen ∧
    NotStale 100 (holding noise.dropLast 0 endB) ∧ (holding noise.dropLast 0 endB).rxq = 0 :: [] ∧
    (holding noise.dropLast 0 endB).rxbuf[(holding noise.dropLast 0 endB).rxLen - 2]? ≠ some endB.cfg.terminator ∧
    (holding noise.dropLast 0 endB).rxLen + 1 = endB.cfg.rxBufCap := by
  unfold NotStale
  decide

/-- The cases of a byte that completes the packet: V56 (TooShort), V10 with a wrong last byte, V10, and V52 (its second index
is out of range). -/
theorem witness_AccumulatingTakesAnyByte_completing :
    (∀ x ∈ ([(clashB, [0x3C, 0x3E, 0], 0), (endB, packet10.dropLast, 0x92), (endB, packet10.dropLast, 0x93),
        (small, [0x3C, 2, 1, 0, 5, 4, 0, 6, 2, 0, 7, 0x3E, 0x09], 0x14)] : List (State × List Byte × Byte)),
      (holding x.2.1 x.2.2 x.1).rxState = .accumulating ∧ 2 ≤ (holding x.2.1 x.2.2 x.1).rxLen ∧
      NotStale 100 (holding x.2.1 x.2.2 x.1) ∧ (holding x.2.1 x.2.2 x.1).rxq = x.2.2 :: [] ∧
      (holding x.2.1 x.2.2 x.1).rxbuf[(holding x.2.1 x.2.2 x.1).rxLen - 2]? = some x.1.cfg.terminator) ∧
    decodePacket clashB.cfg ([0x3C, 0x3E, 0] ++ [0]) = .tooShort ∧
    decodePacket endB.cfg (packet10.dropLast ++ [0x92]) = .checksumMismatch ∧
    decodePacket endB.cfg (packet10.dropLast ++ [0x93]) = .ok [⟨3, 42⟩] ∧ (3 : Byte).toNat < endB.capRx ∧
    decodePacket small.cfg ([0x3C, 2, 1, 0, 5, 4, 0, 6, 2, 0, 7, 0x3E, 0x09] ++ [0x14]) = .ok ([⟨1, 5⟩] ++ ⟨4, 6⟩ :: [⟨2, 7⟩]) ∧
    (1 : Byte).toNat < small.capRx ∧ small.capRx ≤ (4 : Byte).toNat := by
  unfold NotStale
  decide

theorem witness_ControlBytesAreContentInsideAPacket :
    (after (.poll 107) (accumulating endB)).rxState = .accumulating ∧ 2 ≤ (after (.poll 107) (accumulating endB)).rxLen ∧
    (after (.poll 107) (accumulating endB)).rxq = [] ∧
    NotStale (after (.poll 107) (accumulating endB)).clock (after (.poll 107) (accumulating endB)) ∧
    (after (.poll 107) (accumulating endB)).rxbuf[(after (.poll 107) (accumulating endB)).rxLen - 2]? ≠
      some (after (.poll 107) (accumulating endB)).cfg.terminator ∧
    (after (.poll 107) (accumulating endB)).rxLen + 1 ≠ (after (.poll 107) (accumulating endB)).cfg.rxBufCap ∧
    (after (.poll 107) (accumulating endB)).rxbuf[(after (.poll 107) (accumulating endB)).rxLen - 1]? ≠
      some (after (.poll 107) (accumulating endB)).cfg.terminator ∧
    (after (.poll 107) (accumulating endB)).rxLen + 2 ≠ (after (.poll 107) (accumulating endB)).cfg.rxBufCap := by
  unfold NotStale
  decide

theorem witness_SplitCommandIsLost :
    endB.rxState = .seekingHeader ∧ endB.rxq = [] ∧ cmdHi ≠ endB.cfg.ackChar ∧ cmdHi ≠ endB.cfg.header ∧
    cmdLo ≠ endB.cfg.ackChar ∧ cmdLo ≠ endB.cfg.header := by decide

/-- In SeekingHeader, waiting; and in SeekingAddress, idle; each for the ACK alone and for a POLL that finds it in the queue. -/
theorem witness_AckMessageEndsTheWait :
    (waiting true).rxState ≠ .accumulating ∧ (waiting true).rxq = [] ∧ NotStale (waiting true).clock (waiting true) ∧
    NotStale 0 (waiting true) ∧
    (after (.poll 107) (seekingAddress endB)).rxq = [] ∧ (after (.poll 107) (seekingAddress endB)).rxState = .seekingAddress ∧
    NotStale (after (.poll 107) (seekingAddress endB)).clock (after (.poll 107) (seekingAddress endB)) ∧
    NotStale 107 (seekingAddress endB) := by
  unfold NotStale
  decide

theorem witness_ResendAllMarksEverySlot :
    endB.rxState ≠ .accumulating ∧ cmdHi ≠ endB.cfg.ackChar ∧ endB.rxq = [] ∧ NotStale endB.clock endB ∧ NotStale 108 endB :=
  ⟨by decide, by decide, rfl, .inl rfl, .inl rfl⟩

theorem witness_ResendAllRebuildsTheWholeTable :
    endB.rxq = [] ∧ endB.rxState ≠ .accumulating ∧ NotStale endB.clock endB ∧ cmdHi ≠ endB.cfg.ackChar ∧
    endB.txState = .idle ∧ 1 ≤ endB.capTx ∧ endB.capTx ≤ endB.cfg.maxEntries :=
  ⟨rfl, by decide, .inl rfl, by decide, rfl, by decide, by decide⟩

/-- V40; and the same entry with two stray bytes behind it. -/
theorem witness_ConformingPacketIsApplied :
    FramingDistinct endB.cfg ∧ AddressesDistinct endB.cfg ∧ endB.rxState = .seekingHeader ∧ endB.rxq = [] ∧
    (∀ e ∈ ([⟨3, 42⟩] : List Entry), e.index.toNat < endB.capRx) ∧
    ∀ x ∈ ([([], 0xE0, 0x93), ([9, 9], 0x76, 0x4E)] : List (List Byte × Byte × Byte)),
      x.1.length < 3 ∧ endB.cfg.terminator ∉ payloadBytes [⟨3, 42⟩] ++ x.1 ∧
      5 + 3 * ([⟨3, 42⟩] : List Entry).length + x.1.length ≤ endB.cfg.rxBufCap ∧
      (crc16 endB.cfg.crcTable ([endB.cfg.header, endB.cfg.localAddr] ++ payloadBytes [⟨3, 42⟩] ++ x.1 ++
        [endB.cfg.terminator])).toNat = x.2.1.toNat * 256 + x.2.2.toNat := by decide

/-- V52: the second entry is the bad one; and the same with a stray byte behind the entries. -/
theorem witness_UnknownIndexAppliesTheEarlierEntries :
    FramingDistinct small.cfg ∧ AddressesDistinct small.cfg ∧ small.rxState = .seekingHeader ∧ small.rxq = [] ∧
    (∀ e ∈ ([⟨1, 5⟩] : List Entry), e.index.toNat < small.capRx) ∧ small.capRx ≤ (4 : Byte).toNat ∧
    ∀ x ∈ ([([], 0x09, 0x14), ([9], 0xA6, 0xB2)] : List (List Byte × Byte × Byte)),
      x.1.length < 3 ∧ small.cfg.terminator ∉ payloadBytes ([⟨1, 5⟩] ++ ⟨4, 6⟩ :: [⟨2, 7⟩]) ++ x.1 ∧
      5 + 3 * ([⟨1, 5⟩] ++ ⟨4, 6⟩ :: [⟨2, 7⟩] : List Entry).length + x.1.length ≤ small.cfg.rxBufCap ∧
      (crc16 small.cfg.crcTable ([small.cfg.header, small.cfg.localAddr] ++
        payloadBytes ([⟨1, 5⟩] ++ ⟨4, 6⟩ :: [⟨2, 7⟩]) ++ x.1 ++ [small.cfg.terminator])).toNat =
          x.2.1.toNat * 256 + x.2.2.toNat := by decide

/-- V50; five bytes are the least. -/
theorem witness_CorruptPacketIsRejected : ∀ bytes ∈ ([[0x3C, 2, 0x3E], [0x3C, 2, 3, 0, 0x2B, 0x3E]] : List (List Byte)),
    (queued (bytes ++ [0xE0, 0x93]) endB).rxState = .seekingHeader ∧
    (queued (bytes ++ [0xE0, 0x93]) endB).rxq = bytes ++ [0xE0, 0x93] ∧ endB.cfg.header ≠ endB.cfg.ackChar ∧
    cmdHi ≠ endB.cfg.header ∧ endB.cfg.localAddr ≠ endB.cfg.ackChar ∧ cmdHi ≠ endB.cfg.localAddr ∧
    3 ≤ bytes.length ∧ bytes.length + 2 ≤ endB.cfg.rxBufCap ∧
    bytes[0]? = some endB.cfg.header ∧ bytes[1]? = some endB.cfg.localAddr ∧
    bytes.getLast? = some endB.cfg.terminator ∧ endB.cfg.terminator ∉ bytes.dropLast ∧
    (crc16 endB.cfg.crcTable bytes).toNat ≠ (0xE0 : Byte).toNat * 256 + (0x93 : Byte).toNat := by
  decide

/-- V53. -/
theorem witness_OverflowDiscardsTheBuffer :
    (queued noise endB).rxState = .seekingHeader ∧
    (queued noise endB).rxq = endB.cfg.header :: endB.cfg.localAddr :: List.replicate 126 0 ∧
    endB.cfg.header ≠ endB.cfg.ackChar ∧ cmdHi ≠ endB.cfg.header ∧ endB.cfg.localAddr ≠ endB.cfg.ackChar ∧
    cmdHi ≠ endB.cfg.localAddr ∧ (List.replicate 126 (0 : Byte)).length + 2 = endB.cfg.rxBufCap ∧ 5 ≤ endB.cfg.rxBufCap ∧
    endB.cfg.terminator ∉
      (endB.cfg.header :: endB.cfg.localAddr :: List.replicate 126 0).take (endB.cfg.rxBufCap - 2) := by
  decide

/-- V42. -/
theorem witness_PacketForAnotherEndpointIsDiscarded :
    (queued foreign endB).rxState = .seekingHeader ∧ (queued foreign endB).rxq = endB.cfg.header :: 0x01 :: foreign.drop 2 ∧
    endB.cfg.header ≠ endB.cfg.ackChar ∧ cmdHi ≠ endB.cfg.header ∧ (0x01 : Byte) ≠ endB.cfg.localAddr ∧
    endB.cfg.ackChar ∉ 0x01 :: foreign.drop 2 ∧ endB.cfg.header ∉ foreign.drop 2 ∧
    ¬ [cmdHi, cmdLo] <:+: 0x01 :: foreign.drop 2 ∧ (0x01 :: foreign.drop 2).getLast? ≠ some cmdHi := by decide

/-- The conforming pair of 95_test_vectors.md, with a slot published at `A` (P1). -/
theorem witness_PeerAppliesWhatIsBuilt :
    ConformingPair (after (.publish 3 42) endA) endB ∧ (after (.publish 3 42) endA).Inv ∧
    FramingDistinct endB.cfg ∧ AddressesDistinct endB.cfg ∧ (after (.publish 3 42) endA).txState = .idle ∧
    dueIndices 0 (after (.publish 3 42) endA) ≠ [] ∧
    endB.cfg.terminator ∉ payloadBytes (entriesAt (after (.publish 3 42) endA) (chosenIndices 0 (after (.publish 3 42) endA))) ∧
    endB.rxState = .seekingHeader ∧ endB.rxq = [] :=
  ⟨by decide, ⟨trivial, rfl, by simp [ConfigInv]; decide⟩, by decide, by decide, by decide, by decide, by decide, rfl, rfl⟩

/-- P1: what the witness above says, and the rest of the hypotheses. -/
theorem witness_PacketAndAckCrossThePerfectLink :
    (after (.publish 3 42) endA).wire = [] ∧ (after (.publish 3 42) endA).rxq = [] ∧
    (after (.publish 3 42) endA).rxState = .seekingHeader ∧ endB.wire = [] ∧
    ([1, 2, 3, 4, 5, 6, 7, 8] : List Time).length = 5 + 3 * (chosenIndices 0 (after (.publish 3 42) endA)).length ∧
    ConformingPair (after (.publish 3 42) endA) endB ∧ (after (.publish 3 42) endA).Inv ∧
    FramingDistinct endB.cfg ∧ AddressesDistinct endB.cfg ∧ (after (.publish 3 42) endA).txState = .idle ∧
    dueIndices 0 (after (.publish 3 42) endA) ≠ [] ∧
    endB.cfg.terminator ∉ payloadBytes (entriesAt (after (.publish 3 42) endA) (chosenIndices 0 (after (.publish 3 42) endA))) ∧
    endB.rxState = .seekingHeader ∧ endB.rxq = [] :=
  ⟨rfl, rfl, rfl, rfl, by decide, witness_PeerAppliesWhatIsBuilt⟩

end Sys2Proof.Tests
end

section
/-! Scope rules of 00_scope.md: what one step makes of each kind of pending input (R7, R53; log 1, log 21, log 22), and the
wire rows as a POLL of their bytes (R7 b, R42; log 4). -/

namespace Sys2Proof.Machine

/-! ### What a step makes of its next input -/

theorem fetch_of_agenda_nil {s : State} (h : s.agenda = []) : fetch s = .nothing := by
  simp [fetch, h]

theorem fetch_arrive {s : State} {bytes : List Byte} {rest : List Input} (h : s.agenda = .arrive bytes :: rest) :
    fetch s = .moved (rxArrive bytes { s with agenda := rest }) := by
  simp [fetch, h]

theorem fetch_depart {s : State} {n : Nat} {rest : List Input} (h : s.agenda = .depart n :: rest) :
    fetch s = .moved (wireDepart n { s with agenda := rest }) := by
  simp [fetch, h]

theorem step_of_fetch_nothing {s : State} (h : fetch s = .nothing) : step s = .next s := by
  simp [step, h]

theorem step_of_fetch_moved {s t : State} (h : fetch s = .moved t) : step s = .next t := by
  simp [step, h]

theorem step_of_fetch_instr {s t : State} {i : Instr} (h : fetch s = .instr i t) : step s = exec i t := by
  simp [step, h]

/-- A pending frame that decodes runs its instruction, with the agenda `leave` says. -/
theorem step_frame_ok {s : State} {f : Frame} {rest : List Input} {i : Instr} {left : List Byte}
    (h : s.agenda = .frame f :: rest) (hd : decode s.cfg f = .ok (i, left)) :
    step s = exec i { s with agenda := leave f left rest } :=
  step_of_fetch_instr (fetch_ok h hd)

/-- Settles O1: `leave` gives the agenda the statement writes out, kind of frame by kind of frame. -/
theorem stepRunsDecodedInstruction : Obligations.StepRunsDecodedInstruction := by
  intro s f rest i left h hd
  rw [step_frame_ok h hd]
  cases f with
  | wire bytes =>
    cases left with
    | nil => rfl
    | cons b bs => rfl
  | host bytes => rfl
  | func unit bytes => rfl

/-- Settles O2: each move of the environment is fetched as its one transport update, an empty agenda as nothing. -/
theorem environmentMovesTouchOnlyTransport : Obligations.EnvironmentMovesTouchOnlyTransport := by
  intro s rest
  refine ⟨fun bytes h => ?arrive, fun n h => ?depart, fun h => ?empty⟩
  case arrive => exact step_of_fetch_moved (fetch_arrive h)
  case depart => exact step_of_fetch_moved (fetch_depart h)
  case empty => exact step_of_fetch_nothing (fetch_of_agenda_nil h)

/-! ### The wire rows -/

theorem exec_data (addr : Byte) (body : List Byte) (s : State) :
    exec (.data addr body) s = .next (receiveBytes (s.cfg.header :: addr :: body) s) := rfl

theorem exec_ack (s : State) : exec .ack s = .next (receiveBytes [s.cfg.ackChar] s) := rfl

theorem exec_resendAll (s : State) : exec .resendAll s = .next (receiveBytes [cmdHi, cmdLo] s) := rfl

/-- Bytes that arrive are a POLL at the host's clock with them behind whatever was queued (R7 b, R42; log 4). -/
theorem next_receiveBytes_eq_exec_poll (bytes : List Byte) (s : State) :
    .next (receiveBytes bytes s) = exec (.poll s.clock) { s with rxq := s.rxq ++ bytes } := rfl

theorem cmdHi_eq : cmdHi = 0xFE := by decide

theorem cmdLo_eq : cmdLo = 0xED := by decide

/-- Settles O47: each wire row receives its message's bytes, and receiving bytes is polling them. -/
theorem wireRowsArePolledOnArrival : Obligations.WireRowsArePolledOnArrival := by
  intro s addr body
  refine ⟨?data, ?ack, ?resendAll⟩
  case data => rw [exec_data, next_receiveBytes_eq_exec_poll]
  case ack => rw [exec_ack, next_receiveBytes_eq_exec_poll]
  case resendAll => rw [exec_resendAll, next_receiveBytes_eq_exec_poll, cmdHi_eq, cmdLo_eq]

end Sys2Proof.Machine
end

section
/-! What an instruction can do, said once (10_state.md): one inversion of `exec`, by the shared operation an instruction ends
in. -/

namespace Sys2Proof.Machine

/-- The instructions that end in a POLL of what is queued: the host's own, and the messages from the wire (R95; log 4). -/
def PollsBytes (i : Instr) : Prop :=
  (∃ now, i = .poll now) ∨ (∃ a b, i = .data a b) ∨ i = .ack ∨ i = .resendAll

/-- The internal functions, called directly (R60; log 3). -/
def CallsFunction (i : Instr) : Prop :=
  (∃ bytes, i = .crc16 bytes) ∨ (∃ addr es, i = .encode addr es) ∨ ∃ bytes, i = .decode bytes

/-- The state after an instruction, by the shared operation that makes it. -/
inductive Effect (s : State) : Instr → State → Prop where
  | polled {i : Instr} (hi : PollsBytes i) (now : Time) (bytes : List Byte) : Effect s i (poll now (rxArrive bytes s))
  | served (now : Time) : Effect s (.service now) (service now s)
  | published (index : Byte) (value : Value) (slot : TxSlot) : Effect s (.publish index value) { beginOp s with
      txTable := s.txTable.set index.toNat (publishSlot s.cfg.publishMarksUnchanged value slot) }
  | notPublished (index : Byte) (value : Value) : Effect s (.publish index value) (emit .rejected (beginOp s))
  | readSlot (index : Byte) (r : Result) : Effect s (.read index) (answer r (beginOp s))
  | took (flag : StatusFlag) (r : Result) : Effect s (.take flag false) (answer r (beginOp s))
  | tookAndCleared (flag : StatusFlag) (r : Result) :
      Effect s (.take flag true) (writeFlag flag false (answer r (beginOp s)))
  | configureRejected (h m a : Byte) (hb at1 pt : Time) (r : Bool) (hs : s.started = true) :
      Effect s (.configure h m a hb at1 pt r) (emit .rejected (clearOutputs s))
  | configured (h m a : Byte) (hb at1 pt : Time) (r : Bool) (hs : s.started = false) :
      Effect s (.configure h m a hb at1 pt r) { clearOutputs s with
        cfg := { s.cfg with header := h, terminator := m, ackChar := a, heartbeat := hb, ackTimeout := at1,
                            packetTimeout := pt, retransmit := r } }
  | wasReset (p q : Byte) (m n : Nat) (r : Bool) : Effect s (.reset p q m n r) { State.reset with
      txTable := List.replicate m TxSlot.zero, rxTable := List.replicate n 0, cfg := resetConfig p q r s.cfg
      rxq := s.rxq, wire := s.wire, clock := s.clock, agenda := s.agenda }
  | returned {i : Instr} (hi : CallsFunction i) (r : Result) : Effect s i (answer r (clearOutputs s))

theorem rxArrive_nil (s : State) : rxArrive [] s = s := by simp [rxArrive]

/-- Each row of the opcode table has one of these effects. -/
theorem effect_of_exec {i : Instr} {s t : State} (h : exec i s = .next t) : Effect s i t := by
  cases i with
  | data addr body => cases h; exact .polled (.inr (.inl ⟨_, _, rfl⟩)) _ _
  | ack => cases h; exact .polled (.inr (.inr (.inl rfl))) _ _
  | resendAll => cases h; exact .polled (.inr (.inr (.inr rfl))) _ _
  | poll now =>
    have polled := Effect.polled (s := s) (.inl ⟨now, rfl⟩) now []
    rw [rxArrive_nil] at polled
    cases h
    exact polled
  | service now => cases h; exact .served now
  | publish index value =>
    rcases execPublish_cases index value s with ⟨slot, -, e⟩ | ⟨-, e⟩
    · cases e.symm.trans h; exact .published index value slot
    · cases e.symm.trans h; exact .notPublished index value
  | read index => cases h; exact .readSlot index _
  | take flag clear =>
    cases clear with
    | false => cases h; exact .took flag _
    | true => cases h; exact .tookAndCleared flag _
  | configure hd m a hb at1 pt r =>
    rcases execConfigure_cases hd m a hb at1 pt r s with ⟨hs, e⟩ | ⟨hs, e⟩
    · cases e.symm.trans h; exact .configureRejected hd m a hb at1 pt r hs
    · cases e.symm.trans h; exact .configured hd m a hb at1 pt r hs
  | reset p q m n r => cases h; exact .wasReset p q m n r
  | crc16 bytes => cases h; exact .returned (.inl ⟨_, rfl⟩) _
  | encode addr es => cases h; exact .returned (.inr (.inl ⟨_, _, rfl⟩)) _
  | decode bytes => cases h; exact .returned (.inr (.inr ⟨_, rfl⟩)) _

/-- The frame of a SERVICE, from the state after its first lines (R80). -/
theorem service_frame (now : Time) (s : State) : ServiceFrame (sampleClock now (beginOp s)) (service now s) :=
  serviceAction_frame now _

end Sys2Proof.Machine
end

section
/-! The invariant between operations (10_state.md R31): what decodes is well formed, a well-formed instruction keeps the
invariant, and so every step keeps it. -/

namespace Sys2Proof.Machine

/-! ### Whatever decodes is well formed -/

theorem capacityOk_of_decodeCapacity {h l : Byte} {n : Nat} (hd : decodeCapacity h l = .ok n) : capacityOk n = true := by
  unfold decodeCapacity at hd
  dsimp only at hd
  split at hd
  · next hc => cases hd; exact hc
  · cases hd

theorem wf_of_decodeTake {c : LinkConfig} {f k : Byte} {i : Instr} (hd : decodeTake f k = .ok i) : i.wf c = true := by
  unfold decodeTake at hd
  split at hd <;> cases hd
  rfl

theorem wf_of_decodeConfigure {c : LinkConfig} {h m a r : Byte} {hb at1 pt : Time} {i : Instr}
    (hd : decodeConfigure h m a hb at1 pt r = .ok i) : i.wf c = true := by
  unfold decodeConfigure at hd
  split at hd <;> cases hd
  rfl

/-- The decoder refuses a RESET whose capacities are not legal (R29). -/
theorem wf_of_decodeReset {c : LinkConfig} {p q th tl rh rl r : Byte} {i : Instr}
    (hd : decodeReset p q th tl rh rl r = .ok i) : i.wf c = true := by
  unfold decodeReset at hd
  split at hd
  · next htx hrx _ =>
    cases hd
    simp [Instr.wf, capacityOk_of_decodeCapacity htx, capacityOk_of_decodeCapacity hrx]
  all_goals cases hd

theorem wf_of_decodeHost {c : LinkConfig} {bytes : List Byte} {i : Instr} (hd : decodeHost bytes = .ok i) :
    i.wf c = true := by
  unfold decodeHost at hd
  split at hd
  · cases hd
  · split at hd
    · cases hd; rfl
    · cases hd; rfl
    · cases hd; rfl
    · cases hd; rfl
    · exact wf_of_decodeTake hd
    · exact wf_of_decodeConfigure hd
    · exact wf_of_decodeReset hd
    · split at hd <;> cases hd

theorem wf_of_decodeFunc {c : LinkConfig} {unit : FuncUnit} {bytes : List Byte} {i : Instr}
    (hd : decodeFunc unit bytes = .ok i) : i.wf c = true := by
  unfold decodeFunc at hd
  split at hd
  · cases hd; rfl
  · cases hd; rfl
  · split at hd
    · cases hd
    · split at hd <;> cases hd
      rfl

/-- A DATA message decodes only at `MIN_PKT` bytes or more and ends where the receive machine ends it (R47, R54). -/
theorem wf_of_decodeWire {c : LinkConfig} {bytes left : List Byte} {i : Instr} (hd : decodeWire c bytes = .ok (i, left)) :
    i.wf c = true := by
  unfold decodeWire at hd
  split at hd
  · cases hd
  · split at hd
    · cases hd; rfl
    · split at hd
      · cases hd; rfl
      · split at hd
        · split at hd
          · cases hd
          · split at hd
            · cases hd
            · next hbody =>
              split at hd
              · next hlen => cases hd; simp [Instr.wf, dataOk, hlen, takeBody_self hbody]
              · cases hd
        · cases hd

/-- Host and function frames leave no bytes after their instruction. -/
theorem eq_ok_of_map_eq_ok {x : Except DecodeError Instr} {i : Instr} {left : List Byte}
    (h : x.map (fun i => (i, ([] : List Byte))) = .ok (i, left)) : x = .ok i := by
  cases x with
  | error e => cases h
  | ok j => cases h; rfl

/-- Settles O6: by the row's format, the wire and the RESET frame being the ones the decoder tests. -/
theorem decodedInstructionsAreWellFormed : Obligations.DecodedInstructionsAreWellFormed := by
  intro c f i left hd
  cases f with
  | wire bytes => exact wf_of_decodeWire hd
  | host bytes => exact wf_of_decodeHost (eq_ok_of_map_eq_ok hd)
  | func unit bytes => exact wf_of_decodeFunc (eq_ok_of_map_eq_ok hd)

/-! ### A well-formed instruction keeps the invariant -/

@[simp] theorem writeFlag_txTable (f : StatusFlag) (b : Bool) (s : State) : (writeFlag f b s).txTable = s.txTable := by
  cases f <;> rfl
@[simp] theorem writeFlag_rxTable (f : StatusFlag) (b : Bool) (s : State) : (writeFlag f b s).rxTable = s.rxTable := by
  cases f <;> rfl
@[simp] theorem writeFlag_txState (f : StatusFlag) (b : Bool) (s : State) : (writeFlag f b s).txState = s.txState := by
  cases f <;> rfl
@[simp] theorem writeFlag_txbuf (f : StatusFlag) (b : Bool) (s : State) : (writeFlag f b s).txbuf = s.txbuf := by
  cases f <;> rfl
@[simp] theorem writeFlag_txPos (f : StatusFlag) (b : Bool) (s : State) : (writeFlag f b s).txPos = s.txPos := by
  cases f <;> rfl
@[simp] theorem writeFlag_rxState (f : StatusFlag) (b : Bool) (s : State) : (writeFlag f b s).rxState = s.rxState := by
  cases f <;> rfl
@[simp] theorem writeFlag_rxbuf (f : StatusFlag) (b : Bool) (s : State) : (writeFlag f b s).rxbuf = s.rxbuf := by
  cases f <;> rfl
@[simp] theorem writeFlag_started (f : StatusFlag) (b : Bool) (s : State) : (writeFlag f b s).started = s.started := by
  cases f <;> rfl
@[simp] theorem writeFlag_cfg (f : StatusFlag) (b : Bool) (s : State) : (writeFlag f b s).cfg = s.cfg := by
  cases f <;> rfl
@[simp] theorem writeFlag_events (f : StatusFlag) (b : Bool) (s : State) : (writeFlag f b s).events = s.events := by
  cases f <;> rfl

/-- An operation that sets the lock and touches neither machine's state nor the configuration keeps the invariant. -/
theorem State.Inv.of_started {s t : State} (h : s.Inv) (h1 : t.txState = s.txState) (h2 : t.txbuf = s.txbuf)
    (h3 : t.txPos = s.txPos) (h4 : t.cfg = s.cfg) (h5 : t.rxState = s.rxState) (h6 : t.rxbuf = s.rxbuf)
    (h7 : t.capTx = s.capTx) (h8 : t.capRx = s.capRx) (h9 : t.started = true) : t.Inv :=
  let ⟨tx, rx, config⟩ := h
  ⟨tx.congr h1 h2 h3 h4, rx.congr h5 h6 h4, config.started h7 h8 h4 h9⟩

theorem inv_beginOp {s : State} (h : s.Inv) : (beginOp s).Inv := h.of_started rfl rfl rfl rfl rfl rfl rfl rfl rfl

/-- With nothing in flight the configuration may change, if the hardwired buffer capacities stay (R29, R30). -/
theorem inv_reconfigured {s t : State} (h : s.Inv) (hs : s.started = false) (h1 : t.txState = s.txState)
    (h2 : t.rxState = s.rxState) (h3 : t.rxbuf = s.rxbuf) (h4 : t.capTx = s.capTx) (h5 : t.capRx = s.capRx)
    (h6 : t.cfg.txBufCap = s.cfg.txBufCap) (h7 : t.cfg.rxBufCap = s.cfg.rxBufCap) : t.Inv := by
  obtain ⟨-, rx, tx1, tx256, rx1, rx256, txCap, rxCap, lock⟩ := h
  obtain ⟨idle, seeking⟩ := lock hs
  have empty : s.rxbuf = [] := by simpa [RxInv, seeking, State.rxLen] using rx
  refine ⟨txInv_of_idle (h1.trans idle), rxInv_of_empty (h2.trans seeking) (h3.trans empty), ?_⟩
  unfold ConfigInv
  rw [h4, h5, h6, h7]
  exact ⟨tx1, tx256, rx1, rx256, txCap, rxCap, fun _ => ⟨h1.trans idle, h2.trans seeking⟩⟩

/-- RESET's state meets the invariant, if its capacities are legal (R29, R155). -/
theorem inv_reset {s t : State} (h : s.Inv) (h1 : t.txState = .idle) (h2 : t.rxState = .seekingHeader) (h3 : t.rxbuf = [])
    (h4 : capacityOk t.capTx = true) (h5 : capacityOk t.capRx = true)
    (h6 : t.cfg.txBufCap = s.cfg.txBufCap) (h7 : t.cfg.rxBufCap = s.cfg.rxBufCap) : t.Inv := by
  obtain ⟨-, -, -, -, -, -, txCap, rxCap, -⟩ := h
  simp only [capacityOk, Bool.and_eq_true, decide_eq_true_eq] at h4 h5
  refine ⟨txInv_of_idle h1, rxInv_of_empty h2 h3, ?_⟩
  unfold ConfigInv
  rw [h6, h7]
  exact ⟨h4.1, h4.2, h5.1, h5.2, txCap, rxCap, fun _ => ⟨h1, h2⟩⟩

theorem Effect.inv {s t : State} {i : Instr} {c : LinkConfig} (e : Effect s i t) (hw : i.wf c = true) (h : s.Inv) :
    t.Inv := by
  cases e with
  | polled _ now bytes => exact inv_poll now (h.congr rfl rfl rfl rfl rfl rfl rfl rfl rfl)
  | served now => exact inv_service now h
  | published index value slot =>
    exact h.of_started rfl rfl rfl rfl rfl rfl (List.length_set ..) rfl rfl
  | notPublished => exact (inv_beginOp h).congr rfl rfl rfl rfl rfl rfl rfl rfl rfl
  | readSlot => exact (inv_beginOp h).congr rfl rfl rfl rfl rfl rfl rfl rfl rfl
  | took => exact (inv_beginOp h).congr rfl rfl rfl rfl rfl rfl rfl rfl rfl
  | tookAndCleared flag r =>
    exact (inv_beginOp h).congr (by simp) (by simp) (by simp) (by simp) (by simp) (by simp) (by simp [State.capTx])
      (by simp [State.capRx]) (by simp)
  | configureRejected => exact h.congr rfl rfl rfl rfl rfl rfl rfl rfl rfl
  | configured _ _ _ _ _ _ _ hs => exact inv_reconfigured h hs rfl rfl rfl rfl rfl rfl rfl
  | wasReset p q m n r =>
    simp only [Instr.wf, Bool.and_eq_true] at hw
    exact inv_reset h rfl rfl rfl (by simpa [State.capTx] using hw.1) (by simpa [State.capRx] using hw.2) rfl rfl
  | returned _ r => exact inv_answer r h

/-! ### Every step keeps the invariant -/

/-- The agenda is no part of the invariant. -/
theorem inv_agenda {s : State} (agenda : List Input) (h : s.Inv) : State.Inv { s with agenda := agenda } :=
  h.congr rfl rfl rfl rfl rfl rfl rfl rfl rfl

theorem step_of_fetch_unreadable {s : State} {e : DecodeError} (h : fetch s = .unreadable e) :
    step s = .refused (.notAnOperation e) := by
  simp [step, h]

/-- A frame that holds no instruction: an empty one goes, the oldest byte of a wire frame arrives and is polled, and any other
frame is unreadable (R55; log 21). -/
theorem fetchStray_cases (f : Frame) (e : DecodeError) (rest : List Input) (s : State) :
    fetchStray f e rest s = .moved { s with agenda := rest } ∨
    (∃ b bs, fetchStray f e rest s = .moved (receiveBytes [b] { s with agenda := leave f bs rest })) ∨
    fetchStray f e rest s = .unreadable e := by
  unfold fetchStray
  split
  · exact .inl rfl
  · next b bs => exact .inr (.inl ⟨b, bs, rfl⟩)
  · exact .inr (.inr rfl)
  · exact .inr (.inr rfl)

/-- Settles O10: by the kind of the oldest pending input; an instruction that decoded is well formed, and keeps the
invariant. -/
theorem stepKeepsInvariant : Obligations.StepKeepsInvariant := by
  intro s t h hstep
  cases ha : s.agenda with
  | nil =>
    rw [step_of_fetch_nothing (fetch_of_agenda_nil ha)] at hstep
    cases hstep
    exact h
  | cons input rest =>
    cases input with
    | arrive bytes =>
      rw [step_of_fetch_moved (fetch_arrive ha)] at hstep
      cases hstep
      exact h.congr rfl rfl rfl rfl rfl rfl rfl rfl rfl
    | depart count =>
      rw [step_of_fetch_moved (fetch_depart ha)] at hstep
      cases hstep
      exact h.congr rfl rfl rfl rfl rfl rfl rfl rfl rfl
    | frame f =>
      cases hd : decode s.cfg f with
      | ok r =>
        obtain ⟨i, left⟩ := r
        rw [step_frame_ok ha hd] at hstep
        exact (effect_of_exec hstep).inv (decodedInstructionsAreWellFormed s.cfg f i left hd) (inv_agenda _ h)
      | error e =>
        rcases fetchStray_cases f e rest s with hu | ⟨b, bs, hu⟩ | hu
        · rw [step_of_fetch_moved ((fetch_error ha hd).trans hu)] at hstep
          cases hstep
          exact inv_agenda rest h
        · rw [step_of_fetch_moved ((fetch_error ha hd).trans hu)] at hstep
          cases hstep
          exact inv_receiveBytes [b] (inv_agenda _ h)
        · rw [step_of_fetch_unreadable ((fetch_error ha hd).trans hu)] at hstep
          cases hstep

/-- Settles O9: both machines are at rest with empty buffers, and the defaults are legal (R155). -/
theorem invariantHoldsAtReset : Obligations.InvariantHoldsAtReset := by
  refine ⟨txInv_of_idle rfl, rxInv_of_empty rfl rfl, ?_⟩
  unfold ConfigInv
  decide

end Sys2Proof.Machine
end

section
/-! What each instruction can change of the slot tables (10_state.md R17 to R20), the configuration and its lock (R29, R30),
and the status flags (R28), from its effect. -/

namespace Sys2Proof.Machine

/-- The instruction is RESET, whatever its operands (R154). -/
def IsReset (i : Instr) : Prop := ∃ p q m n r, i = .reset p q m n r

theorem isReset (p q : Byte) (m n : Nat) (r : Bool) : IsReset (.reset p q m n r) := ⟨p, q, m, n, r, rfl⟩

/-! ### The slot tables -/

theorem Effect.txValues {s t : State} {i : Instr} (e : Effect s i t) :
    t.txTable.map TxSlot.value = s.txTable.map TxSlot.value ∨ (∃ n v, i = .publish n v) ∨ IsReset i := by
  cases e with
  | polled _ now bytes => exact .inl (poll_frame now (rxArrive bytes s)).values
  | served now => exact .inl (service_frame now s).values
  | published index value => exact .inr (.inl ⟨index, value, rfl⟩)
  | wasReset p q m n r => exact .inr (.inr (isReset p q m n r))
  | tookAndCleared => exact .inl (by simp)
  | notPublished | readSlot | took | configureRejected | configured | returned => exact .inl rfl

theorem Effect.rxTable {s t : State} {i : Instr} (e : Effect s i t) :
    t.rxTable = s.rxTable ∨ PollsBytes i ∨ IsReset i := by
  cases e with
  | polled hi => exact .inr (.inl hi)
  | served now => exact .inl (service_frame now s).rxTable
  | wasReset p q m n r => exact .inr (.inr (isReset p q m n r))
  | tookAndCleared => exact .inl (by simp)
  | published | notPublished | readSlot | took | configureRejected | configured | returned => exact .inl rfl

/-- Settles O12: by the frames of POLL and SERVICE; the other effects write neither table's values. -/
theorem slotTablesAreDisjoint : Obligations.SlotTablesAreDisjoint := by
  intro i s t h
  have e := effect_of_exec h
  refine ⟨fun hne => e.txValues.resolve_left hne, fun hne => ?_⟩
  rcases e.rxTable.resolve_left hne with (hp | hd | ha | hr) | hreset
  · exact .inl hp
  · exact .inr (.inl hd)
  · exact .inr (.inr (.inl ha))
  · exact .inr (.inr (.inr (.inl hr)))
  · exact .inr (.inr (.inr (.inr hreset)))

/-! ### The configuration and its lock -/

theorem poll_started (now : Time) (s : State) : (poll now s).started = true := (poll_frame now s).started

theorem service_started (now : Time) (s : State) : (service now s).started = true := (service_frame now s).started

/-- Every effect sets the lock or leaves it, but RESET's (R30). -/
theorem Effect.lockKept {s t : State} {i : Instr} (e : Effect s i t) (hs : s.started = true) :
    t.started = true ∨ IsReset i := by
  cases e with
  | polled _ now bytes => exact .inl (poll_started now _)
  | served now => exact .inl (service_started now s)
  | wasReset p q m n r => exact .inr (isReset p q m n r)
  | tookAndCleared => exact .inl (by simp)
  | published | notPublished | readSlot | took => exact .inl rfl
  | configureRejected | configured | returned => exact .inl hs

/-- The operations whose first line sets the lock (R30). -/
def SetsLock (i : Instr) : Prop :=
  (∃ n v, i = .publish n v) ∨ (∃ now, i = .service now) ∨ (∃ now, i = .poll now) ∨ (∃ n, i = .read n) ∨ ∃ f k, i = .take f k

theorem Effect.lockSet {s t : State} {i : Instr} (e : Effect s i t) (hi : SetsLock i) : t.started = true := by
  cases e with
  | polled _ now bytes => exact poll_started now _
  | served now => exact service_started now s
  | tookAndCleared => simp
  | published | notPublished | readSlot | took => rfl
  | configureRejected | configured | wasReset => simp [SetsLock] at hi
  | returned hc => rcases hc with ⟨_, rfl⟩ | ⟨_, _, rfl⟩ | ⟨_, rfl⟩ <;> simp [SetsLock] at hi

/-- Settles O14: the five operations begin by setting the lock, and CONFIGURE, rejected or not, leaves it. -/
theorem configurationLock : Obligations.ConfigurationLock := by
  intro i s t h
  have e := effect_of_exec h
  refine ⟨e.lockSet, fun hs ht => ?_, ?_⟩
  · exact (e.lockKept hs).resolve_left (by simp [ht])
  · rintro ⟨hd, m, a, hb, at1, pt, r, rfl⟩
    rcases execConfigure_cases hd m a hb at1 pt r s with ⟨-, he⟩ | ⟨-, he⟩
    · cases he.symm.trans h; rfl
    · cases he.symm.trans h; rfl

theorem Effect.cfg {s t : State} {i : Instr} (e : Effect s i t) (hs : s.started = true) : t.cfg = s.cfg ∨ IsReset i := by
  cases e with
  | polled _ now bytes => exact .inl (poll_frame now (rxArrive bytes s)).cfg
  | served now => exact .inl (service_frame now s).cfg
  | wasReset p q m n r => exact .inr (isReset p q m n r)
  | configured _ _ _ _ _ _ _ hunlocked => simp [hs] at hunlocked
  | tookAndCleared => exact .inl (by simp)
  | published | notPublished | readSlot | took | configureRejected | returned => exact .inl rfl

theorem Effect.capacities {s t : State} {i : Instr} (e : Effect s i t) :
    t.capTx = s.capTx ∧ t.capRx = s.capRx ∨ IsReset i := by
  cases e with
  | polled _ now bytes =>
    have f := poll_frame now (rxArrive bytes s)
    exact .inl ⟨f.capTx, f.capRx⟩
  | served now =>
    have f := service_frame now s
    exact .inl ⟨f.capTx, congrArg List.length f.rxTable⟩
  | wasReset p q m n r => exact .inr (isReset p q m n r)
  | published => exact .inl ⟨List.length_set .., rfl⟩
  | tookAndCleared => exact .inl (by simp [State.capTx, State.capRx])
  | notPublished | readSlot | took | configureRejected | configured | returned => exact .inl ⟨rfl, rfl⟩

/-- Settles O15: a locked CONFIGURE is rejected, and only RESET builds its tables anew. -/
theorem configurationFixedOnceStarted : Obligations.ConfigurationFixedOnceStarted := by
  intro i s t h
  have e := effect_of_exec h
  refine ⟨fun hs hne => (e.cfg hs).resolve_left hne, fun hne => e.capacities.resolve_left ?_⟩
  rintro ⟨htx, hrx⟩
  exact hne.elim (· htx) (· hrx)

/-! ### The status flags -/

theorem readFlag_congr {s t : State} (h1 : t.transmissionError = s.transmissionError) (h2 : t.readError = s.readError)
    (h3 : t.newDataAvailable = s.newDataAvailable) (f : StatusFlag) : readFlag f t = readFlag f s := by
  cases f with
  | transmissionError => exact h1
  | readError => exact h2
  | newDataAvailable => exact h3

theorem readFlag_writeFlag_same (f : StatusFlag) (b : Bool) (s : State) : readFlag f (writeFlag f b s) = b := by
  cases f <;> rfl

theorem readFlag_writeFlag_other {f g : StatusFlag} (h : f ≠ g) (b : Bool) (s : State) :
    readFlag f (writeFlag g b s) = readFlag f s := by
  cases g with
  | transmissionError =>
    cases f with
    | transmissionError => exact absurd rfl h
    | readError | newDataAvailable => rfl
  | readError =>
    cases f with
    | readError => exact absurd rfl h
    | transmissionError | newDataAvailable => rfl
  | newDataAvailable =>
    cases f with
    | newDataAvailable => exact absurd rfl h
    | transmissionError | readError => rfl

/-- No part of a POLL clears a flag (R28). -/
theorem ReceiveFrame.readFlag {s t : State} (h : ReceiveFrame s t) {f : StatusFlag} (hf : readFlag f s = true) :
    Machine.readFlag f t = true := by
  cases f with
  | transmissionError => exact h.transmissionError.trans hf
  | readError => exact h.readError hf
  | newDataAvailable => exact h.newData hf

/-- No SERVICE clears a flag (R28). -/
theorem ServiceFrame.readFlag {s t : State} (h : ServiceFrame s t) {f : StatusFlag} (hf : readFlag f s = true) :
    Machine.readFlag f t = true := by
  cases f with
  | transmissionError => exact h.transmissionError hf
  | readError => exact h.readError.trans hf
  | newDataAvailable => exact h.newDataAvailable.trans hf

theorem Effect.flagKept {s t : State} {i : Instr} (e : Effect s i t) {f : StatusFlag} (hf : readFlag f s = true) :
    readFlag f t = true ∨ i = .take f true ∨ IsReset i := by
  have same {u : State} (h : readFlag f u = readFlag f s) : readFlag f u = true := h.trans hf
  cases e with
  | polled _ now bytes =>
    exact .inl ((poll_frame now (rxArrive bytes s)).readFlag (same (readFlag_congr rfl rfl rfl f)))
  | served now => exact .inl ((service_frame now s).readFlag (same (readFlag_congr rfl rfl rfl f)))
  | tookAndCleared g r =>
    by_cases hg : f = g
    · exact .inr (.inl (by rw [hg]))
    · exact .inl (same ((readFlag_writeFlag_other hg false _).trans (readFlag_congr rfl rfl rfl f)))
  | wasReset p q m n r => exact .inr (.inr (isReset p q m n r))
  | published | notPublished | readSlot | took | configureRejected | configured | returned =>
    exact .inl (same (readFlag_congr rfl rfl rfl f))

/-- Settles O11: the frames of POLL and SERVICE keep a set flag, and TAKE writes the flag it names only. -/
theorem onlyTakeAndResetClearFlags : Obligations.OnlyTakeAndResetClearFlags := by
  intro i s t f h hf ht
  exact ((effect_of_exec h).flagKept hf).resolve_left (by simp [ht])

end Sys2Proof.Machine
end

section
/-! What sets a status flag (10_state.md R28), and the event each cause leaves in the event list (R90, R106, R135, R152). -/

namespace Sys2Proof.Machine

/-- An operation that sets no status flag and has no event that would. -/
structure SetsNoFlag (s t : State) : Prop where
  flags : ∀ f, readFlag f t = true → readFlag f s = true
  noFault : ∀ k, .fault k ∉ t.events
  noApplied : ∀ es, .applied es ∉ t.events

theorem setsNoFlag_of_no_events {s t : State} (hf : ∀ f, readFlag f t = true → readFlag f s = true) (he : t.events = []) :
    SetsNoFlag s t where
  flags := hf
  noFault := by simp [he]
  noApplied := by simp [he]

theorem setsNoFlag_of_event {s t : State} {e : Event} (hf : ∀ f, readFlag f t = readFlag f s) (he : t.events = [e])
    (h1 : ∀ k, .fault k ≠ e) (h2 : ∀ es, .applied es ≠ e) : SetsNoFlag s t where
  flags f := (hf f).symm.trans
  noFault k := by simpa [he] using h1 k
  noApplied es := by simpa [he] using h2 es

/-! ### SERVICE -/

@[simp] theorem acknowledgmentTimeout_transmissionError (s : State) :
    (acknowledgmentTimeout s).transmissionError = true := by
  unfold acknowledgmentTimeout; dsimp only; split <;> rfl

@[simp] theorem acknowledgmentTimeout_readError (s : State) : (acknowledgmentTimeout s).readError = s.readError := by
  unfold acknowledgmentTimeout; dsimp only; split <;> rfl

@[simp] theorem acknowledgmentTimeout_newDataAvailable (s : State) :
    (acknowledgmentTimeout s).newDataAvailable = s.newDataAvailable := by
  unfold acknowledgmentTimeout; dsimp only; split <;> rfl

@[simp] theorem acknowledgmentTimeout_events (s : State) :
    (acknowledgmentTimeout s).events = s.events ++ [.fault .acknowledgmentTimeout] := by
  unfold acknowledgmentTimeout; dsimp only; split <;> rfl

theorem idleTick_setsNoFlag (now : Time) {s : State} (he : s.events = []) : SetsNoFlag s (idleTick now s) := by
  unfold idleTick
  dsimp only
  split
  · exact setsNoFlag_of_no_events (fun _ h => h) he
  · exact setsNoFlag_of_event (e := .built (selectSlots now s).1) (readFlag_congr rfl rfl rfl) (by simp [buildPacket, he])
      (by simp) (by simp)

theorem sendingTick_events (now : Time) (s : State) : (sendingTick now s).events = s.events := by
  unfold sendingTick; dsimp only; (repeat' split) <;> rfl

theorem readFlag_sendingTick (now : Time) (s : State) (f : StatusFlag) :
    readFlag f (sendingTick now s) = readFlag f s := by
  unfold sendingTick; dsimp only; (repeat' split) <;> exact readFlag_congr rfl rfl rfl f

/-- The one action of a SERVICE that sets a flag is the timeout's, past the deadline in AwaitingAck (R88, R90). -/
theorem serviceAction_flags (now : Time) {s : State} (he : s.events = []) :
    (s.txState = .awaitingAck ∧ s.cfg.ackTimeout < elapsed now s.txStartTime ∧
      serviceAction now s = acknowledgmentTimeout s) ∨
    SetsNoFlag s (serviceAction now s) := by
  unfold serviceAction
  cases hs : s.txState with
  | idle => exact .inr (idleTick_setsNoFlag now he)
  | building => exact .inr (setsNoFlag_of_no_events (fun _ h => h) he)
  | sending =>
    exact .inr (setsNoFlag_of_no_events (fun f => (readFlag_sendingTick now s f).symm.trans)
      ((sendingTick_events now s).trans he))
  | awaitingAck =>
    dsimp only [awaitingTick]
    split
    · next hdeadline => exact .inl ⟨rfl, hdeadline, rfl⟩
    · exact .inr (setsNoFlag_of_no_events (fun _ h => h) he)

/-! ### Any instruction -/

theorem poll_rxArrive_caused (now : Time) (bytes : List Byte) (s : State) : Caused s (poll now (rxArrive bytes s)) :=
  let c := poll_caused now (rxArrive bytes s)
  ⟨c.readError, c.newData, c.noTimeout, c.txTable⟩

/-- Of all instructions, one that polls bytes sets the receive flags, a SERVICE past the deadline sets `transmissionError`,
and no other sets a flag or has an event that would (R28). -/
theorem Effect.setsFlags {s t : State} {i : Instr} (e : Effect s i t) :
    (PollsBytes i ∧ t.transmissionError = s.transmissionError ∧ Caused s t) ∨
    (s.txState = .awaitingAck ∧ (∃ now, i = .service now ∧ s.cfg.ackTimeout < elapsed now s.txStartTime) ∧
      ∃ now, t = acknowledgmentTimeout (sampleClock now (beginOp s))) ∨
    SetsNoFlag s t := by
  cases e with
  | polled hi now bytes =>
    exact .inl ⟨hi, (poll_frame now (rxArrive bytes s)).transmissionError, poll_rxArrive_caused now bytes s⟩
  | served now =>
    have hb (f : StatusFlag) : readFlag f (sampleClock now (beginOp s)) = readFlag f s := readFlag_congr rfl rfl rfl f
    rcases serviceAction_flags now (s := sampleClock now (beginOp s)) rfl with ⟨hs, hd, ht⟩ | h
    · exact .inr (.inl ⟨hs, ⟨now, rfl, hd⟩, now, ht⟩)
    · exact .inr (.inr ⟨fun f hf => (hb f).symm.trans (h.flags f hf), h.noFault, h.noApplied⟩)
  | notPublished | configureRejected =>
    exact .inr (.inr (setsNoFlag_of_event (readFlag_congr rfl rfl rfl) rfl (by simp) (by simp)))
  | tookAndCleared g r =>
    refine .inr (.inr (setsNoFlag_of_no_events (fun f hf => ?_) (by simp)))
    by_cases hg : f = g
    · rw [hg, readFlag_writeFlag_same] at hf; cases hf
    · rw [readFlag_writeFlag_other hg] at hf
      exact (readFlag_congr rfl rfl rfl f).symm.trans hf
  | wasReset => exact .inr (.inr (setsNoFlag_of_no_events (fun f hf => by cases f <;> cases hf) rfl))
  | published | readSlot | took | configured | returned =>
    exact .inr (.inr (setsNoFlag_of_no_events (fun f => (readFlag_congr rfl rfl rfl f).symm.trans) rfl))

/-- Settles O60: a POLL's flags are those its events name, the timeout's flag and event come together, and nothing else
sets a flag. -/
theorem statusFlagsAreSetOnlyByTheirCauses : Obligations.StatusFlagsAreSetOnlyByTheirCauses := by
  intro i s t h
  rcases (effect_of_exec h).setsFlags with ⟨hi, hte, hc⟩ | ⟨hs, hi, now, rfl⟩ | hq
  case inl =>
    refine ⟨fun h0 h1 => ?_, fun h0 h1 => ⟨hi, ?_⟩, fun h0 h1 => ⟨hi, ?_⟩, fun hf => absurd hf hc.noTimeout,
      fun k hk hf => hc.readError.mpr (.inr ⟨k, hk, hf⟩), fun es he => hc.newData.mpr (.inr ⟨es, he⟩)⟩
    · simp [hte, h0] at h1
    · exact (hc.readError.mp h1).resolve_left (by simp [h0])
    · exact (hc.newData.mp h1).resolve_left (by simp [h0])
  case inr.inl =>
    refine ⟨fun _ _ => ⟨hs, hi, by simp⟩, fun h0 h1 => ?_, fun h0 h1 => ?_, fun _ => by simp, fun k hk hf => ?_,
      fun es he => ?_⟩
    · simp [h0] at h1
    · simp [h0] at h1
    · simp [hk] at hf
    · simp at he
  case inr.inr =>
    refine ⟨fun h0 h1 => ?_, fun h0 h1 => ?_, fun h0 h1 => ?_, fun hf => absurd hf (hq.noFault _),
      fun k _ hf => absurd hf (hq.noFault k), fun es he => absurd he (hq.noApplied es)⟩
    · simp [show s.transmissionError = true from hq.flags .transmissionError h1] at h0
    · simp [show s.readError = true from hq.flags .readError h1] at h0
    · simp [show s.newDataAvailable = true from hq.flags .newDataAvailable h1] at h0

end Sys2Proof.Machine
end

section
/-! A byte taken in Accumulating (10_state.md R24, 43_receive.md R101 to R107): appended, completing or filling, and the POLL
goes on with the bytes after it. -/

namespace Sys2Proof.Machine

/-- A POLL in the middle of a packet: it holds these bytes of the packet and this receive table, and has these bytes still to
read. -/
def midPacket (now : Time) (held : List Byte) (table : List Value) (more : List Byte) (s : State) : State :=
  { sampleClock now (beginOp s) with rxbuf := held, rxTable := table, rxq := more }

section MidPacket

variable {now : Time} {held more : List Byte} {table : List Value} {s : State} {b : Byte}

@[simp] theorem midPacket_cfg : (midPacket now held table more s).cfg = s.cfg := rfl
@[simp] theorem midPacket_rxbuf : (midPacket now held table more s).rxbuf = held := rfl

/-! ### The three cases of an append -/

theorem accumulate_completing (h : completes s.cfg (held ++ [b]) = true) :
    accumulate b (midPacket now held table more s) = complete (midPacket now (held ++ [b]) table more s) := by
  unfold accumulate
  rw [midPacket_cfg, midPacket_rxbuf]
  exact if_pos h

theorem accumulate_filling (h : ¬ completes s.cfg (held ++ [b]) = true) (hl : held.length + 1 = s.cfg.rxBufCap) :
    accumulate b (midPacket now held table more s) =
      receiveFault .bufferOverflow (midPacket now (held ++ [b]) table more s) := by
  have hfull : (held ++ [b]).length = s.cfg.rxBufCap := by simpa using hl
  unfold accumulate
  rw [midPacket_cfg, midPacket_rxbuf]
  exact (if_neg h).trans (if_pos hfull)

theorem accumulate_appending (h : ¬ completes s.cfg (held ++ [b]) = true) (hl : held.length + 1 ≠ s.cfg.rxBufCap) :
    accumulate b (midPacket now held table more s) = midPacket now (held ++ [b]) table more s := by
  have hroom : (held ++ [b]).length ≠ s.cfg.rxBufCap := by simpa using hl
  unfold accumulate
  rw [midPacket_cfg, midPacket_rxbuf]
  exact (if_neg h).trans (if_neg hroom)

/-! ### What completion does, by DECODE's result -/

theorem complete_tooShort (hd : decodePacket s.cfg held = .tooShort) :
    complete (midPacket now held table more s) = receiveFault .tooShort (midPacket now held table more s) := by
  rw [complete, midPacket_cfg, midPacket_rxbuf, hd]
  rfl

theorem complete_mismatch (hd : decodePacket s.cfg held = .checksumMismatch) :
    complete (midPacket now held table more s) = receiveFault .checksumMismatch (midPacket now held table more s) := by
  rw [complete, midPacket_cfg, midPacket_rxbuf, hd]
  rfl

theorem complete_applied {es : List Entry} (hd : decodePacket s.cfg held = .ok es)
    (h : ∀ e ∈ es, e.index.toNat < table.length) :
    complete (midPacket now held table more s) =
      dropPartial (success es (midPacket now held (applyAll table es) more s)) := by
  rw [complete, midPacket_cfg, midPacket_rxbuf, hd, finishPacket, applyEntries_good _ _ _ h]
  rfl

theorem complete_unknownIndex {good later : List Entry} {bad : Entry}
    (hd : decodePacket s.cfg held = .ok (good ++ bad :: later)) (h : ∀ e ∈ good, e.index.toNat < table.length)
    (hb : table.length ≤ bad.index.toNat) :
    complete (midPacket now held table more s) =
      receiveFault .unknownIndex (midPacket now held (applyAll table good) more s) := by
  rw [complete, midPacket_cfg, midPacket_rxbuf, hd, finishPacket,
    applyEntries_bad _ _ _ _ (midPacket now held table more s) h hb]
  rfl

/-! ### The rest of the POLL -/

/-- After the common action of a receive fault a POLL goes on from SeekingHeader (R107, R135). -/
theorem poll_after_fault (k : FaultKind) : poll now (receiveFault k (midPacket now held table more s)) = poll now { s with
    rxq := more, rxbuf := [], rxState := .seekingHeader, rxTable := table, readError := true
    wire := s.wire ++ [0xFE, 0xED] } :=
  poll_congr (by simp [midPacket, sampleClock, beginOp, clearOutputs, receiveFault, sendResendAll, emit, wireWrite,
    dropPartial, cmdHi_eq, cmdLo_eq])

/-- After an applied packet a POLL goes on from SeekingHeader (R106, R107). -/
theorem poll_after_applied (es : List Entry) : poll now (dropPartial (success es (midPacket now held table more s))) =
    poll now { s with
      rxq := more, rxbuf := [], rxState := .seekingHeader, rxTable := table, newDataAvailable := true
      wire := s.wire ++ [s.cfg.ackChar] } :=
  poll_congr (by simp [midPacket, sampleClock, beginOp, clearOutputs, success, emit, wireWrite, dropPartial])

theorem poll_after_append :
    poll now (midPacket now held s.rxTable more s) = poll now { s with rxq := more, rxbuf := held } :=
  poll_congr (by simp [midPacket, sampleClock, beginOp, clearOutputs])

/-- A POLL with nothing queued and no stale packet sets the lock and no more (R95, R96). -/
theorem poll_of_nothing (hq : s.rxq = []) (hn : NotStale now s) :
    poll now s = { s with started := true, events := [], result := .nothing, clock := now } := by
  have hn' : NotStale now (sampleClock now (beginOp s)) := hn
  rw [poll_nil hq, staleCheck_of_notStale hn']
  rfl

/-! ### The byte in the queue -/

variable (hs : s.rxState = .accumulating) (hq : s.rxq = b :: more) (hn : NotStale now s)
include hs hq hn

theorem poll_appending (h : ¬ completes s.cfg (s.rxbuf ++ [b]) = true) (hl : s.rxLen + 1 ≠ s.cfg.rxBufCap) :
    poll now s = poll now { s with rxq := more, rxbuf := s.rxbuf ++ [b] } := by
  rw [poll_content_then hs hq hn (accumulate_appending (table := s.rxTable) h hl) hn, poll_after_append]
  rfl

theorem poll_faulting {k : FaultKind} (h : accumulate b (midPacket now s.rxbuf s.rxTable more s) =
      receiveFault k (midPacket now held table more s)) :
    poll now s = withEarlier [.fault k, .resendAllSent] (poll now { s with
      rxq := more, rxbuf := [], rxState := .seekingHeader, rxTable := table, readError := true
      wire := s.wire ++ [0xFE, 0xED] }) := by
  rw [poll_content_then hs hq hn h (.inl rfl), poll_after_fault, receiveFault_events]
  rfl

theorem poll_applying {es : List Entry} (h : accumulate b (midPacket now s.rxbuf s.rxTable more s) =
      dropPartial (success es (midPacket now held table more s))) :
    poll now s = withEarlier [.applied es, .ackSent] (poll now { s with
      rxq := more, rxbuf := [], rxState := .seekingHeader, rxTable := table, newDataAvailable := true
      wire := s.wire ++ [s.cfg.ackChar] }) := by
  rw [poll_content_then hs hq hn h (.inl rfl), poll_after_applied]
  rfl

end MidPacket

/-- Settles O45: a byte is appended, fills the buffer or completes the packet, and DECODE's result says what completing does. -/
theorem accumulatingTakesAnyByte : Obligations.AccumulatingTakesAnyByte := by
  intro s now b more hs h2 hn hq
  have hcompletes : completes s.cfg (s.rxbuf ++ [b]) = true ↔ s.rxbuf[s.rxLen - 2]? = some s.cfg.terminator :=
    completes_append h2 b
  simp only [exec_poll, continuing_next]
  refine ⟨fun ht hl => ?appended, fun ht hl => ?filled, fun ht => ?completed⟩
  case appended =>
    have happ := poll_appending hs hq hn (mt hcompletes.mp ht) hl
    refine ⟨fun hmore => ?_, congrArg _ happ⟩
    subst hmore
    exact congrArg _ (happ.trans (poll_of_nothing rfl hn))
  case filled =>
    rw [poll_faulting hs hq hn (accumulate_filling (mt hcompletes.mp ht) hl)]
  case completed =>
    have hc := accumulate_completing (now := now) (table := s.rxTable) (more := more) (hcompletes.mpr ht)
    refine ⟨?failed, fun es hd hin => ?applied, fun good bad later hd hin hout => ?unknown⟩
    case failed =>
      rintro k (⟨rfl, hd⟩ | ⟨rfl, hd⟩)
      · rw [poll_faulting hs hq hn (hc.trans (complete_tooShort hd))]
      · rw [poll_faulting hs hq hn (hc.trans (complete_mismatch hd))]
    case applied => rw [poll_applying hs hq hn (hc.trans (complete_applied hd hin))]
    case unknown => rw [poll_faulting hs hq hn (hc.trans (complete_unknownIndex hd hin hout))]

end Sys2Proof.Machine
end

section
/-! Decoding and encoding (30_encoding.md): what the decoder makes of each row's bytes, so decoding undoes encoding (R45 to R60;
log 2, log 3); and the two kinds of frame that hold no instruction, refused (R59, U7) or discarded (R55). -/

namespace Sys2Proof.Machine

/-! ### Messages from the wire -/

theorem decodeWire_ack (c : LinkConfig) (rest : List Byte) : decodeWire c (c.ackChar :: rest) = .ok (.ack, rest) :=
  if_pos rfl

theorem decodeWire_resendAll {c : LinkConfig} (ha : cmdHi ≠ c.ackChar) (rest : List Byte) :
    decodeWire c (cmdHi :: cmdLo :: rest) = .ok (.resendAll, rest) := by
  simp [decodeWire, ha]

/-- A packet is read up to where the receive machine ends it, if that is no earlier than `MIN_PKT` bytes (R47, R54). -/
theorem decodeWire_data {c : LinkConfig} {addr : Byte} {bytes body after : List Byte} (ha : c.header ≠ c.ackChar)
    (hc : cmdHi ≠ c.header) (hb : takeBody c [c.header, addr] bytes = some (body, after))
    (hl : Config.minPkt ≤ body.length + 2) :
    decodeWire c (c.header :: addr :: bytes) = .ok (.data addr body, after) := by
  simp [decodeWire, ha, hc.symm, hb, hl]

/-- A byte that is no ACK and no header, and starts no command, starts no message (R55). -/
theorem decodeWire_stray {c : LinkConfig} {b : Byte} {rest : List Byte} (ha : b ≠ c.ackChar) (hh : b ≠ c.header)
    (hc : ¬ (b = cmdHi ∧ rest.head? = some cmdLo)) : decodeWire c (b :: rest) = .error (.notAMessage b) := by
  simp only [decodeWire, if_neg ha, if_neg hc, if_neg hh]

theorem dataOk_iff (c : LinkConfig) (addr : Byte) (body : List Byte) : dataOk c addr body = true ↔
    Config.minPkt ≤ body.length + 2 ∧ takeBody c [c.header, addr] body = some (body, []) := by
  simp [dataOk]

/-! ### Operands of a host operation -/

@[simp] theorem decodeFlag_flagLabel (f : StatusFlag) : decodeFlag (flagLabel f) = .ok f := by
  cases f <;> rfl

@[simp] theorem decodeBit_bitByte (b : Bool) : decodeBit (bitByte b) = .ok b := by
  cases b <;> rfl

/-- A legal capacity fits the two bytes that carry it (R29). -/
theorem decodeCapacity_of_ok {n : Nat} (h : capacityOk n = true) :
    decodeCapacity (hiByte (BitVec.ofNat 16 n)) (loByte (BitVec.ofNat 16 n)) = .ok n := by
  have hfits : n % 65536 = n := by
    simp only [capacityOk, Bool.and_eq_true, decide_eq_true_eq] at h
    omega
  simp [decodeCapacity, hfits, h]

/-! ### Host operations, by number -/

theorem decodeHost_publish (index : Byte) (value : Value) :
    decodeHost (0 :: index :: valueBytes value) = .ok (.publish index value) := by
  simp [decodeHost, valueBytes]

theorem decodeHost_service (now : Time) : decodeHost (1 :: timeBytes now) = .ok (.service now) := by
  simp [decodeHost, timeBytes]

theorem decodeHost_poll (now : Time) : decodeHost (2 :: timeBytes now) = .ok (.poll now) := by
  simp [decodeHost, timeBytes]

theorem decodeHost_take (f k : Byte) : decodeHost [4, f, k] = decodeTake f k := rfl

theorem decodeTake_operands (flag : StatusFlag) (clear : Bool) :
    decodeTake (flagLabel flag) (bitByte clear) = .ok (.take flag clear) := by
  simp [decodeTake]

/-- A flag label that is none is reported whatever stands behind it (R59, U7). -/
theorem decodeTake_notAFlag {f : Byte} {e : DecodeError} (h : decodeFlag f = .error e) (k : Byte) :
    decodeTake f k = .error e := by
  simp [decodeTake, h]

theorem decodeHost_configure (header terminator ackChar : Byte) (hb ackT pktT : Time) (r : Bool) :
    decodeHost ([5, header, terminator, ackChar] ++ timeBytes hb ++ timeBytes ackT ++ timeBytes pktT ++ [bitByte r]) =
      .ok (.configure header terminator ackChar hb ackT pktT r) := by
  simp [decodeHost, timeBytes, decodeConfigure]

theorem decodeHost_reset (peer localA : Byte) {capTx capRx : Nat} (r : Bool) (htx : capacityOk capTx = true)
    (hrx : capacityOk capRx = true) :
    decodeHost ([6, peer, localA] ++ capacityBytes capTx ++ capacityBytes capRx ++ [bitByte r]) =
      .ok (.reset peer localA capTx capRx r) := by
  simp [decodeHost, capacityBytes, valueBytes, decodeReset, decodeCapacity_of_ok htx, decodeCapacity_of_ok hrx]

/-! ### Function calls -/

theorem decodeFunc_encode (addr : Byte) (entries : List Entry) :
    decodeFunc .encode (addr :: payloadBytes entries) = .ok (.encode addr entries) := by
  simp [decodeFunc]

/-! ### Frames -/

theorem decode_host {c : LinkConfig} {bytes : List Byte} {i : Instr} (h : decodeHost bytes = .ok i) :
    decode c (.host bytes) = .ok (i, []) := by
  simp [decode, h, Except.map]

theorem decode_func {c : LinkConfig} {unit : FuncUnit} {bytes : List Byte} {i : Instr}
    (h : decodeFunc unit bytes = .ok i) : decode c (.func unit bytes) = .ok (i, []) := by
  simp [decode, h, Except.map]

/-- Settles O5: row by row; of well-formedness the DATA and RESET rows need their part, of the framing bytes being distinct
the three messages. -/
theorem decodeInvertsEncode : Obligations.DecodeInvertsEncode := by
  intro c i hf hw
  obtain ⟨-, hdrAck, -, cmdHdr, cmdAck⟩ := hf
  cases i with
  | data addr body =>
    obtain ⟨hlen, hbody⟩ := (dataOk_iff c addr body).mp hw
    exact decodeWire_data hdrAck cmdHdr hbody hlen
  | ack => exact decodeWire_ack c []
  | resendAll => exact decodeWire_resendAll cmdAck []
  | publish index value => exact decode_host (decodeHost_publish index value)
  | service now => exact decode_host (decodeHost_service now)
  | poll now => exact decode_host (decodeHost_poll now)
  | read index => exact decode_host rfl
  | take flag clear => exact decode_host ((decodeHost_take _ _).trans (decodeTake_operands flag clear))
  | configure header terminator ackChar hb ackT pktT r =>
    exact decode_host (decodeHost_configure header terminator ackChar hb ackT pktT r)
  | reset peer localA capTx capRx r =>
    obtain ⟨htx, hrx⟩ : capacityOk capTx = true ∧ capacityOk capRx = true := by simpa [Instr.wf] using hw
    exact decode_host (decodeHost_reset peer localA r htx hrx)
  | crc16 bytes => exact decode_func rfl
  | encode addr entries => exact decode_func (decodeFunc_encode addr entries)
  | decode bytes => exact decode_func rfl

/-! ### Words written out by hand -/

/-- A frame that is the encoding of a well-formed instruction at the defaults decodes to it. -/
theorem decode_default_of_encode {f : Frame} {i : Instr} (hw : i.wf LinkConfig.default = true)
    (h : encode LinkConfig.default i = f) : decode LinkConfig.default f = .ok (i, []) :=
  h ▸ decodeInvertsEncode LinkConfig.default i (by decide) hw

/-- Settles O7: each word is the encoding of the instruction it is said to be. -/
theorem sampleWordsDecode : Obligations.SampleWordsDecode := by
  refine ⟨?data, ?ack, ?resendAll, ?publish, ?poll, ?take, ?reset⟩
  case data => exact decode_default_of_encode (by decide) rfl
  case ack => exact decode_default_of_encode rfl rfl
  case resendAll => exact decode_default_of_encode rfl rfl
  case publish => exact decode_default_of_encode rfl rfl
  case poll => exact decode_default_of_encode rfl rfl
  case take => exact decode_default_of_encode rfl rfl
  case reset => exact decode_default_of_encode (by decide) rfl

/-! ### Frames that hold no instruction -/

/-- A pending host frame that does not decode is refused by the decoder's name for it (R59). -/
theorem step_host_error {s : State} {bytes : List Byte} {rest : List Input} {e : DecodeError}
    (h : s.agenda = .frame (.host bytes) :: rest) (hd : decodeHost bytes = .error e) :
    step s = .refused (.notAnOperation e) :=
  step_of_fetch_unreadable (fetch_error h (by simp [decode, hd, Except.map]))

/-- Settles O3: 3 is no flag label, whatever the clear operand. -/
theorem takeWithFlagThreeIsRefused : Obligations.TakeWithFlagThreeIsRefused := by
  intro s rest clear h
  have hflag : decodeFlag 3 = .error (.notAFlag 3) := by decide
  exact step_host_error h ((decodeHost_take 3 clear).trans (decodeTake_notAFlag hflag clear))

/-- A pending wire frame that starts with no message gives up its oldest byte, which arrives and is polled (R55; log 21). -/
theorem step_wire_error {s : State} {b : Byte} {bytes : List Byte} {rest : List Input} {e : DecodeError}
    (h : s.agenda = .frame (.wire (b :: bytes)) :: rest) (hd : decodeWire s.cfg (b :: bytes) = .error e) :
    step s = .next (receiveBytes [b] { s with agenda := leave (.wire (b :: bytes)) bytes rest }) :=
  step_of_fetch_moved (fetch_error h hd)

/-- SeekingHeader discards any byte but the header (R99). -/
theorem rxByte_discarded {s : State} {b : Byte} (now : Time) (hs : s.rxState = .seekingHeader) (hh : b ≠ s.cfg.header) :
    rxByte b now s = s := by
  simp [rxByte, hs, seekHeader, hh]

/-- In SeekingHeader with nothing queued, one byte that is no ACK and no header arrives, is polled and is gone (R97, R99). -/
theorem receiveBytes_stray {s : State} {b : Byte} (hs : s.rxState = .seekingHeader) (hq : s.rxq = [])
    (ha : b ≠ s.cfg.ackChar) (hh : b ≠ s.cfg.header) : receiveBytes [b] s = beginOp s := by
  have hb : (rxArrive [b] s).rxq = [b] := by simp [hq]
  calc receiveBytes [b] s
      = classifyAndConsume s.clock (sampleClock s.clock (beginOp (rxArrive [b] s))) := poll_single hb (.inl hs)
    _ = rxByte b s.clock (rxPop (sampleClock s.clock (beginOp (rxArrive [b] s)))) := classify_byte hb ha (by simp)
    _ = rxPop (sampleClock s.clock (beginOp (rxArrive [b] s))) := rxByte_discarded s.clock hs hh
    _ = beginOp s := by simp [rxPop, sampleClock, beginOp, clearOutputs, rxArrive, hq]

/-- Settles O4: the byte starts no message, so it is polled by itself, and the receive machine discards it. -/
theorem strayWireByteIsDiscarded : Obligations.StrayWireByteIsDiscarded := by
  intro s b rest h hs hq ha hh
  rw [step_wire_error h (decodeWire_stray ha hh (by simp))]
  exact congrArg _ (receiveBytes_stray (s := { s with agenda := rest }) hs hq ha hh)

end Sys2Proof.Machine
end

section
/-! The CRC engine called directly, and single-bit errors in what a checksum covers (40_crc16.md R64, R65, R68; 41_codec.md R79;
log 3). -/

namespace Sys2Proof.Machine

/-! ### CRC16 -/

theorem exec_crc16 (bytes : List Byte) (s : State) : exec (.crc16 bytes) s =
    .next { s with events := [], result := .checksum (crc16 s.cfg.crcTable bytes) } := rfl

/-- The step with the register's high byte written as the spec writes it, `reg[15:8]` (R65). -/
theorem crcStep_eq_shift (table : Vector Value 256) (reg : Value) (b : Byte) : crcStep table reg b =
    (reg <<< (8 : Nat)) ^^^ table[((reg >>> (8 : Nat)).setWidth 8 ^^^ b).toNat] := by
  simp only [crcStep, hiByte_eq_shift]

/-- Settles O25: the function is `crc16`, which starts at `CRC_INIT` and takes one more step for one more byte. -/
theorem crc16FollowsTheTable : Obligations.Crc16FollowsTheTable := by
  refine ⟨crc16, fun s bytes => exec_crc16 bytes s, crc16_nil, fun table bytes b => ?_⟩
  rw [crc16_append_singleton, crcStep_eq_shift]

/-! ### One flipped bit -/

/-- From a zero register a step gives the byte's own table entry. -/
theorem crcStep_zero (t : Vector Value 256) (b : Byte) : crcStep t 0 b = t[b.toNat] := by
  have hindex : hiByte 0 ^^^ b = b := BitVec.zero_xor
  simp only [crcStep, hindex]
  simp

/-- Under R68's condition, flipping one bit of a byte changes the register by a table entry that is not zero. -/
theorem crcStep_flipped_bit {t : Vector Value 256} (ht : DetectsSingleBits t) (r : Value) (b : Byte) {bit : Nat}
    (hbit : bit < 8) : ∃ d : Value, d ≠ 0 ∧ crcStep t r (b ^^^ ((1 : Byte) <<< bit)) = crcStep t r b ^^^ d := by
  have hstep := crcStep_xor ht r 0 b ((1 : Byte) <<< bit)
  rw [show r ^^^ (0 : Value) = r from BitVec.xor_zero, crcStep_zero] at hstep
  obtain ⟨-, hentry, -⟩ := ht
  exact ⟨_, hentry bit hbit, hstep⟩

/-- Under R68's condition, flipping one bit of any byte changes the checksum (R68). -/
theorem crc16_flipped_bit {t : Vector Value 256} (ht : DetectsSingleBits t) {bytes : List Byte} {k bit : Nat}
    (hk : k < bytes.length) (hbit : bit < 8) :
    crc16 t (bytes.modify k fun b => b ^^^ ((1 : Byte) <<< bit)) ≠ crc16 t bytes := by
  obtain ⟨before, b, after, rfl, -, hmodify⟩ :=
    List.exists_of_modify (fun b : Byte => b ^^^ ((1 : Byte) <<< bit)) hk
  obtain ⟨d, hd, hstep⟩ := crcStep_flipped_bit ht (crc16 t before) b hbit
  rw [hmodify, crc16_append, crc16_append, List.foldl_cons, List.foldl_cons, hstep]
  exact crc_difference_survives ht after _ d hd

/-! ### DECODE of a packet with one flipped bit -/

theorem exec_decode (bytes : List Byte) (s : State) : exec (.decode bytes) s =
    .next { s with events := [], result := .decoded (decodePacket s.cfg bytes) } := rfl

/-- A change inside the first list leaves what is behind it. -/
theorem modify_append_of_lt {α : Type} (f : α → α) {l : List α} {k : Nat} (hk : k < l.length) (l' : List α) :
    (l ++ l').modify k f = l.modify k f ++ l' := by
  rw [List.modify_eq_take_cons_drop hk, List.modify_eq_take_cons_drop (by simp; omega)]
  simp [List.take_append_of_le_length hk.le, List.drop_append_of_le_length (Nat.succ_le_of_lt hk),
    List.getElem_append_left hk]

/-- A packet's checksum bytes behind covered bytes of another checksum (R76). -/
theorem decodePacket_of_other_checksum (c : LinkConfig) {covered : List Byte} {v : Value} (h3 : 3 ≤ covered.length)
    (hne : crc16 c.crcTable covered ≠ v) : decodePacket c (covered ++ [hiByte v, loByte v]) = .checksumMismatch := by
  have hv : v.toNat = (hiByte v).toNat * 256 + (loByte v).toNat := (valueBytes_eq_iff v _ _).mp rfl
  rw [decodePacket_append c covered _ _ h3, ← hv, if_neg (mt BitVec.eq_of_toNat_eq hne)]

/-- Settles O32: the flip leaves the checksum bytes alone and changes the checksum of what they cover. -/
theorem singleBitFlipIsDetected : Obligations.SingleBitFlipIsDetected := by
  intro s addr es k bit ht hk hbit
  have hcovered : k < (packetBody s.cfg addr es).length := by simp at hk ⊢; omega
  have h3 : 3 ≤ ((packetBody s.cfg addr es).modify k fun b => b ^^^ ((1 : Byte) <<< bit)).length := by simp
  rw [encodePacket_eq, modify_append_of_lt _ hcovered, exec_decode,
    decodePacket_of_other_checksum s.cfg h3 (crc16_flipped_bit ht hcovered hbit)]

end Sys2Proof.Machine
end

section
/-! ENCODE and DECODE called directly (41_codec.md R71 to R79; log 3). -/

namespace Sys2Proof.Machine

/-! ### ENCODE -/

theorem exec_encode (addr : Byte) (es : List Entry) (s : State) : exec (.encode addr es) s =
    .next { s with events := [], result := .packet (encodePacket s.cfg addr es) } := rfl

/-- An entry's bytes with the value's two bytes written as the spec writes them (R13, R45). -/
theorem entryBytes_eq_shift (e : Entry) :
    entryBytes e = [e.index, (e.value >>> (8 : Nat)).setWidth 8, e.value.setWidth 8] := by
  rw [entryBytes, valueBytes, hiByte_eq_shift, loByte_eq_setWidth]

/-- What a packet's checksum covers, byte by byte (R51, R71). -/
theorem packetBody_eq_shift (c : LinkConfig) (addr : Byte) (es : List Entry) : packetBody c addr es = [c.header, addr] ++
    es.flatMap (fun e : Entry => ([e.index, (e.value >>> (8 : Nat)).setWidth 8, e.value.setWidth 8] : List Byte)) ++
      [c.terminator] := by
  simp only [← entryBytes_eq_shift]
  rfl

/-- Settles O26: the packet is its covered bytes and the two bytes of their checksum. -/
theorem encodeLaysOutThePacket : Obligations.EncodeLaysOutThePacket := by
  intro s addr es
  refine ⟨hiByte (crc16 s.cfg.crcTable (packetBody s.cfg addr es)),
    loByte (crc16 s.cfg.crcTable (packetBody s.cfg addr es)), ?_⟩
  rw [← packetBody_eq_shift]
  exact ⟨exec_encode addr es s, ((valueBytes_eq_iff _ _ _).mp rfl).symm, encodePacket_length s.cfg addr es⟩

/-! ### DECODE -/

/-- Fewer than `MIN_PKT` bytes (R75). -/
theorem decodePacket_of_short (c : LinkConfig) {bytes : List Byte} (h : bytes.length < Config.minPkt) :
    decodePacket c bytes = .tooShort := if_pos h

/-- What a direct DECODE returned says which result DECODE had. -/
theorem exec_decode_eq_iff (bytes : List Byte) (s : State) (r : DecodeResult) :
    exec (.decode bytes) s = .next { s with events := [], result := .decoded r } ↔ decodePacket s.cfg bytes = r := by
  rw [exec_decode]
  simp

/-- DECODE of at least five bytes finds a mismatch exactly when the last two are not the checksum of the rest (R76). -/
theorem decodePacket_eq_mismatch_iff (c : LinkConfig) {covered : List Byte} (c1 c2 : Byte) (h : 3 ≤ covered.length) :
    decodePacket c (covered ++ [c1, c2]) = .checksumMismatch ↔
      (crc16 c.crcTable covered).toNat ≠ c1.toNat * 256 + c2.toNat := by
  rw [decodePacket_append c covered c1 c2 h]
  split
  · next hmatch => simp [hmatch]
  · next hdiffer => simp [hdiffer]

/-- Settles O29: ENCODE returns `encodePacket`, which `decodePacket` inverts. -/
theorem decodeInvertsEncodePacket : Obligations.DecodeInvertsEncodePacket := by
  intro s addr es
  refine ⟨encodePacket s.cfg addr es, exec_encode addr es s, ?_⟩
  rw [exec_decode_eq_iff, decodePacket_encodePacket]

/-- Settles O27: the length check comes first. -/
theorem decodeOfShortBytesIsTooShort : Obligations.DecodeOfShortBytesIsTooShort := by
  intro s bytes h
  rw [exec_decode_eq_iff, decodePacket_of_short s.cfg h]

/-- Settles O28: past the length check only the checksum decides between the two results. -/
theorem decodeChecksTheChecksum : Obligations.DecodeChecksTheChecksum := by
  intro s covered c1 c2 h
  rw [exec_decode_eq_iff, decodePacket_eq_mismatch_iff s.cfg c1 c2 h]

/-- Settles O30: the payload walk stops at what is no whole entry. -/
theorem decodeIgnoresPayloadRemainder : Obligations.DecodeIgnoresPayloadRemainder := by
  intro s h a m c1 c2 es stray hstray hsum
  have hbytes : [h, a] ++ payloadBytes es ++ stray ++ [m] ++ [c1, c2] =
      h :: a :: (payloadBytes es ++ stray ++ [m, c1, c2]) := by simp
  rw [exec_decode_eq_iff, hbytes, decodePacket_stray hstray hsum]

/-- The covered bytes of an encoded packet and its two checksum bytes, wherever the packet is cut two bytes from its end. -/
theorem encodePacket_cut {c : LinkConfig} {addr : Byte} {es : List Entry} {covered : List Byte} {c1 c2 : Byte}
    (h : encodePacket c addr es = covered ++ [c1, c2]) :
    covered = packetBody c addr es ∧ [c1, c2] = valueBytes (crc16 c.crcTable covered) := by
  obtain ⟨hcovered, hsum⟩ := List.append_inj' h rfl
  exact ⟨hcovered.symm, by rw [← hcovered, ← hsum]⟩

/-- Settles O31: a checksum is the big-endian number of one pair of bytes only. -/
theorem changedChecksumBytesAreDetected : Obligations.ChangedChecksumBytesAreDetected := by
  intro s addr es covered c1 c2 d1 d2 hpacket hchanged
  obtain ⟨hcovered, hsum⟩ := encodePacket_cut hpacket
  have h3 : 3 ≤ covered.length := by simp [hcovered]
  rw [exec_decode_eq_iff, decodePacket_eq_mismatch_iff s.cfg d1 d2 h3, ne_eq, ← valueBytes_eq_iff, ← hsum]
  intro hsame
  simp only [List.cons.injEq, and_true] at hsame
  exact hchanged (Prod.ext hsame.1 hsame.2)

end Sys2Proof.Machine
end

section
/-! A packet for this endpoint with a matching checksum, its entries walked and the bytes after it read on (41_codec.md R77;
43_receive.md R99 to R107). -/

namespace Sys2Proof.Machine

/-- The bytes behind the address of a packet: entries, stray bytes, terminator and two checksum bytes (R45, R77). -/
def packetTail (c : LinkConfig) (es : List Entry) (stray : List Byte) (c1 c2 : Byte) : List Byte :=
  payloadBytes es ++ stray ++ [c.terminator, c1, c2]

/-- An endpoint in SeekingHeader takes a packet of these entries and stray bytes whole, and its checksum matches (R54, R76,
R102). -/
structure TakesPacket (s : State) (es : List Entry) (stray : List Byte) (c1 c2 : Byte) : Prop where
  framing : FramingDistinct s.cfg
  addresses : AddressesDistinct s.cfg
  seeking : s.rxState = .seekingHeader
  fewStray : stray.length < 3
  noTerminator : s.cfg.terminator ∉ payloadBytes es ++ stray
  fits : 5 + 3 * es.length + stray.length ≤ s.cfg.rxBufCap
  checksum : (crc16 s.cfg.crcTable
    ([s.cfg.header, s.cfg.localAddr] ++ payloadBytes es ++ stray ++ [s.cfg.terminator])).toNat = c1.toNat * 256 + c2.toNat

section Walk

variable {s : State} {es : List Entry} {stray : List Byte} {c1 c2 : Byte} (h : TakesPacket s es stray c1 c2)
  (now : Time) (more : List Byte)
include h

/-- A POLL whose queue begins with the packet walks the entries and goes on from what the walk leaves (R104 to R107). -/
theorem TakesPacket.poll_walk {t : State}
    (ht : dropPartial (applyEntries es es (packetHeld now (packetTail s.cfg es stray c1 c2) more s)) = t) :
    poll now { s with rxq := s.cfg.header :: s.cfg.localAddr :: packetTail s.cfg es stray c1 c2 ++ more } =
      withEarlier t.events (poll now t) := by
  subst ht
  have hfits : 5 + (payloadBytes es ++ stray).length ≤ s.cfg.rxBufCap := by
    have := h.fits
    simp only [List.length_append, payloadBytes_length]
    omega
  exact poll_good_then (s := { s with rxq := s.cfg.header :: s.cfg.localAddr :: packetTail s.cfg es stray c1 c2 ++ more })
    h.framing h.addresses h.seeking rfl h.fewStray h.noTerminator hfits h.checksum

/-- Every index in range: all entries are applied and acknowledged (R105, R106). -/
theorem TakesPacket.poll_applied (hin : ∀ e ∈ es, e.index.toNat < s.capRx) :
    poll now { s with rxq := s.cfg.header :: s.cfg.localAddr :: packetTail s.cfg es stray c1 c2 ++ more } =
      withEarlier [.applied es, .ackSent] (poll now { s with
        rxq := more, rxTable := applyAll s.rxTable es, newDataAvailable := true, wire := s.wire ++ [s.cfg.ackChar]
        rxbuf := [], rxHdrTime := now }) := by
  rw [h.poll_walk now more (congrArg dropPartial (applyEntries_good es es _ hin))]
  refine congrArg (withEarlier _) (poll_congr ?_)
  simp [packetHeld, sampleClock, beginOp, clearOutputs, success, emit, wireWrite, dropPartial, h.seeking]

end Walk

/-- The first index out of range: the entries before it stay applied and the fault is raised (R105, R135, R139). -/
theorem TakesPacket.poll_unknownIndex {s : State} {good later : List Entry} {bad : Entry} {stray : List Byte} {c1 c2 : Byte}
    (h : TakesPacket s (good ++ bad :: later) stray c1 c2) (now : Time) (more : List Byte)
    (hin : ∀ e ∈ good, e.index.toNat < s.capRx) (hout : s.capRx ≤ bad.index.toNat) :
    poll now { s with
      rxq := s.cfg.header :: s.cfg.localAddr :: packetTail s.cfg (good ++ bad :: later) stray c1 c2 ++ more } =
      withEarlier [.fault .unknownIndex, .resendAllSent] (poll now { s with
        rxq := more, rxTable := applyAll s.rxTable good, readError := true, wire := s.wire ++ [0xFE, 0xED]
        rxbuf := [], rxHdrTime := now }) := by
  rw [h.poll_walk now more (congrArg dropPartial (applyEntries_bad _ good later bad _ hin hout))]
  refine congrArg (withEarlier _) (poll_congr ?_)
  simp [packetHeld, sampleClock, beginOp, clearOutputs, receiveFault, sendResendAll, emit, wireWrite, dropPartial, cmdHi_eq,
    cmdLo_eq, h.seeking]

/-- A DATA instruction with nothing queued is the POLL of its bytes, where that POLL ends in SeekingHeader with nothing
left (R97; log 4). -/
theorem exec_data_of_poll {s t : State} {addr : Byte} {body : List Byte} {earlier : List Event} (hq : s.rxq = [])
    (hpoll : poll s.clock { s with rxq := s.cfg.header :: addr :: body ++ s.rxq } =
      withEarlier earlier (poll s.clock t))
    (htq : t.rxq = []) (hts : t.rxState = .seekingHeader) : exec (.data addr body) s =
      .next { t with started := true, events := earlier, result := .nothing, clock := s.clock } := by
  have hqueue : s.rxq ++ (s.cfg.header :: addr :: body) = s.cfg.header :: addr :: body ++ s.rxq := by simp [hq]
  rw [exec_data, next_receiveBytes_eq_exec_poll, hqueue, exec_poll, hpoll, poll_of_nothing htq (.inl hts), withEarlier,
    List.append_nil]

/-- Settles O52: the POLL walks all entries and goes on; the DATA instruction is that POLL with nothing behind the packet. -/
theorem conformingPacketIsApplied : Obligations.ConformingPacketIsApplied := by
  rintro s es stray body c1 c2 hframing haddresses hs hstray hterm hin hfits rfl hsum
  have h : TakesPacket s es stray c1 c2 := ⟨hframing, haddresses, hs, hstray, hterm, hfits, hsum⟩
  refine ⟨fun hq => ?data, fun now more => ?poll⟩
  case data => exact exec_data_of_poll hq (h.poll_applied s.clock s.rxq hin) hq hs
  case poll => exact congrArg _ (h.poll_applied now more hin)

/-- Settles O53: the POLL stops the walk at the bad entry and goes on; the DATA instruction is that POLL with nothing behind the
packet. -/
theorem unknownIndexAppliesTheEarlierEntries : Obligations.UnknownIndexAppliesTheEarlierEntries := by
  rintro s good bad later stray body c1 c2 hframing haddresses hs hstray hterm hin hout hfits rfl hsum
  have h : TakesPacket s (good ++ bad :: later) stray c1 c2 := ⟨hframing, haddresses, hs, hstray, hterm, hfits, hsum⟩
  refine ⟨fun hq => ?data, fun now more => ?poll⟩
  case data => exact exec_data_of_poll hq (h.poll_unknownIndex s.clock s.rxq hin hout) hq hs
  case poll => exact congrArg _ (h.poll_unknownIndex now more hin hout)

end Sys2Proof.Machine
end

section
/-! SERVICE state by state (42_transmit.md R80 to R94): the next state of each action, written out once. -/

namespace Sys2Proof.Machine

section Actions

variable {now : Time} {s : State}

/-! ### Idle: the scan (R81 to R84) -/

theorem idleTick_of_none_due (hd : dueIndices now s = []) : idleTick now s = s := by
  have hnone : (selectSlots now s).1 = [] := selectSlots_eq_nil_iff.mpr (by rw [chosenIndices, hd, List.take_nil])
  exact if_pos hnone

theorem idleTick_of_due (hd : dueIndices now s ≠ []) (hcap : 8 ≤ s.cfg.txBufCap) :
    idleTick now s = buildPacket (entriesAt s (chosenIndices now s)) (selectSlots now s).2 s := by
  have hsome : (selectSlots now s).1 ≠ [] := mt selectSlots_eq_nil_iff.mp (mt (chosenIndices_eq_nil_iff hcap).mp hd)
  exact (if_neg hsome).trans (by rw [selectSlots_entries])

/-- A SERVICE that builds: the chosen slots stand in `txbuf` as one packet, and no byte is written (R83, R84). -/
theorem service_builds (hs : s.txState = .idle) (hd : dueIndices now s ≠ []) (hcap : 8 ≤ s.cfg.txBufCap) :
    service now s = { s with
      started := true, result := .nothing, clock := now, txTable := (selectSlots now s).2
      events := [.built (entriesAt s (chosenIndices now s))]
      txbuf := encodePacket s.cfg s.cfg.peerAddr (entriesAt s (chosenIndices now s)), txPos := 0, txState := .sending } :=
  (service_idle hs).trans (idleTick_of_due (s := sampleClock now (beginOp s)) hd hcap)

/-! ### Sending: one byte (R85 to R87) -/

theorem sendingTick_eq (now : Time) (s : State) : sendingTick now s = { s with
    wire := s.wire ++ [nextTxByte s], txPos := s.txPos + 1
    txStartTime := if s.txPos = 0 then now else s.txStartTime
    txState := if s.txPos + 1 = s.txLen then .awaitingAck else s.txState } := by
  unfold sendingTick
  by_cases hfirst : s.txPos = 0
  · by_cases hlast : s.txPos + 1 = s.txLen
    · simp only [if_pos hfirst, if_pos hlast]; rfl
    · simp only [if_pos hfirst, if_neg hlast]; rfl
  · by_cases hlast : s.txPos + 1 = s.txLen
    · simp only [if_neg hfirst, if_pos hlast]; rfl
    · simp only [if_neg hfirst, if_neg hlast]; rfl

/-- A SERVICE that sends the byte at `tx_pos` (R85): the first stamps the start time (R86), the last ends Sending (R87). -/
theorem service_sends {b : Byte} (hs : s.txState = .sending) (hb : s.txbuf[s.txPos]? = some b) :
    service now s = { s with
      started := true, events := [], result := .nothing, clock := now, wire := s.wire ++ [b], txPos := s.txPos + 1
      txStartTime := if s.txPos = 0 then now else s.txStartTime
      txState := if s.txPos + 1 = s.txLen then .awaitingAck else .sending } := by
  have hnext : nextTxByte (sampleClock now (beginOp s)) = b := by simp [nextTxByte, hb]
  rw [service_sending hs, sendingTick_eq, hnext, ← hs]
  rfl

/-! ### AwaitingAck: the deadline (R88 to R92) -/

theorem awaitingTick_within (ht : elapsed now s.txStartTime ≤ s.cfg.ackTimeout) : awaitingTick now s = s :=
  if_neg (BitVec.not_lt.mpr ht)

theorem awaitingTick_past (ht : s.cfg.ackTimeout < elapsed now s.txStartTime) :
    awaitingTick now s = acknowledgmentTimeout s :=
  if_pos ht

theorem acknowledgmentTimeout_eq (s : State) : acknowledgmentTimeout s = { s with
    events := s.events ++ [.fault .acknowledgmentTimeout], transmissionError := true
    txPos := if s.cfg.retransmit then 0 else s.txPos, txState := if s.cfg.retransmit then .sending else .idle } := by
  unfold acknowledgmentTimeout
  cases s.cfg.retransmit <;> rfl

end Actions

/-! ### The statements of one SERVICE -/

/-- Settles O33: the scan selects nothing, and only the first lines of the operation act. -/
theorem serviceIdleWithNothingDue : Obligations.ServiceIdleWithNothingDue := by
  intro s now hs hd
  rw [exec_service, service_idle hs, idleTick_of_none_due (s := sampleClock now (beginOp s)) hd]
  rfl

/-- Settles O34: the scan stamps the chosen slots and no other, and its entries are theirs. -/
theorem serviceBuildsTheDueSlots : Obligations.ServiceBuildsTheDueSlots := by
  intro s now hs hd hcap
  rw [exec_service, service_builds hs hd hcap]
  refine ⟨_, rfl, fun i hi => ?chosen, fun i hi => ?other, selectSlots_length now s, rfl⟩
  case chosen => exact (selectSlots_table now s i).trans (if_pos hi)
  case other => exact (selectSlots_table now s i).trans (if_neg hi)

/-- Settles O35: the byte SERVICE sends is the one at `tx_pos`. -/
theorem serviceSendsOneByte : Obligations.ServiceSendsOneByte := by
  intro s now b hs hb
  rw [exec_service, service_sends hs hb]

/-- Settles O37: the deadline is strict, so at it nothing happens yet. -/
theorem serviceWaitsWithinTheDeadline : Obligations.ServiceWaitsWithinTheDeadline := by
  intro s now hs ht
  rw [exec_service, service_awaitingAck hs, awaitingTick_within (s := sampleClock now (beginOp s)) ht]
  rfl

/-- Settles O38: the fault action, by RETRANSMIT, from the state after the first lines. -/
theorem acknowledgmentTimeoutRetriesOrDrops : Obligations.AcknowledgmentTimeoutRetriesOrDrops := by
  intro s now hs ht
  rw [exec_service, service_awaitingAck hs, awaitingTick_past (s := sampleClock now (beginOp s)) ht,
    acknowledgmentTimeout_eq]
  rfl

/-- Settles O39: by the frame of SERVICE. -/
theorem serviceTouchesOnlyTheTransmitSide : Obligations.ServiceTouchesOnlyTheTransmitSide := by
  intro s now
  have f := service_frame now s
  exact ⟨_, exec_service now s, f.rxTable, f.rxState, f.rxbuf, f.rxHdrTime, f.readError, f.newDataAvailable, f.rxq, f.cfg,
    f.values, f.wire⟩

end Sys2Proof.Machine
end

section
/-! The transmit state over any instruction (42_transmit.md R94), and over the SERVICEs that send a whole packet (R84 to
R87). -/

namespace Sys2Proof.Machine

/-- The SERVICE rows of the transition table (R94). -/
def ServiceTransition (now : Time) (s t : State) : Prop :=
  (s.txState = .idle ∧ dueIndices now s ≠ [] ∧ t.txState = .sending) ∨
  (s.txState = .sending ∧ s.txPos + 1 = s.txLen ∧ t.txState = .awaitingAck) ∨
  (s.txState = .awaitingAck ∧ s.cfg.ackTimeout < elapsed now s.txStartTime ∧
    t.txState = if s.cfg.retransmit then .sending else .idle)

theorem Effect.txState {s t : State} {i : Instr} (e : Effect s i t) : t.txState = s.txState ∨
    (∃ now, i = .service now ∧ ServiceTransition now s t) ∨
    (PollsBytes i ∧ s.txState = .awaitingAck ∧ t.txState = .idle ∧ .ackReceived ∈ t.events) ∨
    IsReset i ∧ t.txState = .idle := by
  cases e with
  | polled hi now bytes =>
    rcases (poll_frame now (rxArrive bytes s)).txState with same | ⟨hs, ht, hack⟩
    · exact .inl same
    · exact .inr (.inr (.inl ⟨hi, hs, ht, hack⟩))
  | served now =>
    by_cases hsame : (service now s).txState = s.txState
    · exact .inl hsame
    · exact .inr (.inl ⟨now, rfl, serviceAction_txState now (sampleClock now (beginOp s)) hsame⟩)
  | wasReset p q m n r => exact .inr (.inr (.inr ⟨isReset p q m n r, rfl⟩))
  | tookAndCleared => exact .inl (by simp)
  | published | notPublished | readSlot | took | configureRejected | configured | returned => exact .inl rfl

/-- Settles O13: only a SERVICE, a POLL that takes an ACK, and RESET write `tx_state`. -/
theorem transmitStateChangesAsTabulated : Obligations.TransmitStateChangesAsTabulated := by
  intro i s t h hne
  rcases (effect_of_exec h).txState.resolve_left hne with ⟨now, rfl, row⟩ | ⟨hi, hs, ht, hack⟩ | ⟨hi, ht⟩
  · rcases row with ⟨hs, hd, ht⟩ | ⟨hs, hlast, ht⟩ | ⟨hs, hpast, ht⟩
    · exact .inl ⟨hs, ⟨now, rfl, hd⟩, ht⟩
    · exact .inr (.inl ⟨hs, ⟨now, rfl⟩, hlast, ht⟩)
    · exact .inr (.inr (.inl ⟨hs, ⟨now, rfl, hpast⟩, ht⟩))
  · exact .inr (.inr (.inr (.inl ⟨hs, hi, hack, ht⟩)))
  · exact .inr (.inr (.inr (.inr ⟨hi, ht⟩)))

theorem runAll_service_cons (now : Time) (rest : List Instr) (s : State) :
    runAll (.service now :: rest) s = runAll rest (service now s) := rfl

/-- From any position, as many SERVICEs as bytes are left send exactly those bytes (R85 to R87). -/
theorem runAll_sending (first : Time) (later : List Time) {s : State} (hs : s.txState = .sending)
    (hleft : s.txPos + (later.length + 1) = s.txLen) :
    runAll ((first :: later).map .service) s = .next { s with
      started := true, events := [], result := .nothing, clock := later.getLastD first
      wire := s.wire ++ s.txbuf.drop s.txPos, txPos := s.txLen
      txStartTime := if s.txPos = 0 then first else s.txStartTime, txState := .awaitingAck } := by
  induction later generalizing first s with
  | nil =>
    have hlast : s.txPos + 1 = s.txLen := hleft
    have hpos : s.txPos < s.txbuf.length := by rw [State.txLen] at hlast; omega
    have hend : s.txbuf.drop (s.txPos + 1) = [] := List.drop_eq_nil_of_le (Nat.le_of_eq hlast.symm)
    rw [List.map_cons, runAll_service_cons, service_sends hs (List.getElem?_eq_getElem hpos), if_pos hlast, hlast,
      List.drop_eq_getElem_cons hpos, hend]
    rfl
  | cons next later ih =>
    have hmore : s.txPos + 1 + (later.length + 1) = s.txLen := by rw [← hleft, List.length_cons]; omega
    have hlast : s.txPos + 1 ≠ s.txLen := by omega
    have hpos : s.txPos < s.txbuf.length := by rw [State.txLen] at hmore; omega
    rw [List.map_cons, runAll_service_cons, service_sends hs (List.getElem?_eq_getElem hpos), if_neg hlast,
      ih next rfl hmore, List.drop_eq_getElem_cons hpos]
    simp [State.txLen, List.getLast?_cons]

/-- Settles O36: all bytes of the buffer are left at position 0. -/
theorem sendingTakesOneServicePerByte : Obligations.SendingTakesOneServicePerByte := by
  intro s first later hs hpos hlen
  refine ⟨_, runAll_sending first later hs (by omega), ?wire, rfl, rfl, if_pos hpos, rfl, rfl, rfl, rfl, rfl, rfl, rfl, rfl,
    rfl, rfl, rfl⟩
  case wire => simp [hpos]

end Sys2Proof.Machine
end

section
/-! The control messages alone in the queue (44_control_channel.md): an ACK ends the wait (R116), and a RESEND_ALL has the next
SERVICE build every slot (R118, R119). -/

namespace Sys2Proof.Machine

/-! ### A POLL of one message and nothing behind it -/

section Alone

variable {now : Time} {s : State}

theorem poll_ack_alone (hq : s.rxq = [s.cfg.ackChar]) (hs : s.rxState ≠ .accumulating) (hn : NotStale now s) :
    poll now s = { s with
      started := true, events := [.ackReceived], result := .nothing, clock := now, rxq := []
      txState := if s.txState = .awaitingAck then .idle else s.txState } := by
  rw [poll_ack_then hq hs hn, poll_of_nothing rfl]
  · rfl
  · exact hn

theorem poll_command_alone (hq : s.rxq = [cmdHi, cmdLo]) (ha : cmdHi ≠ s.cfg.ackChar) (hs : s.rxState ≠ .accumulating)
    (hn : NotStale now s) : poll now s = { s with
      started := true, events := [.resendAllReceived], result := .nothing, clock := now, rxq := []
      txTable := s.txTable.map fun slot => { slot with dirty := true } } := by
  rw [poll_command_then hq ha hs hn, poll_of_nothing rfl]
  · rfl
  · exact hn

end Alone

/-- Settles O49: the POLL takes the ACK and goes on; the ACK instruction is that POLL with nothing behind the byte. -/
theorem ackMessageEndsTheWait : Obligations.AckMessageEndsTheWait := by
  intro s hs
  refine ⟨fun hq hn => ?alone, fun now more hn => ?followed⟩
  case alone =>
    rw [exec_ack, receiveBytes, poll_ack_alone (s := rxArrive [s.cfg.ackChar] s) (by simp [hq]) hs hn]
    simp [rxArrive, hq]
  case followed =>
    rw [exec_poll, poll_ack_then (s := { s with rxq := s.cfg.ackChar :: more }) rfl hs hn]
    rfl

/-! ### What a SERVICE builds when every slot is dirty -/

section AllDirty

variable {now : Time} {s : State} (hdirty : ∀ slot ∈ s.txTable, slot.dirty = true)
include hdirty

theorem dueIndices_of_all_dirty : dueIndices now s = List.range s.capTx := by
  rw [dueIndices_eq, List.filter_eq_self]
  intro i hi
  have hlt : i < s.txTable.length := List.mem_range.mp hi
  simp [dueAt, hlt, hdirty _ (List.getElem_mem hlt)]

theorem chosenIndices_of_all_dirty (hfits : s.capTx ≤ s.cfg.maxEntries) : chosenIndices now s = List.range s.capTx := by
  rw [chosenIndices, dueIndices_of_all_dirty hdirty, List.take_of_length_le (by simpa using hfits)]

/-- A table that fits one packet is built whole, in ascending order (R82, R119). -/
theorem service_builds_every_slot (hs : s.txState = .idle) (hpos : 1 ≤ s.capTx) (hfits : s.capTx ≤ s.cfg.maxEntries) :
    service now s = { s with
      started := true, result := .nothing, clock := now, txTable := (selectSlots now s).2
      events := [.built (entriesAt s (List.range s.capTx))]
      txbuf := encodePacket s.cfg s.cfg.peerAddr (entriesAt s (List.range s.capTx)), txPos := 0, txState := .sending } := by
  have hcap : 8 ≤ s.cfg.txBufCap := by unfold LinkConfig.maxEntries at hfits; omega
  have hdue : dueIndices now s ≠ [] := by
    rw [dueIndices_of_all_dirty hdirty]
    simpa using Nat.ne_of_gt hpos
  rw [service_builds hs hdue hcap, chosenIndices_of_all_dirty hdirty hfits]

end AllDirty

theorem entryAt_eq (table : List TxSlot) (i : Nat) :
    entryAt table i = ((table.map TxSlot.value)[i]?).map fun value => ⟨BitVec.ofNat 8 i, value⟩ := by
  rw [entryAt, List.getElem?_map, Option.map_map]
  rfl

/-- The entries of some slots depend on the values of the table only. -/
theorem entriesAt_congr {s t : State} (h : t.txTable.map TxSlot.value = s.txTable.map TxSlot.value) (is : List Nat) :
    entriesAt t is = entriesAt s is := by
  rw [entriesAt_eq, entriesAt_eq]
  congr 1
  funext i
  rw [entryAt_eq, entryAt_eq, h]

/-- Settles O51: the command sets every dirty flag and leaves the values, so the SERVICE builds all slots with the values they
had. -/
theorem resendAllRebuildsTheWholeTable : Obligations.ResendAllRebuildsTheWholeTable := by
  intro s now hq hs hn ha hidle hpos hfits
  have hpoll := poll_command_alone (s := rxArrive [cmdHi, cmdLo] s) (by simp [hq]) ha hs hn
  refine ⟨poll s.clock (rxArrive [cmdHi, cmdLo] s), _, rfl, exec_service _ _, ?_⟩
  generalize poll s.clock (rxArrive [cmdHi, cmdLo] s) = t at hpoll
  have hdirty : ∀ slot ∈ t.txTable, slot.dirty = true := by simp [hpoll]
  have hvalues : t.txTable.map TxSlot.value = s.txTable.map TxSlot.value := by simp [hpoll, Function.comp_def]
  have hcapTx : t.capTx = s.capTx := by simp [hpoll, State.capTx]
  have hcfg : t.cfg = s.cfg := by rw [hpoll]; rfl
  have hstate : t.txState = .idle := by rw [hpoll]; exact hidle
  rw [service_builds_every_slot hdirty hstate (by rwa [hcapTx]) (by rwa [hcapTx, hcfg]), hcapTx, hcfg,
    entriesAt_congr hvalues]
  exact ⟨rfl, rfl, rfl, rfl⟩

end Sys2Proof.Machine
end

section
/-! A packet from one endpoint of a conforming pair to the other, and its ACK back (60_exceptions.md R150; 42_transmit.md R83 to
R89; 43_receive.md R106). -/

namespace Sys2Proof.Machine

/-- ENCODE reads three registers of the configuration (R71). -/
theorem encodePacket_congr {c d : LinkConfig} (hh : c.header = d.header) (ht : c.terminator = d.terminator)
    (hcrc : c.crcTable = d.crcTable) (addr : Byte) (es : List Entry) : encodePacket c addr es = encodePacket d addr es := by
  simp only [encodePacket, packetBody, hh, ht, hcrc]

/-- In a table of up to 256 slots an entry's index byte is the slot's index (R45). -/
theorem index_lt_of_mem_entriesAt {s : State} (h256 : s.capTx ≤ 256) {is : List Nat} (hi : ∀ i ∈ is, i < s.capTx)
    {e : Entry} (he : e ∈ entriesAt s is) : e.index.toNat < s.capTx := by
  obtain ⟨i, him, hie⟩ := List.mem_filterMap.mp he
  obtain ⟨slot, -, rfl⟩ := Option.map_eq_some_iff.mp hie
  have hlt := hi i him
  show (BitVec.ofNat 8 i).toNat < s.capTx
  rw [BitVec.toNat_ofNat, Nat.mod_eq_of_lt (by omega)]
  exact hlt

/-- The packet a SERVICE of `a` at this time builds. -/
def builtPacket (now : Time) (a : State) : List Byte :=
  encodePacket a.cfg a.cfg.peerAddr (entriesAt a (chosenIndices now a))

theorem entriesAt_chosenIndices_length (now : Time) (s : State) :
    (entriesAt s (chosenIndices now s)).length = (chosenIndices now s).length :=
  entriesAt_length fun _ => mem_chosenIndices_lt

theorem builtPacket_length (now : Time) (a : State) :
    (builtPacket now a).length = 5 + 3 * (chosenIndices now a).length := by
  rw [builtPacket, encodePacket_length, entriesAt_chosenIndices_length]

/-- The receiver `b` after it polled that packet: every entry applied, and the ACK written (R105, R106, R115). -/
def appliedPacket (now later : Time) (a b : State) : State :=
  { b with
    started := true, events := [.applied (entriesAt a (chosenIndices now a)), .ackSent], result := .nothing, clock := later
    rxTable := applyAll b.rxTable (entriesAt a (chosenIndices now a)), newDataAvailable := true
    wire := b.wire ++ [b.cfg.ackChar], rxq := [], rxbuf := [], rxHdrTime := later }

/-- The sender `a` after it sent the whole packet: the packet on `wire`, waiting for the ACK (R83 to R87). -/
def sentPacket (now first last : Time) (a : State) : State :=
  { a with
    started := true, events := [], result := .nothing, clock := last, txTable := (selectSlots now a).2
    wire := a.wire ++ builtPacket now a, txbuf := builtPacket now a, txPos := (builtPacket now a).length
    txStartTime := first, txState := .awaitingAck }

/-- That sender after it polled the ACK: Idle again (R89, R116). -/
def acknowledgedSender (now first last back : Time) (a : State) : State :=
  { sentPacket now first last a with events := [.ackReceived], clock := back, rxq := [], txState := .idle }

section Crossing

variable {a b : State} {now : Time} (hpair : ConformingPair a b) (h256 : a.capTx ≤ 256)
include hpair h256

theorem poll_builtPacket (later : Time) (hframing : FramingDistinct b.cfg) (haddresses : AddressesDistinct b.cfg)
    (hterm : b.cfg.terminator ∉ payloadBytes (entriesAt a (chosenIndices now a))) (hs : b.rxState = .seekingHeader) :
    poll later { b with rxq := builtPacket now a } = appliedPacket now later a b := by
  obtain ⟨haddr, -, hheader, hterminator, -, hcrc, hcap, -, hroom, -⟩ := hpair
  have hfits : 5 + 3 * (entriesAt a (chosenIndices now a)).length ≤ b.cfg.rxBufCap := by
    have := chosenIndices_length_le now a
    rw [entriesAt_chosenIndices_length]
    omega
  have hin : ∀ e ∈ entriesAt a (chosenIndices now a), e.index.toNat < b.capRx := fun e he =>
    Nat.lt_of_lt_of_le (index_lt_of_mem_entriesAt h256 (fun _ => mem_chosenIndices_lt) he) hcap
  obtain ⟨c1, c2, hbytes, hsum⟩ := encodePacket_body b.cfg (entriesAt a (chosenIndices now a))
  have htakes : TakesPacket b (entriesAt a (chosenIndices now a)) [] c1 c2 :=
    ⟨hframing, haddresses, hs, by simp, by simpa using hterm, hfits, hsum⟩
  have hq : builtPacket now a =
      b.cfg.header :: b.cfg.localAddr :: packetTail b.cfg (entriesAt a (chosenIndices now a)) [] c1 c2 ++ [] := by
    rw [builtPacket, haddr, encodePacket_congr hheader hterminator hcrc, hbytes]
    exact (List.append_nil _).symm
  rw [hq, htakes.poll_applied later [] hin, poll_of_nothing rfl]
  · rfl
  · exact .inl hs

/-- The chosen slots are mirrored, and no other (R46, R105). -/
theorem appliedPacket_rxTable (later : Time) :
    (∀ i ∈ chosenIndices now a, (appliedPacket now later a b).rxTable[i]? = (a.txTable[i]?).map TxSlot.value) ∧
    ∀ i, i ∉ chosenIndices now a → (appliedPacket now later a b).rxTable[i]? = b.rxTable[i]? := by
  obtain ⟨-, -, -, -, -, -, hcap, -, -, -⟩ := hpair
  exact applyAll_entries a h256 _ (chosenIndices_nodup now a) b.rxTable (fun _ => mem_chosenIndices_lt) hcap

end Crossing

/-- Settles O58: `txbuf` holds the packet, and the other end's POLL of it applies exactly the chosen slots. -/
theorem peerAppliesWhatIsBuilt : Obligations.PeerAppliesWhatIsBuilt := by
  intro a b now later hpair hinv hframing haddresses hidle hdue hterm hs _
  obtain ⟨-, -, -, h256, -, -, hcap, -, -⟩ := hinv
  have hbuilt : (service now a).txbuf = builtPacket now a := by rw [service_builds hidle hdue hcap]; rfl
  obtain ⟨hmirrored, hother⟩ := appliedPacket_rxTable (now := now) hpair h256 later
  refine ⟨_, appliedPacket now later a b, exec_service now a, ?_, hmirrored, hother, rfl, rfl, rfl⟩
  rw [exec_poll, hbuilt, poll_builtPacket hpair h256 later hframing haddresses hterm hs]

/-- A SERVICE that builds and then one for each byte of the packet (R83 to R87). -/
theorem runAll_build_and_send {a : State} {now : Time} {sends : List Time} (hidle : a.txState = .idle)
    (hdue : dueIndices now a ≠ []) (hcap : 8 ≤ a.cfg.txBufCap)
    (hsends : sends.length = 5 + 3 * (chosenIndices now a).length) :
    ∃ first last, runAll (.service now :: sends.map .service) a = .next (sentPacket now first last a) := by
  cases sends with
  | nil => rw [List.length_nil] at hsends; omega
  | cons first later =>
    rw [runAll_service_cons, service_builds hidle hdue hcap,
      runAll_sending first later rfl (by rw [State.txLen, ← builtPacket, builtPacket_length, ← hsends]; simp)]
    exact ⟨first, _, rfl⟩

theorem poll_ack_sentPacket (now first last back : Time) {a : State} (hs : a.rxState = .seekingHeader) :
    poll back { sentPacket now first last a with rxq := [a.cfg.ackChar] } = acknowledgedSender now first last back a := by
  have hseek : (sentPacket now first last a).rxState ≠ .accumulating := by simp [sentPacket, hs]
  rw [poll_ack_alone rfl]
  · rfl
  · exact hseek
  · exact .inl hs

/-- A chosen slot is clean from the moment it is selected (R83). -/
theorem selectSlots_dirty {now : Time} {s : State} {i : Nat} (hi : i ∈ chosenIndices now s) :
    ((selectSlots now s).2[i]?).map TxSlot.dirty = some false := by
  have hlt : i < s.txTable.length := mem_chosenIndices_lt hi
  rw [selectSlots_table, if_pos hi, List.getElem?_eq_getElem hlt]
  rfl

/-- Settles O59: the run puts the packet on `wire`, the peer's POLL of it mirrors the chosen slots and answers with the ACK,
and the sender's POLL of that ends its wait. -/
theorem packetAndAckCrossThePerfectLink : Obligations.PacketAndAckCrossThePerfectLink := by
  intro a b now polled back sends hpair hinv hframing haddresses hidle hdue hawire _ haseek hterm hs _ hbwire hsends
  obtain ⟨-, -, -, h256, -, -, hcap, -, -⟩ := hinv
  obtain ⟨first, last, hrun⟩ := runAll_build_and_send hidle hdue hcap hsends
  have hout : (sentPacket now first last a).wire = builtPacket now a := by rw [sentPacket, hawire]; rfl
  have hanswer : (appliedPacket now polled a b).wire = [a.cfg.ackChar] := by
    obtain ⟨-, -, -, -, hack, -⟩ := hpair
    rw [appliedPacket, hbwire, hack]
    rfl
  refine ⟨_, appliedPacket now polled a b, acknowledgedSender now first last back a, hrun, ?delivered, ?answered,
    fun i hi => ⟨?mirrored, selectSlots_dirty hi⟩, rfl, rfl, rfl, rfl⟩
  case delivered => rw [hout, exec_poll, poll_builtPacket hpair h256 polled hframing haddresses hterm hs]
  case answered => rw [hanswer, exec_poll, poll_ack_sentPacket now first last back haseek]
  case mirrored => exact (appliedPacket_rxTable hpair h256 polled).1 i hi

end Sys2Proof.Machine
end

section
/-! The receive side of a POLL (43_receive.md R95 to R110): what it leaves alone, and what the bytes at the front of its queue
make it go on with; with nothing behind them the POLL is over. -/

namespace Sys2Proof.Machine

/-- A POLL consumes every byte (R95). -/
theorem poll_rxq (now : Time) (s : State) : (poll now s).rxq = [] := drain_rxq now _ _ (Nat.le_refl _)

/-- A POLL clears no dirty flag and sets all of them exactly with ResendAllReceived (R95, R118). -/
theorem poll_dirty (now : Time) (s : State) : (poll now s).txTable.map TxSlot.dirty =
    s.txTable.map fun slot => slot.dirty || decide (Event.resendAllReceived ∈ (poll now s).events) := by
  rw [(poll_caused now s).txTable]
  split
  case isTrue hmem => simp [hmem, Function.comp_def]
  case isFalse hmem => simp [hmem]

/-- Settles O40: the frame of a POLL, with the causes its events name for the dirty flags. -/
theorem pollDrainsAndSparesTheTransmitSide : Obligations.PollDrainsAndSparesTheTransmitSide := by
  intro s now
  have frame := poll_frame now s
  exact ⟨poll now s, rfl, poll_rxq now s, frame.txbuf, frame.txPos, frame.txStartTime, frame.transmissionError, frame.cfg,
    frame.started, frame.values, frame.times, poll_dirty now s, frame.capRx, frame.wire⟩

/-- Settles O42: with an empty queue and nothing stale a POLL is its first lines. -/
theorem pollWithNothingToDo : Obligations.PollWithNothingToDo :=
  fun _ _ hn hq => congrArg _ (poll_of_nothing hq hn)

/-! ### Bytes that are discarded, matched or appended -/

section Queue

variable {now : Time} {s t : State} {b : Byte} {more : List Byte}

/-- A POLL that goes on, after these events, from a state with nothing left to read is over there. -/
theorem poll_over {earlier : List Event} (hgoes : poll now s = withEarlier earlier (poll now t)) (hq : t.rxq = [])
    (hn : NotStale now t) :
    poll now s = { t with started := true, events := earlier, result := .nothing, clock := now } := by
  rw [hgoes, poll_of_nothing hq hn, withEarlier, List.append_nil]

/-- Noise in SeekingHeader is discarded, whatever its length, and a POLL goes on with the bytes after it (R99, R107). -/
theorem poll_noise_then {noise : List Byte} (hs : s.rxState = .seekingHeader) (hq : s.rxq = noise ++ more)
    (hack : s.cfg.ackChar ∉ noise) (hheader : s.cfg.header ∉ noise) (hcmd : ¬ [cmdHi, cmdLo] <:+: noise)
    (hlast : noise.getLast? = some cmdHi → more.head? ≠ some cmdLo) : poll now s = poll now { s with rxq := more } := by
  have hl : s.rxq.length = noise.length + more.length := by rw [hq, List.length_append]
  calc poll now s
      = drain now (noise.length + more.length) (sampleClock now (beginOp s)) := by rw [poll_of_notStale (.inl hs), hl]
    _ = drain now more.length { sampleClock now (beginOp s) with rxq := more } :=
        drain_discards now noise more more.length _ hs hq hack hheader hcmd hlast
    _ = poll now { s with rxq := more } := (poll_of_notStale (s := { s with rxq := more }) (.inl hs)).symm

/-- A packet for another endpoint is discarded, and a POLL goes on with the bytes after it (R100, R107, R110). -/
theorem poll_foreign_then {a : Byte} {tail : List Byte} (hs : s.rxState = .seekingHeader)
    (hq : s.rxq = s.cfg.header :: a :: tail ++ more) (h1 : s.cfg.header ≠ s.cfg.ackChar) (h2 : cmdHi ≠ s.cfg.header)
    (ha : a ≠ s.cfg.localAddr) (hack : s.cfg.ackChar ∉ a :: tail) (hheader : s.cfg.header ∉ tail)
    (hcmd : ¬ [cmdHi, cmdLo] <:+: a :: tail) (hlast : (a :: tail).getLast? = some cmdHi → more.head? ≠ some cmdLo) :
    poll now s = poll now { s with rxq := more, rxbuf := [], rxHdrTime := now } :=
  (poll_foreign now hs hq h1 h2 ha hack hheader hcmd hlast).trans
    (poll_of_notStale (s := { s with rxq := more, rxbuf := [], rxHdrTime := now }) (.inl hs)).symm

/-- A byte that is no header, no ACK and begins no command is lost in SeekingHeader (R99). -/
theorem poll_lost_byte (now : Time) (hs : s.rxState = .seekingHeader) (hack : b ≠ s.cfg.ackChar) (hheader : b ≠ s.cfg.header)
    (hcmd : ¬ (b = cmdHi ∧ more.head? = some cmdLo)) :
    poll now { s with rxq := b :: more } = poll now { s with rxq := more } :=
  (poll_header_then (s := { s with rxq := b :: more }) hs rfl hack hcmd).trans (congrArg _ (if_neg hheader))

/-- A byte of a packet that neither completes it nor fills the buffer is appended, and a POLL goes on (R101 to R103, R107). -/
theorem poll_appended_byte (b : Byte) (more : List Byte) (hs : s.rxState = .accumulating) (h2 : 2 ≤ s.rxLen)
    (hn : NotStale now s) (ht : s.rxbuf[s.rxLen - 2]? ≠ some s.cfg.terminator) (hl : s.rxLen + 1 ≠ s.cfg.rxBufCap) :
    poll now { s with rxq := b :: more } = poll now { s with rxq := more, rxbuf := s.rxbuf ++ [b] } :=
  poll_appending (s := { s with rxq := b :: more }) hs rfl hn (mt (completes_append h2 b).mp ht) hl

end Queue

/-- Settles O43: the header or another byte by one turn of the loop, a run of noise by as many turns as it has bytes. -/
theorem seekingHeaderTakesOnlyTheHeader : Obligations.SeekingHeaderTakesOnlyTheHeader := by
  intro s now hs
  simp only [exec_poll]
  refine ⟨fun b more hack hcmd hq => ?byte, fun noise more hack hheader hcmd hlast hq => ?noise⟩
  case byte =>
    have hgoes := poll_header_then (now := now) hs hq hack hcmd
    refine ⟨?_, congrArg _ hgoes⟩
    rintro rfl
    rw [hgoes]
    split
    · exact congrArg _ (poll_of_nothing rfl (notStale_now rfl))
    · exact congrArg _ (poll_of_nothing rfl (.inl hs))
  case noise => rw [poll_noise_then hs hq hack hheader hcmd hlast]

/-- Settles O44: one turn of the loop, and the POLL goes on from Accumulating or from SeekingHeader. -/
theorem seekingAddressMatchesOrDrops : Obligations.SeekingAddressMatchesOrDrops := by
  intro s now b more hs hbuf hn hack hcmd hq
  have hgoes := poll_address_then hs hbuf hq hn hack hcmd
  refine ⟨?_, congrArg Host.Outcome.next hgoes⟩
  rintro rfl
  have hfresh : elapsed now s.rxHdrTime ≤ s.cfg.packetTimeout := hn.resolve_left (by simp [hs])
  rw [exec_poll, hgoes]
  split
  · exact congrArg _ (poll_of_nothing rfl (.inr hfresh))
  · exact congrArg _ (poll_of_nothing rfl (.inl rfl))

/-- Settles O46: each half of the pair is a lost byte to the POLL that finds it. -/
theorem splitCommandIsLost : Obligations.SplitCommandIsLost := by
  intro s now later hs hq hhiAck hhiHeader hloAck hloHeader
  have hfirst : poll now { s with rxq := [cmdHi] } = sampleClock now (beginOp s) := by
    rw [poll_lost_byte now hs hhiAck hhiHeader (by simp), ← hq]
    exact poll_of_nothing hq (.inl hs)
  have hsecond (more : List Byte) :
      poll later { sampleClock now (beginOp s) with rxq := cmdLo :: more } = poll later { s with rxq := more } :=
    (poll_lost_byte (s := sampleClock now (beginOp s)) later hs hloAck hloHeader (fun h => absurd h.1 (by decide))).trans
      (poll_congr (by simp [sampleClock, beginOp, clearOutputs]))
  rw [← cmdHi_eq, ← cmdLo_eq]
  refine ⟨sampleClock now (beginOp s), poll later { s with rxq := [] }, congrArg Host.Outcome.next hfirst,
    congrArg Host.Outcome.next (hsecond []), ?_, fun more => congrArg Host.Outcome.next (hsecond more)⟩
  rw [← hq]
  exact poll_of_nothing hq (.inl hs)

/-- Settles O48: one append for the ACK byte, two for the command pair. -/
theorem controlBytesAreContentInsideAPacket : Obligations.ControlBytesAreContentInsideAPacket := by
  intro s hs h2 hq hn ht hl
  have happend (b : Byte) (more : List Byte) := poll_appended_byte b more hs h2 hn ht hl
  refine ⟨?ack, fun ht' hl' => ?resendAll⟩
  case ack =>
    rw [exec_ack, next_receiveBytes_eq_exec_poll, hq, exec_poll]
    exact congrArg _ ((happend s.cfg.ackChar []).trans (poll_of_nothing rfl hn))
  case resendAll =>
    have hlen : (s.rxbuf ++ [cmdHi]).length = s.rxLen + 1 := by simp [State.rxLen]
    have hbefore : (s.rxbuf ++ [cmdHi])[(s.rxbuf ++ [cmdHi]).length - 2]? = s.rxbuf[s.rxLen - 1]? := by
      rw [hlen, List.getElem?_append_left (by unfold State.rxLen at *; omega)]
      rfl
    have hagain : poll s.clock { s with rxq := [cmdLo], rxbuf := s.rxbuf ++ [cmdHi] } =
        poll s.clock { s with rxq := [], rxbuf := s.rxbuf ++ [cmdHi] ++ [cmdLo] } :=
      poll_appended_byte (s := { s with rxbuf := s.rxbuf ++ [cmdHi] }) cmdLo [] hs
        (show 2 ≤ (s.rxbuf ++ [cmdHi]).length by omega) hn (hbefore ▸ ht')
        (show (s.rxbuf ++ [cmdHi]).length + 1 ≠ s.cfg.rxBufCap by rwa [hlen])
    rw [exec_resendAll, next_receiveBytes_eq_exec_poll, hq, exec_poll]
    refine congrArg _ ((happend cmdHi [cmdLo]).trans (hagain.trans ?_))
    rw [List.append_assoc, cmdHi_eq, cmdLo_eq]
    exact poll_of_nothing rfl hn

/-- Settles O50: the POLL takes the pair and goes on; the RESEND_ALL instruction is that POLL with nothing behind the pair. -/
theorem resendAllMarksEverySlot : Obligations.ResendAllMarksEverySlot := by
  intro s hs hack
  refine ⟨fun hq hn => ?alone, fun now more hn => ?followed⟩
  case alone =>
    rw [exec_resendAll, receiveBytes, poll_command_alone (s := rxArrive [cmdHi, cmdLo] s) (by simp [hq]) hack hs hn]
    simp [rxArrive, hq]
  case followed =>
    rw [exec_poll, ← cmdHi_eq, ← cmdLo_eq, poll_command_then (s := { s with rxq := cmdHi :: cmdLo :: more }) rfl hack hs hn]
    rfl

/-- Settles O56: the packet is discarded byte by byte, and a POLL with nothing behind it is over. -/
theorem packetForAnotherEndpointIsDiscarded : Obligations.PacketForAnotherEndpointIsDiscarded := by
  intro s now a tail hs h1 h2 ha hack hheader hcmd
  refine ⟨fun hq => ?alone, fun more hlast => ?followed⟩
  case alone =>
    have hgoes := poll_foreign_then (now := now) (more := []) hs (by simpa using hq) h1 h2 ha hack hheader hcmd (by simp)
    exact congrArg _ (hgoes.trans (poll_of_nothing rfl (.inl hs)))
  case followed =>
    exact congrArg Host.Outcome.next (poll_foreign_then (s := { s with rxq := s.cfg.header :: a :: tail ++ more }) hs rfl h1 h2
      ha hack hheader hcmd (fun h => absurd h hlast))

end Sys2Proof.Machine
end

section
/-! The receive faults StalePartialPacket, ChecksumMismatch and BufferOverflow, and the bytes a POLL reads after them
(60_exceptions.md R135 to R143; 43_receive.md R96, R102, R103). -/

namespace Sys2Proof.Machine

/-- The common action of the receive faults leaves a POLL to go on from SeekingHeader with the bytes still queued (R107, R135). -/
theorem poll_receiveFault (now : Time) (k : FaultKind) (s : State) : poll now (receiveFault k s) = poll now { s with
    readError := true, rxbuf := [], rxState := .seekingHeader, wire := s.wire ++ [0xFE, 0xED] } :=
  poll_congr (by simp [sampleClock, beginOp, clearOutputs, receiveFault, sendResendAll, emit, wireWrite, dropPartial, cmdHi_eq,
    cmdLo_eq])

/-- Settles O41: the stale check raises the fault, and the POLL goes on from SeekingHeader. -/
theorem stalePacketIsDropped : Obligations.StalePacketIsDropped := by
  intro s now hs ht
  have hgoes := (poll_of_stale hs ht).trans (congrArg (withEarlier _) (poll_receiveFault now .stalePartialPacket s))
  exact ⟨fun hq => congrArg _ (poll_over hgoes hq (.inl rfl)), congrArg _ hgoes⟩

section Closing

variable {s : State} {now : Time} {body more : List Byte} (hs : s.rxState = .seekingHeader)
  (h1 : s.cfg.header ≠ s.cfg.ackChar) (h2 : cmdHi ≠ s.cfg.header) (h3 : s.cfg.localAddr ≠ s.cfg.ackChar)
  (h4 : cmdHi ≠ s.cfg.localAddr)
include hs h1 h2 h3 h4

/-- A POLL whose queue begins with a packet for this endpoint that is closed with a fault goes on with the rest (R104, R107,
R135). -/
theorem poll_packet_fault {k : FaultKind} (hq : s.rxq = s.cfg.header :: s.cfg.localAddr :: body ++ more)
    (hb : takeBody s.cfg [s.cfg.header, s.cfg.localAddr] body = some (body, []))
    (hk : closePacket (packetHeld now body more s) = receiveFault k (packetHeld now body more s)) :
    poll now s = withEarlier [.fault k, .resendAllSent] (poll now { s with
      rxq := more, rxbuf := [], rxHdrTime := now, readError := true, wire := s.wire ++ [0xFE, 0xED] }) := by
  rw [poll_packet_then hs hq h1 h2 h3 h4 hb, hk, poll_receiveFault, receiveFault_events]
  refine congrArg (withEarlier _) (poll_congr ?_)
  simp [packetHeld, sampleClock, beginOp, clearOutputs, hs]

/-- A packet whose last two bytes are not the checksum of those before them (R102, R137). -/
theorem poll_corrupt_then {payload : List Byte} {c1 c2 : Byte}
    (hq : s.rxq = s.cfg.header :: s.cfg.localAddr :: (payload ++ [s.cfg.terminator, c1, c2]) ++ more)
    (hterm : s.cfg.terminator ∉ [s.cfg.header, s.cfg.localAddr] ++ payload) (hfits : payload.length + 5 ≤ s.cfg.rxBufCap)
    (hsum : (crc16 s.cfg.crcTable (s.cfg.header :: s.cfg.localAddr :: (payload ++ [s.cfg.terminator]))).toNat ≠
      c1.toNat * 256 + c2.toNat) :
    poll now s = withEarlier [.fault .checksumMismatch, .resendAllSent] (poll now { s with
      rxq := more, rxbuf := [], rxHdrTime := now, readError := true, wire := s.wire ++ [0xFE, 0xED] }) := by
  refine poll_packet_fault hs h1 h2 h3 h4 hq
    (takeBody_conforming _ _ payload c1 c2 (by simp) hterm (by simp; omega)) (closePacket_mismatch ?completes ?decodes)
  case completes =>
    exact (completes_iff _ _).mpr (threeBack_append (s.cfg.header :: s.cfg.localAddr :: payload) _ _ _)
  case decodes =>
    have hcut : s.cfg.header :: s.cfg.localAddr :: (payload ++ [s.cfg.terminator, c1, c2]) =
        s.cfg.header :: s.cfg.localAddr :: (payload ++ [s.cfg.terminator]) ++ [c1, c2] := by simp
    show decodePacket s.cfg (s.cfg.header :: s.cfg.localAddr :: (payload ++ [s.cfg.terminator, c1, c2])) = _
    rw [hcut, decodePacket_append _ _ _ _ (by simp), if_neg hsum]

/-- Bytes that fill the buffer, no terminator among those that could complete the packet (R103, R140). -/
theorem poll_overflow_then {content : List Byte} (hq : s.rxq = s.cfg.header :: s.cfg.localAddr :: content ++ more)
    (hlen : content.length + 2 = s.cfg.rxBufCap) (hcap : 5 ≤ s.cfg.rxBufCap)
    (hterm : s.cfg.terminator ∉ (s.cfg.header :: s.cfg.localAddr :: content).take (s.cfg.rxBufCap - 2)) :
    poll now s = withEarlier [.fault .bufferOverflow, .resendAllSent] (poll now { s with
      rxq := more, rxbuf := [], rxHdrTime := now, readError := true, wire := s.wire ++ [0xFE, 0xED] }) := by
  have hne : content ≠ [] := by
    rintro rfl
    simp at hlen
    omega
  obtain ⟨htake, hcompletes⟩ := takeBody_filling s.cfg [s.cfg.header, s.cfg.localAddr] content (by simp) hne
    (by simp; omega) hterm
  exact poll_packet_fault hs h1 h2 h3 h4 hq htake (closePacket_overflow hcompletes)

end Closing

/-- Bytes that begin with a header and an address and end with their first terminator hold a payload between them (R45). -/
theorem exists_payload {bytes : List Byte} {h a m : Byte} (hlen : 3 ≤ bytes.length) (hh : bytes[0]? = some h)
    (ha : bytes[1]? = some a) (hm : bytes.getLast? = some m) (hno : m ∉ bytes.dropLast) :
    ∃ payload, bytes = h :: a :: (payload ++ [m]) ∧ m ∉ [h, a] ++ payload := by
  match bytes, hlen with
  | x :: y :: z :: rest, _ =>
    obtain rfl : x = h := by simpa using hh
    obtain rfl : y = a := by simpa using ha
    have hsplit : (z :: rest).dropLast ++ [m] = z :: rest := List.dropLast_append_getLast? m (by simpa using hm)
    exact ⟨(z :: rest).dropLast, by rw [hsplit], by simpa using hno⟩

/-- Settles O54: the bytes are taken as one packet and closed with the fault; with nothing behind them the POLL is over. -/
theorem corruptPacketIsRejected : Obligations.CorruptPacketIsRejected := by
  intro s now bytes c1 c2 hs h1 h2 h3 h4 hlen hfits hheader haddr hlast hterm hsum
  obtain ⟨payload, rfl, hno⟩ := exists_payload hlen hheader haddr hlast hterm
  have hgoes (more : List Byte) := poll_corrupt_then (now := now) (more := more)
    (s := { s with rxq := s.cfg.header :: s.cfg.localAddr :: (payload ++ [s.cfg.terminator]) ++ c1 :: c2 :: more })
    hs h1 h2 h3 h4 (by simp) hno (by simpa using hfits) hsum
  refine ⟨fun hq => ?alone, fun more => congrArg _ (hgoes more)⟩
  case alone =>
    have halone := poll_over (hgoes []) rfl (.inl hs)
    rw [← hq] at halone
    exact congrArg _ halone

/-- Settles O55: the bytes fill the buffer and are closed with the fault; with nothing behind them the POLL is over. -/
theorem overflowDiscardsTheBuffer : Obligations.OverflowDiscardsTheBuffer := by
  intro s now content hs h1 h2 h3 h4 hlen hcap hterm
  have hgoes (more : List Byte) := poll_overflow_then (now := now) (more := more)
    (s := { s with rxq := s.cfg.header :: s.cfg.localAddr :: content ++ more }) hs h1 h2 h3 h4 rfl hlen hcap hterm
  refine ⟨fun hq => ?alone, fun more => congrArg _ (hgoes more)⟩
  case alone =>
    have halone := poll_over (hgoes []) rfl (.inl hs)
    rw [List.append_nil, ← hq] at halone
    exact congrArg _ halone

end Sys2Proof.Machine
end

section
/-! The host operations (45_host_ops.md R122 to R130): what PUBLISH, READ, TAKE and CONFIGURE answer, and that every row of the
opcode table answers a next state. -/

namespace Sys2Proof.Machine

/-! ### PUBLISH -/

section Publish

variable {s : State} {index : Byte} {slot : TxSlot}

/-- PUBLISH of a slot there is (R123). -/
theorem exec_publish_of_slot (h : s.txTable[index.toNat]? = some slot) (value : Value) :
    exec (.publish index value) s = .next { beginOp s with
      txTable := s.txTable.set index.toNat (publishSlot s.cfg.publishMarksUnchanged value slot) } := by
  rcases execPublish_cases index value s with ⟨slot', h', he⟩ | ⟨h', -⟩
  · cases h.symm.trans h'
    exact he
  · cases h.symm.trans h'

/-- PUBLISH of a slot there is not (R124). -/
theorem exec_publish_of_no_slot (h : s.txTable[index.toNat]? = none) (value : Value) :
    exec (.publish index value) s = .next (emit .rejected (beginOp s)) := by
  rcases execPublish_cases index value s with ⟨_, h', -⟩ | ⟨-, he⟩
  · cases h.symm.trans h'
  · exact he

/-- A publish sets the dirty flag when the value changes or the parameter says so, and never clears it (R123). -/
theorem publishSlot_eq (marksUnchanged : Bool) (value : Value) (slot : TxSlot) : publishSlot marksUnchanged value slot =
    { value := value
      dirty := if slot.value ≠ value ∨ marksUnchanged = true then true else slot.dirty
      lastSend := slot.lastSend } := by
  unfold publishSlot
  split
  case isTrue hmarks =>
    rcases hmarks with hne | rfl
    · simp [hne]
    · simp
  case isFalse hkept =>
    obtain ⟨rfl, hm⟩ : slot.value = value ∧ ¬ marksUnchanged = true := by simpa using hkept
    simp [hm]

/-- Where unchanged values are not marked, a slot that holds the value already is left as it is (R123, D9). -/
theorem publishSlot_false_of_value_eq {value : Value} (h : slot.value = value) : publishSlot false value slot = slot := by
  subst h
  simp [publishSlot]

/-- Settles O18: the write of one list entry, and `publishSlot_eq` for what it writes. -/
theorem publishWritesSlot : Obligations.PublishWritesSlot := by
  intro s index value slot h
  have hlt : index.toNat < s.txTable.length := (List.getElem?_eq_some_iff.mp h).1
  refine ⟨_, exec_publish_of_slot h value, ?written, fun j hj => List.getElem?_set_ne hj.symm, List.length_set .., rfl⟩
  case written => rw [← publishSlot_eq]; exact List.getElem?_set_self hlt

/-- Settles O19: no slot stands at an index at or beyond the table's length. -/
theorem publishOutOfRangeIsRejected : Obligations.PublishOutOfRangeIsRejected :=
  fun _ _ value h => exec_publish_of_no_slot (List.getElem?_eq_none h) value

/-- Settles O20: the second PUBLISH finds its own value in the slot; out of range, both are rejected alike. -/
theorem publishingTwiceIsPublishingOnce : Obligations.PublishingTwiceIsPublishingOnce := by
  intro s t index value hcfg h
  cases hslot : s.txTable[index.toNat]? with
  | none =>
    cases (exec_publish_of_no_slot hslot value).symm.trans h
    exact exec_publish_of_no_slot hslot value
  | some slot =>
    have hlt : index.toNat < s.txTable.length := (List.getElem?_eq_some_iff.mp hslot).1
    cases (exec_publish_of_slot hslot value).symm.trans h
    rw [exec_publish_of_slot (List.getElem?_set_self hlt) value]
    have hsame : publishSlot s.cfg.publishMarksUnchanged value (publishSlot s.cfg.publishMarksUnchanged value slot) =
        publishSlot s.cfg.publishMarksUnchanged value slot := by
      rw [hcfg]
      exact publishSlot_false_of_value_eq rfl
    simp only [beginOp_cfg, List.set_set, hsame]
    rfl

end Publish

/-! ### READ and TAKE -/

/-- READ answers what stands at the index, in range or not (R125, R126). -/
theorem exec_read (index : Byte) (s : State) :
    exec (.read index) s = .next (answer (.read s.rxTable[index.toNat]?) (beginOp s)) := rfl

/-- Settles O21: `ok` is whether the table has an entry at the index. -/
theorem readReturnsSlotOrRejects : Obligations.ReadReturnsSlotOrRejects := by
  intro s index
  refine ⟨fun v h => ?inRange, fun h => ?outOfRange⟩
  case inRange => rw [exec_read, h]; rfl
  case outOfRange => rw [exec_read, List.getElem?_eq_none h]; rfl

/-- TAKE answers the flag as it stands, then writes it, to 0 or to what it is (R127). -/
theorem exec_take (flag : StatusFlag) (clear : Bool) (s : State) : exec (.take flag clear) s = .next
    (writeFlag flag (if clear then false else readFlag flag s) (answer (.bit (readFlag flag s)) (beginOp s))) := by
  cases clear with
  | true => rfl
  | false => cases flag <;> rfl

/-- Settles O22: `exec_take` at each of the three flags. -/
theorem takeReadsAndClears : Obligations.TakeReadsAndClears :=
  fun s clear => ⟨exec_take .transmissionError clear s, exec_take .readError clear s, exec_take .newDataAvailable clear s⟩

/-! ### CONFIGURE -/

/-- Settles O23: the unlocked case of CONFIGURE. -/
theorem configureBeforeStart : Obligations.ConfigureBeforeStart := by
  intro s h m a hb at1 pt r hs
  rcases execConfigure_cases h m a hb at1 pt r s with ⟨hlocked, -⟩ | ⟨-, he⟩
  · cases hs.symm.trans hlocked
  · exact he

/-- Settles O24: the locked case of CONFIGURE. -/
theorem configureAfterStartIsRejected : Obligations.ConfigureAfterStartIsRejected := by
  intro s h m a hb at1 pt r hs
  rcases execConfigure_cases h m a hb at1 pt r s with ⟨-, he⟩ | ⟨hunlocked, -⟩
  · exact he
  · cases hs.symm.trans hunlocked

/-! ### Every row -/

/-- Settles O8: PUBLISH and CONFIGURE answer a next state in both of their cases, every other row in its only one. -/
theorem everyOperationCompletes : Obligations.EveryOperationCompletes := by
  intro i s
  cases i with
  | publish index value =>
    rcases execPublish_cases index value s with ⟨_, -, he⟩ | ⟨-, he⟩
    · exact ⟨_, he⟩
    · exact ⟨_, he⟩
  | configure h m a hb at1 pt r =>
    rcases execConfigure_cases h m a hb at1 pt r s with ⟨-, he⟩ | ⟨-, he⟩
    · exact ⟨_, he⟩
    · exact ⟨_, he⟩
  | data | ack | resendAll | service | poll | read | take | reset | crc16 | encode | decode => exact ⟨_, rfl⟩

end Sys2Proof.Machine
end

section
/-! TooShort (60_exceptions.md R138): a packet in reception completes with at least five bytes held when neither its header nor
its address byte is the terminator (70_reset_and_hazards.md R163). -/

namespace Sys2Proof.Machine

/-! ### What raises no TooShort in any configuration -/

theorem receiveFault_noTooShort {k : FaultKind} {s : State} (hk : k ≠ .tooShort) (h : .fault .tooShort ∉ s.events) :
    .fault .tooShort ∉ (receiveFault k s).events := by
  simpa [hk.symm] using h

theorem applyEntries_noTooShort (all es : List Entry) {s : State} (h : .fault .tooShort ∉ s.events) :
    .fault .tooShort ∉ (applyEntries all es s).events := by
  induction es generalizing s with
  | nil => simpa [applyEntries, success] using h
  | cons e rest ih =>
    rw [applyEntries]
    split
    · exact ih h
    · exact receiveFault_noTooShort (k := .unknownIndex) (by decide) h

/-- Completion with five bytes or more held passes DECODE's length check (R75, R104). -/
theorem complete_noTooShort {s : State} (hl : Config.minPkt ≤ s.rxbuf.length) (h : .fault .tooShort ∉ s.events) :
    .fault .tooShort ∉ (complete s).events := by
  show Event.fault .tooShort ∉ (finishPacket (decodePacket s.cfg s.rxbuf) s).events
  rw [decodePacket, if_neg (Nat.not_lt.mpr hl)]
  split
  · exact applyEntries_noTooShort _ _ h
  · exact receiveFault_noTooShort (k := .checksumMismatch) (by decide) h

/-! ### The receive machine, where the terminator is neither the header nor the address -/

section Receiving

variable {s : State} (hi : RxInv s) (hheader : s.cfg.header ≠ s.cfg.terminator)
  (haddr : s.cfg.localAddr ≠ s.cfg.terminator)
include hi hheader haddr

/-- A completing packet has its terminator two before its last byte, so after the header at offset 0 and the address at
offset 1 (R102, R163). -/
theorem minPkt_le_of_completes {b : Byte} (hs : s.rxState = .accumulating)
    (hc : completes s.cfg (s.rxbuf ++ [b]) = true) : Config.minPkt ≤ (s.rxbuf ++ [b]).length := by
  simp only [RxInv, hs, State.rxLen] at hi
  obtain ⟨h2, -, h0, h1, -⟩ := hi
  rw [completes_append h2] at hc
  have hne2 : s.rxbuf.length ≠ 2 := fun e => hheader (Option.some.inj (h0.symm.trans (by rwa [e] at hc)))
  have hne3 : s.rxbuf.length ≠ 3 := fun e => haddr (Option.some.inj (h1.symm.trans (by rwa [e] at hc)))
  simp only [Config.minPkt, List.length_append, List.length_singleton]
  omega

theorem accumulate_noTooShort (b : Byte) (hs : s.rxState = .accumulating) (h : .fault .tooShort ∉ s.events) :
    .fault .tooShort ∉ (accumulate b s).events := by
  unfold accumulate
  dsimp only
  split
  · next hc => exact complete_noTooShort (minPkt_le_of_completes hi hheader haddr hs hc) h
  · split
    · exact receiveFault_noTooShort (k := .bufferOverflow) (by decide) h
    · exact h

theorem rxByte_noTooShort (b : Byte) (now : Time) (h : .fault .tooShort ∉ s.events) :
    .fault .tooShort ∉ (rxByte b now s).events := by
  unfold rxByte
  split
  · unfold seekHeader; split <;> exact h
  · unfold seekAddress; split <;> exact h
  · next hs => exact accumulate_noTooShort hi hheader haddr b hs h

theorem classifyAndConsume_noTooShort (now : Time) (h : .fault .tooShort ∉ s.events) :
    .fault .tooShort ∉ (classifyAndConsume now s).events := by
  unfold classifyAndConsume
  split
  · exact h
  · split
    · rw [ackEvent_eq]; simpa using h
    · split
      · simpa [resendAllEvent] using h
      · exact rxByte_noTooShort (s := rxPop s) (hi.congr rfl rfl rfl) hheader haddr _ now h

/-- A POLL raises no TooShort, whatever its queue holds: every turn of its loop meets R31's receive rows (R163). -/
theorem poll_noTooShort (now : Time) (hcap : 5 ≤ s.cfg.rxBufCap) : .fault .tooShort ∉ (poll now s).events := by
  refine (poll_keeps (fun u => RxInv u ∧ u.cfg = s.cfg ∧ Event.fault .tooShort ∉ u.events) now ?stale ?turn s
    ⟨hi.congr rfl rfl rfl, rfl, by simp⟩).2.2
  case stale =>
    rintro u ⟨-, hcfg, h⟩
    exact ⟨rxInv_receiveFault _ u, hcfg, receiveFault_noTooShort (by decide) h⟩
  case turn =>
    rintro u ⟨hu, hcfg, h⟩
    rw [← hcfg] at hcap hheader haddr ⊢
    exact ⟨rxInv_classifyAndConsume now hu hcap, (classifyAndConsume_frame now u).cfg,
      classifyAndConsume_noTooShort hu hheader haddr now h⟩

end Receiving

/-! ### Any instruction -/

/-- An instruction that polls bytes ends in a POLL of what is queued and what it brings (R95; log 4). -/
theorem PollsBytes.next_eq_poll {i : Instr} {s t : State} (hi : PollsBytes i) (h : exec i s = .next t) :
    ∃ now bytes, t = poll now (rxArrive bytes s) := by
  rcases hi with ⟨now, rfl⟩ | ⟨addr, body, rfl⟩ | rfl | rfl
  · cases h; exact ⟨now, [], by rw [rxArrive_nil]⟩
  all_goals cases h; exact ⟨_, _, rfl⟩

/-- Settles O57: only a POLL, and a SERVICE past the deadline, raise a fault, and neither raises TooShort. -/
theorem tooShortNeverArisesUnderConfigOK : Obligations.TooShortNeverArisesUnderConfigOK := by
  intro i s t hinv hok h
  obtain ⟨⟨hheader, -⟩, ⟨-, haddr, -⟩, -, -, -, hcap⟩ := hok
  obtain ⟨-, hrx, -⟩ := hinv
  rcases (effect_of_exec h).setsFlags with ⟨hi, -, -⟩ | ⟨-, -, now, rfl⟩ | hquiet
  case inl =>
    obtain ⟨now, bytes, rfl⟩ := hi.next_eq_poll h
    exact poll_noTooShort (s := rxArrive bytes s) (hrx.congr rfl rfl rfl) hheader haddr now hcap
  case inr.inl => simp
  case inr.inr => exact hquiet.noFault .tooShort

end Sys2Proof.Machine
end

section
/-! What RESET leaves (70_reset_and_hazards.md R154 to R156). -/

namespace Sys2Proof.Machine

/-- A RESET's meaning (R154). -/
theorem exec_reset (peer localA : Byte) (capTx capRx : Nat) (r : Bool) (s : State) :
    exec (.reset peer localA capTx capRx r) s = execReset peer localA capTx capRx r s := rfl

/-- Settles O16: every value is a closed constant of the reset state, so the comparison is an evaluation. -/
theorem resetStateValues : Obligations.ResetStateValues := by
  unfold Obligations.ResetStateValues
  decide

/-- Settles O17: the state is the one `execReset_eq` gives, with the registers of `resetConfig_eq`; the buffers are empty, so
their lengths are 0. -/
theorem resetOperation : Obligations.ResetOperation := by
  intro s peer localA m n r
  refine ⟨_, (exec_reset peer localA m n r s).trans (execReset_eq peer localA m n r s), ?_⟩
  simp [TxSlot.zero, State.txLen, State.rxLen, resetConfig_eq]

end Sys2Proof.Machine
end
